-- ==== Sys2Proof/Word.lean ====
section
/-! DEFINITION. The word types of the block: port words, bound registers, bits. -/

namespace Sys2Proof

/-- A multi-bit value on a port: ARG, RESULT, a table answer, OBS_DATA (00_scope.md R9, WORD = 64). -/
abbrev Word := BitVec 64

/-- The CMD word of a command (30_encoding.md R110). -/
abbrev CmdWord := BitVec 32

/-- The width of the registers LOW, HIGH and CODE (00_scope.md R10, W_MAX = 63). -/
abbrev Bound := BitVec 63

/-- One bit of a bit stream (20_memory.md R80); `true` is the bit 1. -/
abbrev Bit := Bool

end Sys2Proof
end

