-- ==== Sys2Proof/Config.lean ====
section
/-! DEFINITION. What one build of the block fixes, and the values the spec leaves free. -/

namespace Sys2Proof

/-- The build parameters the spec leaves to the model (00_scope.md R7, R8). Every value of this type is a legal
build: MAX_INT_BITS is 64 or more and PENDING_BITS is 1 or more, so each is held as its excess over its least
legal value. `Build.maxIntBits` and `Build.pendingBits` (Machine/Operands.lean) read them. -/
structure Build where
  /-- MAX_INT_BITS - 64 (R7). -/
  intBitsOver : Nat
  /-- PENDING_BITS - 1 (R8). -/
  pendingBitsOver : Nat
  deriving DecidableEq, Repr

/-- The default build: MAX_INT_BITS = 64 (R7) and PENDING_BITS = 64 (R8). -/
def Build.standard : Build := ⟨0, 63⟩

/-- A free natural number for each draw: nothing constrains it (log 5, 9, 22). -/
opaque Config.freeNat : Nat → Nat

/-- A free port word for each draw (10_state.md R51; log 5, 8, 9, 16). -/
opaque Config.freeWord : Nat → Word

/-- A free string of bits for each draw (60_exceptions.md R285; log 5). -/
opaque Config.freeBits : Nat → List Bit

end Sys2Proof
end

