-- ==== Sys2Proof/Syntax.lean ====
section
/-! DEFINITION. The seven commands of the block (30_encoding.md R113), one constructor a row of the opcode table. -/

namespace Sys2Proof

/-- A command with its operand. Operands are a size and an index, so they are naturals; `Instr.wellFormed` holds
them to the ranges of 30_encoding.md R123. -/
inductive Instr where
  /-- NOP (43_session_control.md R250). -/
  | nop
  /-- INIT.ENC w (41_encoder.md R180). -/
  | initEnc (w : Nat)
  /-- INIT.DEC w (42_decoder.md R210). -/
  | initDec (w : Nat)
  /-- ENC s (41_encoder.md R181). -/
  | enc (symbol : Nat)
  /-- DEC (42_decoder.md R211). -/
  | dec
  /-- FIN (41_encoder.md R184). -/
  | fin
  /-- CLOSE (43_session_control.md R251). -/
  | close
  deriving DecidableEq, Repr

/-- The textual form of a command (30_encoding.md R123), its operand in decimal. -/
def Instr.text : Instr → String
  | .nop => "NOP"
  | .initEnc w => "INIT.ENC " ++ toString w
  | .initDec w => "INIT.DEC " ++ toString w
  | .enc symbol => "ENC " ++ toString symbol
  | .dec => "DEC"
  | .fin => "FIN"
  | .close => "CLOSE"

end Sys2Proof
end

