-- ==== Sys2Proof/WellFormed.lean ====
section
/-! DEFINITION. Which commands can be written in the encoding: the operand ranges of 30_encoding.md R123. -/

namespace Sys2Proof

/-- `<w>` is 0 to 255 (R123): the WIDTH field has 8 bits, more than the legal range needs (R114). -/
def Instr.widthFits (w : Nat) : Bool := w < 2 ^ 8

/-- `<s>` is 0 to 2^64 - 1 (R123): SYMBOL is the whole of ARG (R111, R115). -/
def Instr.symbolFits (symbol : Nat) : Bool := symbol < 2 ^ 64

/-- A command whose operand fits its field. A width outside 1 to 63 is well formed: the command itself rejects it
with DOMAIN_ERROR (R114). -/
def Instr.wellFormed : Instr → Bool
  | .nop => true
  | .initEnc w => Instr.widthFits w
  | .initDec w => Instr.widthFits w
  | .enc symbol => Instr.symbolFits symbol
  | .dec => true
  | .fin => true
  | .close => true

end Sys2Proof
end

