-- ==== Sys2Proof/Decode.lean ====
section
/-! DEFINITION. The command decoder, total on every pair of words (30_encoding.md R118), and the encoder beside it. -/

namespace Sys2Proof

/-- Why a pair of words is no command: both are ILLEGAL_COMMAND (60_exceptions.md R276). -/
inductive DecodeReject where
  /-- OP is 0x7 to 0xF (R117). -/
  | reservedOpcode
  /-- OP is 0x0 to 0x6 and a bit its format reserves is 1 (R116). -/
  | reservedBits
  deriving DecidableEq, Repr

/-- OP = CMD[3:0] (R111). -/
def opField (cmd : CmdWord) : Nat := (cmd.extractLsb' 0 4).toNat

/-- RSV0 = CMD[7:4] (R111). -/
def rsv0Field (cmd : CmdWord) : Nat := (cmd.extractLsb' 4 4).toNat

/-- WIDTH = CMD[15:8], zero-extended (R111, R114). -/
def widthField (cmd : CmdWord) : Nat := (cmd.extractLsb' 8 8).toNat

/-- RSV1 = CMD[31:16] (R111). -/
def rsv1Field (cmd : CmdWord) : Nat := (cmd.extractLsb' 16 16).toNat

/-- The fields that format CW reserves are 0 (R112). -/
def formatCW (cmd : CmdWord) : Bool := rsv0Field cmd == 0 && rsv1Field cmd == 0

/-- The fields that formats C0 and CS reserve, all of CMD[31:4], are 0 (R112). -/
def formatC0 (cmd : CmdWord) : Bool := rsv0Field cmd == 0 && widthField cmd == 0 && rsv1Field cmd == 0

/-- A command if the reserved fields of its format are 0. -/
def ifReservedZero (zero : Bool) (i : Instr) : Except DecodeReject Instr :=
  if zero then .ok i else .error .reservedBits

/-- The decoder of 30_encoding.md R118. It depends on the two words alone; ARG matters to ENC only (R115). -/
def decode (cmd : CmdWord) (arg : Word) : Except DecodeReject Instr :=
  match opField cmd with
  | 0 => ifReservedZero (formatC0 cmd) .nop
  | 1 => ifReservedZero (formatCW cmd) (.initEnc (widthField cmd))
  | 2 => ifReservedZero (formatCW cmd) (.initDec (widthField cmd))
  | 3 => ifReservedZero (formatC0 cmd) (.enc arg.toNat)
  | 4 => ifReservedZero (formatC0 cmd) .dec
  | 5 => ifReservedZero (formatC0 cmd) .fin
  | 6 => ifReservedZero (formatC0 cmd) .close
  | _ => .error .reservedOpcode

/-- A CMD word from its OP and WIDTH fields, the reserved fields 0 (R111). -/
def cmdOf (op width : Nat) : CmdWord :=
  (0 : BitVec 16) ++ BitVec.ofNat 8 width ++ (0 : BitVec 4) ++ BitVec.ofNat 4 op

/-- The two words of a command (R111 to R113); ARG is 0 where the command ignores it. -/
def encode : Instr → CmdWord × Word
  | .nop => (cmdOf 0 0, 0)
  | .initEnc w => (cmdOf 1 w, 0)
  | .initDec w => (cmdOf 2 w, 0)
  | .enc symbol => (cmdOf 3 0, BitVec.ofNat 64 symbol)
  | .dec => (cmdOf 4 0, 0)
  | .fin => (cmdOf 5 0, 0)
  | .close => (cmdOf 6 0, 0)

/-- The CMD word among an instruction's bits numbered as the opcode table numbers them: bits 31 to 0 of the first
`nbits` bits of `w`, the bits above `nbits` being 0 (log 1). -/
def tableCmd (nbits w : Nat) : CmdWord := BitVec.ofNat 32 (w % 2 ^ nbits)

/-- The ARG word: the 64 bits that count on from CMD's, bits 95 to 32 (log 1). -/
def tableArg (nbits w : Nat) : Word := BitVec.ofNat 64 ((w % 2 ^ nbits) / 2 ^ 32)

/-- The command the decoder reads from an instruction's bits numbered as the opcode table numbers them. -/
def decodeTableWord (nbits w : Nat) : Option Instr :=
  match decode (tableCmd nbits w) (tableArg nbits w) with
  | .ok i => some i
  | .error _ => none

end Sys2Proof
end

