-- ==== Sys2Proof/Machine/State.lean ====
section
/-! DEFINITION. The state of the machine: the core's registers, its hidden sequencing state, its ports, and the
partners at those ports (10_state.md). All of it is plain data. -/

namespace Sys2Proof.Machine

/-- The values MODE holds (10_state.md R41); no rule writes 5 to 7 (log 14). -/
inductive Mode where
  | idle | enc | encFin | dec | aborted
  deriving DecidableEq, Repr

/-- The status codes of a response (30_encoding.md R120); 9 to 15 are never produced (log 14). -/
inductive Status where
  | ok | domainError | totalTooLarge | zeroFrequency | internalFault | underflowOverflow | illegalCommand
  | sequenceError | sessionAborted
  deriving DecidableEq, Repr

/-- The core's architectural registers (10_state.md R31). -/
structure Regs where
  /-- MODE, 3 bits (R41). -/
  mode : Mode
  /-- WIDTH, 8 bits: the session's state width W (R32). -/
  width : BitVec 8
  /-- LOW, 63 bits (R37). -/
  low : Bound
  /-- HIGH, 63 bits (R37). -/
  high : Bound
  /-- PENDING, PENDING_BITS bits (R39): a count, at most PENDING_MAX. -/
  pending : Nat
  /-- CODE, 63 bits (R40). -/
  code : Bound
  /-- LAST_STATUS, 4 bits (R42). -/
  lastStatus : Status
  /-- BUSY, 1 bit (R43). -/
  busy : Bool
  deriving DecidableEq, Repr

/-- The reset values of the registers (10_state.md R59). -/
def Regs.reset : Regs :=
  { mode := .idle, width := 0, low := 0, high := 0, pending := 0, code := 0, lastStatus := .ok, busy := false }

/-- Where a running command is (10_state.md R44 "the command's phase"). The spec's phases are refined so that every
port transfer a command can wait at has a phase of its own. -/
inductive Phase where
  /-- checking: the mode, the operand, the invariants, before any port event. -/
  | checking
  /-- checking: the DEC query TableTotal and the total checks and the inverse mapping after it (R213, R214). -/
  | decTotal
  /-- binary search: the query TableLimit (R215). -/
  | searchLimit
  /-- binary search: the loop (R215). -/
  | search
  /-- checking: the query TableLow of the containment check (R217). -/
  | containLow
  /-- checking: the query TableHigh of the containment check, and the check (R217). -/
  | containHigh
  /-- checking: UPDATE's entry check (R141). -/
  | updateEntry
  /-- narrowing: UPDATE's query TableTotal (R142). -/
  | queryTotal
  /-- narrowing: UPDATE's query TableLow (R142). -/
  | queryLow
  /-- narrowing: UPDATE's query TableHigh, the argument checks and the narrowing after it (R142 to R144). -/
  | queryHigh
  /-- E1/E2 loop (R146, R147). -/
  | renorm
  /-- pending-bit emission inside an E1/E2 step (R182). -/
  | pendingEmission
  /-- E3 loop (R149, R150). -/
  | underflow
  /-- decoder initial read (R210). -/
  | initialRead
  /-- the single bit of FIN (R184). -/
  | finalBit
  /-- responding: what a command does after its last port transfer. -/
  | responding
  deriving DecidableEq, Repr

/-- The hidden sequencing state of a running command (10_state.md R44). Nothing outside the core can read it. -/
structure Hidden where
  phase : Phase
  /-- T, the latched TableTotal answer. -/
  total : Word
  /-- L, the latched TableLow answer. -/
  low : Word
  /-- H, the latched TableHigh answer. -/
  high : Word
  offset : Nat
  value : Nat
  start : Nat
  /-- `end` of the binary search. -/
  stop : Nat
  mid : Nat
  /-- The decoded symbol. -/
  symbol : Nat
  /-- The count of initial bits read by INIT.DEC. -/
  initBits : Nat
  /-- The count of pending bits still to emit. -/
  pendingLeft : Nat
  deriving DecidableEq, Repr

/-- A response: STATUS and RESULT (30_encoding.md R119). -/
structure Response where
  status : Status
  result : Word
  deriving DecidableEq, Repr

/-- A command as it crosses the command port: CMD and ARG (10_state.md R53). -/
structure Command where
  cmd : CmdWord
  arg : Word
  deriving DecidableEq, Repr

/-- A table query (20_memory.md R81). -/
inductive Query where
  | total
  | low (symbol : Word)
  | high (symbol : Word)
  | limit
  deriving DecidableEq, Repr

/-- An item of the input bit stream: a bit, or the end-of-stream sentinel (20_memory.md R86). -/
inductive SourceItem where
  | bit (b : Bit)
  | eos
  deriving DecidableEq, Repr

/-- The cumulative-frequency bounds of one symbol (20_memory.md R81). -/
structure Bounds where
  low : Word
  high : Word
  deriving DecidableEq, Repr

/-- A frequency table as the table agent answers from it (20_memory.md R81): `total()`, `symbolLimit()`, and
`low(s)`, `high(s)` for the symbols 0, 1, … in order. -/
structure Table where
  total : Word
  symbolLimit : Word
  rows : List Bounds
  deriving DecidableEq, Repr

/-- An event at a port of the core, as every observer sees it (20_memory.md R92); multi-bit values as encoded. -/
inductive PortEvent where
  /-- A command transfer (10_state.md R53). -/
  | command (c : Command)
  /-- A table query and its answer (R55, 30_encoding.md R121). -/
  | query (kind : BitVec 2) (index answer : Word)
  /-- A bit handed to the sink (R56). -/
  | bitOut (b : Bit)
  /-- An answer of the bit source, two bits E and D (R57, 30_encoding.md R122). -/
  | bitIn (item : BitVec 2)
  /-- A response transfer: STATUS and RESULT (R54). -/
  | response (status : BitVec 4) (result : Word)
  /-- A read of the observation port (R49). -/
  | observe (index : BitVec 3) (data : Word)
  /-- Events the model does not claim to know, under UNDEFINED_TABLE (60_exceptions.md R285, log 5). -/
  | unknown
  deriving DecidableEq, Repr

/-- One move of an agent outside the core (10_state.md R30; log 4). -/
inductive Turn where
  /-- The host presents its next command on the command port (R53). -/
  | present
  /-- The host takes the response (R54). -/
  | take
  /-- The host reads the observation port (R49). -/
  | observe (index : BitVec 3)
  /-- The reset input is asserted or released (R58). -/
  | reset (asserted : Bool)
  /-- The table agent answers from this table from now on (R55). -/
  | table (t : Table)
  /-- The partners complete this many more transfers, or all of them (70_reset_and_hazards.md R321); a command that
  waits goes on. -/
  | partners (limit : Option Nat)
  /-- Another input stream is connected (20_memory.md R86). -/
  | source (items : List Bit)
  /-- Another sink is connected, which holds these bits already (20_memory.md R85). -/
  | sink (held : List Bit)
  deriving DecidableEq, Repr

/-- The whole machine. INVENTORY.md lists each field with its rule and its reset value. -/
structure State where
  /-- MAX_INT_BITS and PENDING_BITS (00_scope.md R7, R8): a parameter of the step that no step writes (log 11). -/
  build : Build
  /-- The registers (R31). -/
  regs : Regs
  /-- The hidden sequencing state (R44). -/
  hidden : Hidden
  /-- The accepted command that is still running (R44). -/
  current : Option Instr
  /-- The response presented on the response port and not yet taken (R54). -/
  response : Option Response
  /-- The level of the reset input (R58). -/
  resetAsserted : Bool
  /-- What the table agent answers from (R55). -/
  table : Table
  /-- The bits left in the input stream; EOS follows them for ever (20_memory.md R86). -/
  source : List Bit
  /-- The output stream, first bit first (20_memory.md R85). -/
  sink : List Bit
  /-- How many more transfers the partners complete; `none` is all of them (log 3). -/
  partnerLimit : Option Nat
  /-- The commands the host has still to present, in its order (R46). -/
  commands : List Command
  /-- Whose turn comes next; empty is the fair host (log 4). -/
  schedule : List Turn
  /-- The port events so far, oldest first (20_memory.md R92). -/
  trace : List PortEvent
  /-- UNDEFINED_TABLE has been recorded (60_exceptions.md R285). -/
  undefinedTable : Bool
  /-- The model's own counter: the next free value to draw (log 22). -/
  draws : Nat
  deriving DecidableEq, Repr

/-- Why the machine stops with a fault. No error of the spec is one: every error is a response (60_exceptions.md
R270), and UNDEFINED_TABLE is recorded in the state (R285), after which the machine goes on with free values. -/
inductive Fault where
  /-- Raised by `settle` for an ENC or a DEC one of whose loops has not ended after more steps than the spec's bounds
  allow (40_coder_state_machine.md R148, R151, 42_decoder.md R215): the hardware would go on for ever. It needs a
  WIDTH above 63, which no run reaches (10_state.md R32). Safe (log 12). -/
  | endlessLoop
  deriving DecidableEq, Repr

/-- Why the machine has no meaning for an instruction. -/
inductive Refusal where
  /-- Raised by `exec` for an instruction the model has not reached; no arm raises it. Safe. -/
  | notModelled (mnemonic : String)
  deriving DecidableEq, Repr

/-- The hidden state in `State.reset`: the spec leaves it undefined after reset, and it is never read before it is
written (R59). DESIGN CHOICE (log 9): zeros. -/
def Hidden.zero : Hidden :=
  { phase := .checking, total := 0, low := 0, high := 0, offset := 0, value := 0, start := 0, stop := 0, mid := 0,
    symbol := 0, initBits := 0, pendingLeft := 0 }

/-- The machine right after reset (R59, 70_reset_and_hazards.md R310): the registers at their reset values, the
reset input released, nothing at any port. The partners and the host hold nothing (DESIGN CHOICE, log 4, 10). -/
def State.reset : State :=
  { build := Build.standard, regs := Regs.reset, hidden := Hidden.zero, current := none, response := none,
    resetAsserted := false, table := ⟨0, 0, []⟩, source := [], sink := [], partnerLimit := none, commands := [],
    schedule := [], trace := [], undefinedTable := false, draws := 0 }

end Sys2Proof.Machine
end

