-- ==== Sys2Proof/Machine/Operands.lean ====
section
/-! DEFINITION. Operands and codes: the build parameters, the constants derived from the session width, and the
encodings of what crosses the ports. -/

namespace Sys2Proof

/-- MAX_INT_BITS, 64 or more (00_scope.md R7). -/
def Build.maxIntBits (b : Build) : Nat := 64 + b.intBitsOver

/-- maxIntValue = 2^MAX_INT_BITS - 1 (R7). -/
def Build.maxIntValue (b : Build) : Nat := 2 ^ b.maxIntBits - 1

/-- PENDING_BITS, 1 or more (00_scope.md R8). -/
def Build.pendingBits (b : Build) : Nat := 1 + b.pendingBitsOver

/-- PENDING_MAX = 2^PENDING_BITS - 1 (R8). -/
def Build.pendingMax (b : Build) : Nat := 2 ^ b.pendingBits - 1

namespace Machine

/-- W_MAX, the largest state width (00_scope.md R6). -/
def widthMax : Nat := 63

/-- The widths INIT.ENC and INIT.DEC accept (00_scope.md R6, 30_encoding.md R114). -/
def legalWidth (w : Nat) : Bool := 1 ≤ w && w ≤ widthMax

/-! ## Derived constants (10_state.md R33 to R36) -/

/-- fullRange = 2^W (R33). -/
def fullRange (w : Nat) : Nat := 2 ^ w

/-- halfRange = fullRange / 2 (R33). -/
def halfRange (w : Nat) : Nat := fullRange w / 2

/-- quarterRange = halfRange >> 1 (R33), which is 0 at W = 1. -/
def quarterRange (w : Nat) : Nat := halfRange w >>> 1

/-- minRange = (fullRange >> 2) + 2 (R34). -/
def minRange (w : Nat) : Nat := (fullRange w >>> 2) + 2

/-- maxTotal = min(floor(maxIntValue / fullRange), minRange) (R35). -/
def maxTotal (b : Build) (w : Nat) : Nat := min (b.maxIntValue / fullRange w) (minRange w)

/-- mask = fullRange - 1 (R36). -/
def mask (w : Nat) : Nat := fullRange w - 1

/-! ## Codes of the registers and the ports -/

/-- The encoding of MODE (10_state.md R41). -/
def Mode.bits : Mode → BitVec 3
  | .idle => 0
  | .enc => 1
  | .encFin => 2
  | .dec => 3
  | .aborted => 4

/-- The status codes (30_encoding.md R120). -/
def Status.bits : Status → BitVec 4
  | .ok => 0
  | .domainError => 1
  | .totalTooLarge => 2
  | .zeroFrequency => 3
  | .internalFault => 4
  | .underflowOverflow => 5
  | .illegalCommand => 6
  | .sequenceError => 7
  | .sessionAborted => 8

/-- KIND of a table query (30_encoding.md R121). -/
def Query.kind : Query → BitVec 2
  | .total => 0
  | .low _ => 1
  | .high _ => 2
  | .limit => 3

/-- INDEX of a table query (R121). -/
def Query.index : Query → Word
  | .total => 0
  | .low symbol => symbol
  | .high symbol => symbol
  | .limit => 0

/-- The two bits {E, D} of a bit-in answer (30_encoding.md R122): E, the upper one, is 1 for EOS (log 15). -/
def SourceItem.bits : SourceItem → BitVec 2
  | .bit b => BitVec.ofBool false ++ BitVec.ofBool b
  | .eos => BitVec.ofBool true ++ BitVec.ofBool false

/-- What the core reads from {E, D}: EOS if E = 1, D ignored; else the bit D (R122). -/
def SourceItem.ofBits (ed : BitVec 2) : SourceItem :=
  if ed.getLsbD 1 then .eos else .bit (ed.getLsbD 0)

/-- `readCodeBit` maps EOS to 0 (42_decoder.md R227). -/
def SourceItem.codeBit : SourceItem → Bit
  | .bit b => b
  | .eos => false

/-- INDEX of the LOW and HIGH queries of ENC: SYMBOL unchanged (30_encoding.md R115). -/
def symbolIndex (symbol : Nat) : Word := BitVec.ofNat 64 symbol

/-! ## Draws of register values, under UNDEFINED_TABLE (60_exceptions.md R285; log 5) -/

/-- A mode for each natural. -/
def Mode.draw (n : Nat) : Mode :=
  match n % 5 with
  | 0 => .idle
  | 1 => .enc
  | 2 => .encFin
  | 3 => .dec
  | _ => .aborted

/-- A status for each natural. -/
def Status.draw (n : Nat) : Status :=
  match n % 9 with
  | 0 => .ok
  | 1 => .domainError
  | 2 => .totalTooLarge
  | 3 => .zeroFrequency
  | 4 => .internalFault
  | 5 => .underflowOverflow
  | 6 => .illegalCommand
  | 7 => .sequenceError
  | _ => .sessionAborted

end Machine

end Sys2Proof
end

