-- ==== Sys2Proof/Machine/Datapath.lean ====
section
/-! DEFINITION. The datapath of UPDATE and DEC as functions of numbers: the range update datapath, one step of the
renormalization unit, one step of the underflow correction logic, the decoder's inverse mapping. Every value is a
natural number, every product exact (00_scope.md R11, R12). -/

namespace Sys2Proof.Machine

/-- The coding interval [low, high] (10_state.md R37). -/
structure Interval where
  low : Nat
  high : Nat
  deriving DecidableEq, Repr

/-- range = HIGH - LOW + 1 (00_scope.md R14). -/
def Interval.range (i : Interval) : Nat := i.high - i.low + 1

/-- `not v` within 64 bits (00_scope.md R12). -/
def bitNot (v : Nat) : Nat := (2 ^ 64 - 1) ^^^ v

/-- Narrowing (40_coder_state_machine.md R144), both bounds from the old low, with the latched T, L, H. -/
def Interval.narrow (i : Interval) (total symLow symHigh : Nat) : Interval :=
  { low := i.low + symLow * i.range / total
    high := i.low + symHigh * i.range / total - 1 }

/-- The shift of an E1/E2 step (R147). -/
def Interval.renormShift (w : Nat) (i : Interval) : Interval :=
  { low := (i.low <<< 1) &&& mask w
    high := ((i.high <<< 1) &&& mask w) ||| 1 }

/-- The shift of an E3 step (R150). -/
def Interval.underflowShift (w : Nat) (i : Interval) : Interval :=
  { low := (i.low <<< 1) &&& (mask w >>> 1)
    high := ((i.high <<< 1) &&& (mask w >>> 1)) ||| halfRange w ||| 1 }

/-- The definite bit of an encoder E1/E2 step: LOW[W-1] (41_encoder.md R182). -/
def topBit (w low : Nat) : Bit := low.testBit (w - 1)

/-- CODE in the decoder's SHIFT_HOOK and in the initial read (42_decoder.md R221). -/
def codeShift (w code : Nat) (b : Bit) : Nat := ((code <<< 1) &&& mask w) ||| b.toNat

/-- CODE in the decoder's UNDERFLOW_HOOK (42_decoder.md R222). -/
def codeUnderflow (w code : Nat) (b : Bit) : Nat :=
  (code &&& halfRange w) ||| ((code <<< 1) &&& (mask w >>> 1)) ||| b.toNat

/-- CODE in the initial read of INIT.DEC (42_decoder.md R210). -/
def codeInitial (code : Nat) (b : Bit) : Nat := (code <<< 1) ||| b.toNat

/-- offset = CODE - LOW (42_decoder.md R214). -/
def codeOffset (i : Interval) (code : Nat) : Nat := code - i.low

/-- value = floor(((offset + 1) * T - 1) / range) (R214). -/
def inverseValue (offset total range : Nat) : Nat := ((offset + 1) * total - 1) / range

/-- mid = floor((start + end) / 2) (R215). -/
def midpoint (start stop : Nat) : Nat := (start + stop) / 2

end Sys2Proof.Machine
end

