-- ==== Sys2Proof/Machine/Flags.lean ====
section
/-! DEFINITION. The block has no flags (10_state.md R47): the conditions that steer UPDATE, and the checks that raise
errors, are combinational functions of the registers, and they stand here. -/

namespace Sys2Proof.Machine

/-- The E1/E2 condition ((LOW xor HIGH) and halfRange) == 0 (40_coder_state_machine.md R146). -/
def renormDue (w : Nat) (i : Interval) : Bool := ((i.low ^^^ i.high) &&& halfRange w) == 0

/-- The E3 condition (LOW and (not HIGH) and quarterRange) != 0 (R149). -/
def underflowDue (w : Nat) (i : Interval) : Bool := ((i.low &&& bitNot i.high) &&& quarterRange w) != 0

/-- LOW < HIGH, LOW <= mask and HIGH <= mask, the first part of UPDATE's entry check (R141). -/
def boundsOk (w : Nat) (i : Interval) : Bool := i.low < i.high && i.low ≤ mask w && i.high ≤ mask w

/-- minRange <= range <= fullRange (10_state.md R38). -/
def rangeOk (w : Nat) (i : Interval) : Bool := minRange w ≤ i.range && i.range ≤ fullRange w

/-- The interval invariant (10_state.md R38), UPDATE's entry check (R141). -/
def intervalOk (w : Nat) (i : Interval) : Bool := boundsOk w i && rangeOk w i

/-- The decoder synchrony invariant LOW <= CODE <= HIGH (10_state.md R40). -/
def codeOk (i : Interval) (code : Nat) : Bool := i.low ≤ code && code ≤ i.high

/-- T > maxTotal (40_coder_state_machine.md R143). -/
def totalTooLarge (b : Build) (w total : Nat) : Bool := maxTotal b w < total

/-- T == 0 or L == H (R143). -/
def zeroFrequency (total symLow symHigh : Nat) : Bool := total == 0 || symLow == symHigh

/-- floor(L * range / T) <= offset < floor(H * range / T), the containment check (42_decoder.md R217). -/
def codeContained (range total symLow symHigh offset : Nat) : Bool :=
  symLow * range / total ≤ offset && offset < symHigh * range / total

/-- The binary search goes on while end > start + 1 (42_decoder.md R215). -/
def searchGoesOn (start stop : Nat) : Bool := start + 1 < stop

end Sys2Proof.Machine
end

