-- ==== Sys2Proof/Machine/Table.lean ====
section
/-! DEFINITION. The table agent: its answers, its contract (20_memory.md R81 to R83). -/

namespace Sys2Proof.Machine

/-- low(s) (20_memory.md R81). Outside the rows the table gives no answer, and the value is free (log 16). -/
def Table.low (t : Table) (symbol : Word) : Word :=
  match t.rows[symbol.toNat]? with
  | some r => r.low
  | none => Config.freeWord symbol.toNat

/-- high(s) (R81). -/
def Table.high (t : Table) (symbol : Word) : Word :=
  match t.rows[symbol.toNat]? with
  | some r => r.high
  | none => Config.freeWord symbol.toNat

/-- The table agent's step: the answer to the query (KIND, INDEX) (10_state.md R55, 30_encoding.md R121). -/
def tableAgentStep (t : Table) (kind : BitVec 2) (index : Word) : Word :=
  match kind.toNat with
  | 0 => t.total
  | 1 => t.low index
  | 2 => t.high index
  | _ => t.symbolLimit

/-- The rows from one on: each starts where the one before it ends, low <= high, and the last ends at total (R82). -/
def rowsFrom (from_ total : Word) : List Bounds → Bool
  | [] => from_ == total
  | r :: rest => r.low == from_ && decide (r.low.toNat ≤ r.high.toNat) && rowsFrom r.high total rest

/-- The table contract (R82): symbolLimit >= 1, a row for each symbol, low(0) = 0, high(s) = low(s + 1),
low(s) <= high(s), high(symbolLimit - 1) = total. -/
def Table.conforming (t : Table) : Bool :=
  decide (1 ≤ t.symbolLimit.toNat) && t.rows.length == t.symbolLimit.toNat && rowsFrom 0 t.total t.rows

/-- The symbol is in the alphabet, [0, symbolLimit) (R80, R83). -/
def Table.hasSymbol (t : Table) (symbol : Nat) : Bool := symbol < t.symbolLimit.toNat

/-- The rows of a frequency list: low(s) is the sum of the frequencies before s (30_encoding.md R123). -/
def rowsOfFreqs (from_ : Nat) : List Nat → List Bounds
  | [] => []
  | f :: rest => ⟨BitVec.ofNat 64 from_, BitVec.ofNat 64 (from_ + f)⟩ :: rowsOfFreqs (from_ + f) rest

/-- The table written as a frequency list in listings (R123). -/
def Table.ofFreqs (freqs : List Nat) : Table :=
  { total := BitVec.ofNat 64 freqs.sum
    symbolLimit := BitVec.ofNat 64 freqs.length
    rows := rowsOfFreqs 0 freqs }

end Sys2Proof.Machine
end

