-- ==== Sys2Proof/Machine/Ops.lean ====
section
/-! DEFINITION. The shared operations: register accessors, port transfers, acceptance, response, errors, and how the
phases of a command follow one another. -/

namespace Sys2Proof.Machine

/-! ## Updates of one part of the state -/

def State.withRegs (s : State) (r : Regs) : State := { s with regs := r }
def State.withHidden (s : State) (h : Hidden) : State := { s with hidden := h }
def State.withResponse (s : State) (r : Option Response) : State := { s with response := r }
def State.withResetLine (s : State) (b : Bool) : State := { s with resetAsserted := b }
def State.withTable (s : State) (t : Table) : State := { s with table := t }
def State.withSource (s : State) (items : List Bit) : State := { s with source := items }
def State.withSink (s : State) (held : List Bit) : State := { s with sink := held }
def State.withLimit (s : State) (limit : Option Nat) : State := { s with partnerLimit := limit }
def State.withCommands (s : State) (cs : List Command) : State := { s with commands := cs }
def State.withSchedule (s : State) (ts : List Turn) : State := { s with schedule := ts }
def State.withDraws (s : State) (n : Nat) : State := { s with draws := n }

/-- One more port event, in the one order every observer sees (20_memory.md R92). -/
def State.log (s : State) (e : PortEvent) : State := { s with trace := s.trace ++ [e] }

/-! ## Registers: reads as numbers, writes narrowed to the register's width (00_scope.md R10) -/

/-- W, the session's state width (10_state.md R32). -/
def State.w (s : State) : Nat := s.regs.width.toNat

/-- The coding interval in LOW and HIGH (R37). -/
def State.interval (s : State) : Interval := ⟨s.regs.low.toNat, s.regs.high.toNat⟩

/-- CODE as a number (R40). -/
def State.code (s : State) : Nat := s.regs.code.toNat

/-- The contents of LOW and HIGH for an interval. -/
def Regs.withInterval (r : Regs) (i : Interval) : Regs :=
  { r with low := BitVec.ofNat 63 i.low, high := BitVec.ofNat 63 i.high }

def State.writeInterval (s : State) (i : Interval) : State := s.withRegs (s.regs.withInterval i)
def State.writeCode (s : State) (n : Nat) : State := s.withRegs { s.regs with code := BitVec.ofNat 63 n }
def State.writePending (s : State) (n : Nat) : State := s.withRegs { s.regs with pending := n }
def State.writeMode (s : State) (m : Mode) : State := s.withRegs { s.regs with mode := m }
def State.enterPhase (s : State) (p : Phase) : State := s.withHidden { s.hidden with phase := p }

/-! ## Free values -/

/-- A phase for each natural. -/
def Phase.draw (n : Nat) : Phase :=
  match n % 16 with
  | 0 => .checking
  | 1 => .decTotal
  | 2 => .searchLimit
  | 3 => .search
  | 4 => .containLow
  | 5 => .containHigh
  | 6 => .updateEntry
  | 7 => .queryTotal
  | 8 => .queryLow
  | 9 => .queryHigh
  | 10 => .renorm
  | 11 => .pendingEmission
  | 12 => .underflow
  | 13 => .initialRead
  | 14 => .finalBit
  | _ => .responding

/-- The hidden state where the spec leaves it undefined: every field is free (10_state.md R44, R59; log 9). -/
def Hidden.undefined (k : Nat) : Hidden :=
  { phase := Phase.draw (Config.freeNat k)
    total := Config.freeWord k
    low := Config.freeWord (k + 1)
    high := Config.freeWord (k + 2)
    offset := Config.freeNat (k + 1)
    value := Config.freeNat (k + 2)
    start := Config.freeNat (k + 3)
    stop := Config.freeNat (k + 4)
    mid := Config.freeNat (k + 5)
    symbol := Config.freeNat (k + 6)
    initBits := Config.freeNat (k + 7)
    pendingLeft := Config.freeNat (k + 8) }

/-- Registers of which nothing is claimed (60_exceptions.md R285). -/
def Regs.undefined (k : Nat) : Regs :=
  { mode := Mode.draw (Config.freeNat k)
    width := BitVec.ofNat 8 (Config.freeNat (k + 1))
    low := BitVec.ofNat 63 (Config.freeNat (k + 2))
    high := BitVec.ofNat 63 (Config.freeNat (k + 3))
    pending := Config.freeNat (k + 4)
    code := BitVec.ofNat 63 (Config.freeNat (k + 5))
    lastStatus := Status.draw (Config.freeNat (k + 6))
    busy := (Config.freeNat (k + 7)).testBit 0 }

/-- A response port of which nothing is claimed (R285). -/
def responseUndefined (k : Nat) : Option Response :=
  if (Config.freeNat k).testBit 0 then
    some ⟨Status.draw (Config.freeNat (k + 1)), Config.freeWord k⟩
  else none

/-- UNDEFINED_TABLE is recorded, and nothing is claimed of the registers, the hidden state, the bits moved, the
transfers made or the response (R285). Nothing ever clears the record. That the machine goes on, and that what was moved
and logged before stays, followed by a marker for port events of which nothing is known, is the model's choice
(log 5). -/
def State.forget (s : State) : State :=
  { s with
    regs := Regs.undefined s.draws
    hidden := Hidden.undefined (s.draws + 8)
    current := none
    response := responseUndefined (s.draws + 17)
    source := s.source.drop (Config.freeNat (s.draws + 19))
    sink := s.sink ++ Config.freeBits s.draws
    partnerLimit := s.partnerLimit.map (· - Config.freeNat (s.draws + 20))
    trace := s.trace ++ [.unknown]
    undefinedTable := true
    draws := s.draws + 21 }

/-! ## How a part of a command ends -/

/-- How a part of a command ends. -/
inductive Flow where
  /-- It is done; the command goes on. -/
  | go (s : State)
  /-- `raise Err(code)` (00_scope.md R13): the command stops with this error. -/
  | raise (e : Status) (s : State)
  /-- A partner does not complete the transfer the command is at: the core waits (70_reset_and_hazards.md R321). -/
  | wait (s : State)
  /-- The table contract is broken: UNDEFINED_TABLE (60_exceptions.md R285). -/
  | broken (s : State)
  /-- A loop goes on beyond its bound (log 12). -/
  | endless (s : State)

/-- Statements run in order (00_scope.md R13): the next part runs if this one is done. -/
def Flow.andThen (f : Flow) (next : State → Flow) : Flow :=
  match f with
  | .go s => next s
  | .raise e s => .raise e s
  | .wait s => .wait s
  | .broken s => .broken s
  | .endless s => .endless s

/-- Raise `e` if the check fails. -/
def check (holds : Bool) (e : Status) (s : State) : Flow := if holds then .go s else .raise e s

/-- The table contract is judged when a command that runs reaches its first table query (R285; log 6). -/
def judgeContract (honoured : Bool) (s : State) : Flow := if honoured then .go s else .broken s

/-! ## Port transfers -/

/-- One transfer the core starts: it goes on if its partner completes the transfer, and waits there if not
(10_state.md R30, 70_reset_and_hazards.md R321; log 3). -/
def transfer (s : State) (next : State → Flow) : Flow :=
  match s.partnerLimit with
  | none => next s
  | some 0 => .wait s
  | some (n + 1) => next (s.withLimit (some n))

/-- A query on the table port (20_memory.md R81, 10_state.md R55); its answer goes to `next`. -/
def tableQuery (q : Query) (s : State) (next : Word → State → Flow) : Flow :=
  transfer s fun s =>
    let answer := tableAgentStep s.table q.kind q.index
    next answer (s.log (.query q.kind q.index answer))

/-- The bit sink's step: it appends the bit (20_memory.md R85). -/
def bitSinkStep (held : List Bit) (b : Bit) : List Bit := held ++ [b]

/-- `BitOut(b)` (R85). -/
def bitOut (b : Bit) (s : State) : Flow :=
  transfer s fun s => .go ((s.withSink (bitSinkStep s.sink b)).log (.bitOut b))

/-- The bit source's step: its answer {E, D}, and the items left. After the last bit every answer is EOS (R86). -/
def bitSourceStep (items : List Bit) : BitVec 2 × List Bit :=
  match items with
  | [] => (SourceItem.eos.bits, [])
  | b :: rest => ((SourceItem.bit b).bits, rest)

/-- `readCodeBit()`: one `BitIn()`, EOS read as 0 (42_decoder.md R227); the bit goes to `next`. -/
def readCodeBit (s : State) (next : Bit → State → Flow) : Flow :=
  transfer s fun s =>
    let answer := bitSourceStep s.source
    next (SourceItem.ofBits answer.1).codeBit ((s.withSource answer.2).log (.bitIn answer.1))

/-! ## Acceptance, response, errors -/

/-- The core is ready for a command exactly when BUSY = 0 and reset is not asserted (10_state.md R53). -/
def State.ready (s : State) : Bool := !s.regs.busy && !s.resetAsserted

/-- A command is accepted: BUSY becomes 1 and it starts (R53), its hidden state undefined (R44). -/
def accept (i : Option Instr) (s : State) : State :=
  { s with
    regs := { s.regs with busy := true }
    hidden := Hidden.undefined s.draws
    current := i
    draws := s.draws + 9 }

/-- The one response of a command (30_encoding.md R119); LAST_STATUS takes its STATUS (43_session_control.md R255). -/
def respond (st : Status) (result : Word) (s : State) : State :=
  { s with
    regs := { s.regs with lastStatus := st }
    hidden := { s.hidden with phase := .responding }
    current := none
    response := some ⟨st, result⟩ }

/-- MODE after an error: ABORTED after the fatal ones (60_exceptions.md R280), IDLE after DOMAIN_ERROR (R271), and
as it was after the others (R272, R273, R276 to R278). -/
def Status.modeAfter (e : Status) (m : Mode) : Mode :=
  match e with
  | .internalFault => .aborted
  | .underflowOverflow => .aborted
  | .domainError => .idle
  | .ok => m
  | .totalTooLarge => m
  | .zeroFrequency => m
  | .illegalCommand => m
  | .sequenceError => m
  | .sessionAborted => m

/-- What every error does (R270): it writes MODE as its rule says and responds (code, 0). Nothing is saved and no
handler is entered (R283). -/
def raiseError (e : Status) (s : State) : State := respond e 0 (s.writeMode (e.modeAfter s.regs.mode))

/-- The outcome of a command: OK with its result (30_encoding.md R120), the error it raised, a wait with BUSY = 1
(70_reset_and_hazards.md R321), or UNDEFINED_TABLE (60_exceptions.md R285). -/
def settle (result : State → Word) (f : Flow) : Host.Outcome State Fault Refusal :=
  match f with
  | .go s => .next (respond .ok (result s) s)
  | .raise e s => .next (raiseError e s)
  | .wait s => .next s
  | .broken s => .next s.forget
  | .endless _ => .fault .endlessLoop

/-- The checks of 43_session_control.md R254 (2) and (3) for a command that needs mode `m`. -/
def requireMode (m : Mode) (s : State) : Flow :=
  if s.regs.mode = .aborted then .raise .sessionAborted s
  else if s.regs.mode = m then .go s
  else .raise .sequenceError s

/-- ILLEGAL_COMMAND: the command is accepted and responds, and nothing else changes (60_exceptions.md R276). -/
def illegalCommand (s : State) : State := raiseError .illegalCommand (accept none s)

/-! ## The phases of a command -/

/-- A part of a command that is entered with a phase of its own, and can be entered again where it waited. -/
structure Stage where
  phase : Phase
  run : State → Flow

/-- The stages in order, each entered with its phase. -/
def runStages : List Stage → State → Flow
  | [], s => .go s
  | stage :: rest, s => (stage.run (s.enterPhase stage.phase)).andThen (runStages rest)

/-- The phase under which a stage stands in its command: the emission of pending bits is part of an E1/E2 step. -/
def Phase.stage (p : Phase) : Phase := if p = .pendingEmission then .renorm else p

/-- The stages from the one at phase `p` on. -/
def stagesFrom (p : Phase) : List Stage → List Stage
  | [] => []
  | stage :: rest => if stage.phase = p then stage :: rest else stagesFrom p rest

/-- A command goes on in the stage where it waited. -/
def resumeStages (stages : List Stage) (s : State) : Flow :=
  match stagesFrom s.hidden.phase.stage stages with
  | [] => .wait s
  | stage :: rest => (stage.run s).andThen (runStages rest)

/-- A command from its acceptance to its response, or to a transfer that a partner does not complete. -/
def runCommand (i : Instr) (stages : List Stage) (result : State → Word) (s : State) :
    Host.Outcome State Fault Refusal :=
  settle result (runStages stages (accept (some i) s))

/-- RESULT of every command but DEC (30_encoding.md R119). -/
def noResult (_ : State) : Word := 0

end Sys2Proof.Machine
end

