-- ==== Sys2Proof/Machine/Update.lean ====
section
/-! DEFINITION. UPDATE, the transition that ENC and DEC share (40_coder_state_machine.md), with the hooks of both
directions (41_encoder.md R182, R183; 42_decoder.md R221, R222). -/

namespace Sys2Proof.Machine

/-! ## Entry check, queries, argument checks, narrowing -/

/-- The entry check (R141), then the contract of the table and the symbol (log 6). -/
def updateEntry (symbol : State → Word) (s : State) : Flow :=
  (check (intervalOk s.w s.interval) .internalFault s).andThen fun s =>
    judgeContract (s.table.conforming && s.table.hasSymbol (symbol s).toNat) s

/-- T <- TableTotal() (R142). -/
def updateQueryTotal (s : State) : Flow :=
  tableQuery .total s fun t s => .go (s.withHidden { s.hidden with total := t })

/-- L <- TableLow(s) (R142). -/
def updateQueryLow (symbol : State → Word) (s : State) : Flow :=
  tableQuery (.low (symbol s)) s fun l s => .go (s.withHidden { s.hidden with low := l })

/-- The argument checks in their order (R143). -/
def updateArguments (s : State) : Flow :=
  (check (!totalTooLarge s.build s.w s.hidden.total.toNat) .totalTooLarge s).andThen fun s =>
    check (!zeroFrequency s.hidden.total.toNat s.hidden.low.toNat s.hidden.high.toNat) .zeroFrequency s

/-- The range update datapath writes LOW and HIGH together (R144). -/
def updateNarrow (s : State) : State :=
  s.writeInterval
    (s.interval.narrow s.hidden.total.toNat s.hidden.low.toNat s.hidden.high.toNat)

/-- H <- TableHigh(s) (R142), the argument checks (R143), the narrowing (R144). -/
def updateQueryHigh (symbol : State → Word) (s : State) : Flow :=
  tableQuery (.high (symbol s)) s fun h s =>
    (updateArguments (s.withHidden { s.hidden with high := h })).andThen fun s => .go (updateNarrow s)

/-! ## Hooks -/

/-- `repeat n times: BitOut(b)`; the count still to emit is kept up (10_state.md R44). -/
def emitPending : Nat → Bit → State → Flow
  | 0, _, s => .go s
  | n + 1, b, s =>
    (bitOut b (s.withHidden { s.hidden with pendingLeft := n + 1 })).andThen fun s => emitPending n b s

/-- The part of the encoder's SHIFT_HOOK after its definite bit: `n` bits of the opposite polarity, PENDING <- 0
(R182). -/
def encEmission (n : Nat) (s : State) : Flow :=
  (emitPending n (!topBit s.w s.interval.low) (s.enterPhase .pendingEmission)).andThen fun s =>
    .go ((s.writePending 0).enterPhase .renorm)

/-- The encoder's SHIFT_HOOK (R182). -/
def encShiftHook (s : State) : Flow :=
  (bitOut (topBit s.w s.interval.low) s).andThen fun s => encEmission s.regs.pending s

/-- The decoder's SHIFT_HOOK (42_decoder.md R221). -/
def decShiftHook (s : State) : Flow :=
  readCodeBit s fun b s => .go (s.writeCode (codeShift s.w s.code b))

/-- SHIFT_HOOK, selected by MODE, which is ENC or DEC whenever UPDATE runs (R154; log 23). -/
def shiftHook (s : State) : Flow :=
  match s.regs.mode with
  | .enc => encShiftHook s
  | .dec => decShiftHook s
  | .idle => .go s
  | .encFin => .go s
  | .aborted => .go s

/-- The encoder's UNDERFLOW_HOOK (41_encoder.md R183). -/
def encUnderflowHook (s : State) : Flow :=
  (check (s.regs.pending != s.build.pendingMax) .underflowOverflow s).andThen fun s =>
    .go (s.writePending (s.regs.pending + 1))

/-- The decoder's UNDERFLOW_HOOK (42_decoder.md R222). -/
def decUnderflowHook (s : State) : Flow :=
  readCodeBit s fun b s => .go (s.writeCode (codeUnderflow s.w s.code b))

/-- UNDERFLOW_HOOK, selected by MODE (R154; log 23). -/
def underflowHook (s : State) : Flow :=
  match s.regs.mode with
  | .enc => encUnderflowHook s
  | .dec => decUnderflowHook s
  | .idle => .go s
  | .encFin => .go s
  | .aborted => .go s

/-! ## The two loops -/

/-- More steps than either loop can take: at most W of them (R151), and W is at most 63 (log 12). -/
def loopBound : Nat := 64

/-- The shift of an E1/E2 step, after its hook (R147). -/
def renormShift (s : State) : State := s.writeInterval (s.interval.renormShift s.w)

/-- The renormalization unit: E1/E2 steps while they are due (R146, R147). -/
def renormLoop : Nat → State → Flow
  | 0, s => if renormDue s.w s.interval then .endless s else .go s
  | n + 1, s =>
    if renormDue s.w s.interval then (shiftHook s).andThen fun s => renormLoop n (renormShift s) else .go s

/-- The E1/E2 loop as a stage: entered at its test, or inside an encoder step that waited in its pending bits. -/
def updateRenorm (s : State) : Flow :=
  if s.hidden.phase = .pendingEmission then
    (encEmission s.hidden.pendingLeft s).andThen fun s => renormLoop loopBound (renormShift s)
  else renormLoop loopBound s

/-- The shift of an E3 step, after its hook (R150). -/
def underflowShift (s : State) : State := s.writeInterval (s.interval.underflowShift s.w)

/-- The underflow correction logic: E3 steps while they are due (R149, R150). -/
def underflowLoop : Nat → State → Flow
  | 0, s => if underflowDue s.w s.interval then .endless s else .go s
  | n + 1, s =>
    if underflowDue s.w s.interval then (underflowHook s).andThen fun s => underflowLoop n (underflowShift s)
    else .go s

/-- The E3 loop as a stage. -/
def updateUnderflow (s : State) : Flow := underflowLoop loopBound s

/-! ## The whole transition -/

/-- UPDATE(symbol) in full (R140): the E1/E2 loop to its end, then the E3 loop to its end (R152). -/
def updateStages (symbol : State → Word) : List Stage :=
  [ ⟨.updateEntry, updateEntry symbol⟩,
    ⟨.queryTotal, updateQueryTotal⟩,
    ⟨.queryLow, updateQueryLow symbol⟩,
    ⟨.queryHigh, updateQueryHigh symbol⟩,
    ⟨.renorm, updateRenorm⟩,
    ⟨.underflow, updateUnderflow⟩ ]

end Sys2Proof.Machine
end

