-- ==== Sys2Proof/Machine/Encoder.lean ====
section
/-! DEFINITION. The encoder commands: INIT.ENC, ENC and FIN (41_encoder.md). -/

namespace Sys2Proof.Machine

/-- The registers a session of width `w` starts from, but for MODE (41_encoder.md R180, 42_decoder.md R210). -/
def Regs.opened (r : Regs) (w : Nat) : Regs :=
  { r with
    width := BitVec.ofNat 8 w
    low := 0
    high := BitVec.ofNat 63 (mask w)
    pending := 0
    code := 0 }

/-- INIT.ENC w (R180): the width check, then the registers of the new session. -/
def initEncOpen (w : Nat) (s : State) : Flow :=
  (check (legalWidth w) .domainError s).andThen fun s =>
    .go ((s.withRegs (s.regs.opened w)).writeMode .enc)

def initEncStages (w : Nat) : List Stage := [⟨.checking, initEncOpen w⟩]

/-- INIT.ENC w (R180). -/
def execInitEnc (w : Nat) (s : State) : Host.Outcome State Fault Refusal :=
  runCommand (.initEnc w) (initEncStages w) noResult s

def encStages (symbol : Nat) : List Stage :=
  ⟨.checking, requireMode .enc⟩ :: updateStages fun _ => symbolIndex symbol

/-- ENC s (R181). -/
def execEnc (symbol : Nat) (s : State) : Host.Outcome State Fault Refusal :=
  runCommand (.enc symbol) (encStages symbol) noResult s

/-- After FIN's bit the session is ENC_FIN; LOW, HIGH and PENDING stay (R184). -/
def finClose (s : State) : Flow := .go (s.writeMode .encFin)

def finStages : List Stage :=
  [⟨.checking, requireMode .enc⟩, ⟨.finalBit, bitOut true⟩, ⟨.responding, finClose⟩]

/-- FIN (R184). -/
def execFin (s : State) : Host.Outcome State Fault Refusal := runCommand .fin finStages noResult s

end Sys2Proof.Machine
end

