-- ==== Sys2Proof/Machine/Decoder.lean ====
section
/-! DEFINITION. The decoder commands: INIT.DEC and DEC (42_decoder.md). -/

namespace Sys2Proof.Machine

/-! ## INIT.DEC (R210) -/

/-- The width check, then the registers of the new session, CODE still to fill. -/
def initDecOpen (w : Nat) (s : State) : Flow :=
  (check (legalWidth w) .domainError s).andThen fun s =>
    .go ((s.withRegs (s.regs.opened w)).withHidden { s.hidden with initBits := 0 })

/-- `repeat n times: CODE <- (CODE << 1) or readCodeBit()`; the count of bits read is kept up. -/
def readInitial : Nat → State → Flow
  | 0, s => .go s
  | n + 1, s =>
    readCodeBit s fun b s =>
      readInitial n
        ((s.writeCode (codeInitial s.code b)).withHidden { s.hidden with initBits := s.hidden.initBits + 1 })

/-- The initial read: what is left of the w bits. -/
def initDecRead (w : Nat) (s : State) : Flow := readInitial (w - s.hidden.initBits) s

/-- MODE <- DEC, after the last bit. -/
def initDecClose (s : State) : Flow := .go (s.writeMode .dec)

def initDecStages (w : Nat) : List Stage :=
  [⟨.checking, initDecOpen w⟩, ⟨.initialRead, initDecRead w⟩, ⟨.responding, initDecClose⟩]

/-- INIT.DEC w (R210). -/
def execInitDec (w : Nat) (s : State) : Host.Outcome State Fault Refusal :=
  runCommand (.initDec w) (initDecStages w) noResult s

/-! ## DEC (R211) -/

/-- The mode check, the pre-check (R212), then the contract of the table (log 6). -/
def decCheck (s : State) : Flow :=
  (requireMode .dec s).andThen fun s =>
    (check (intervalOk s.w s.interval && codeOk s.interval s.code) .internalFault s).andThen fun s =>
      judgeContract s.table.conforming s

/-- The total checks (R213). -/
def decTotalChecks (s : State) : Flow :=
  (check (!totalTooLarge s.build s.w s.hidden.total.toNat) .totalTooLarge s).andThen fun s =>
    check (s.hidden.total.toNat != 0) .zeroFrequency s

/-- The inverse mapping and its check (R214). -/
def decInverse (s : State) : Flow :=
  let offset := codeOffset s.interval s.code
  let value := inverseValue offset s.hidden.total.toNat s.interval.range
  check (value < s.hidden.total.toNat) .internalFault (s.withHidden { s.hidden with offset := offset, value := value })

/-- T <- TableTotal() (R213), the total checks, the inverse mapping (R214). -/
def decTotal (s : State) : Flow :=
  tableQuery .total s fun t s =>
    (decTotalChecks (s.withHidden { s.hidden with total := t })).andThen decInverse

/-- start <- 0; end <- TableLimit() (R215). -/
def decLimit (s : State) : Flow :=
  tableQuery .limit s fun n s => .go (s.withHidden { s.hidden with start := 0, stop := n.toNat })

/-- The bounds of the search after the answer `a` to TableLow(mid) (R215). -/
def Hidden.narrowSearch (h : Hidden) (a : Word) : Hidden :=
  if h.value < a.toNat then { h with stop := h.mid } else { h with start := h.mid }

/-- More iterations than the search can take: symbolLimit is below 2^64 (log 12). -/
def searchBound : Nat := 64

/-- The loop of the binary search (R215), one TableLow(mid) an iteration. -/
def searchLoop : Nat → State → Flow
  | 0, s => if searchGoesOn s.hidden.start s.hidden.stop then .endless s else .go s
  | n + 1, s =>
    if searchGoesOn s.hidden.start s.hidden.stop then
      let mid := midpoint s.hidden.start s.hidden.stop
      tableQuery (.low (BitVec.ofNat 64 mid)) (s.withHidden { s.hidden with mid := mid }) fun a s =>
        searchLoop n (s.withHidden (s.hidden.narrowSearch a))
    else .go s

/-- The search, the search check (R216), sym <- start. -/
def decSearch (s : State) : Flow :=
  (searchLoop searchBound s).andThen fun s =>
    (check (s.hidden.start + 1 == s.hidden.stop) .internalFault s).andThen fun s =>
      .go (s.withHidden { s.hidden with symbol := s.hidden.start })

/-- INDEX of the queries about the decoded symbol. -/
def decodedIndex (s : State) : Word := BitVec.ofNat 64 s.hidden.symbol

/-- L <- TableLow(sym) (R217). -/
def decContainLow (s : State) : Flow :=
  tableQuery (.low (decodedIndex s)) s fun l s => .go (s.withHidden { s.hidden with low := l })

/-- The containment check (R217). -/
def decContained (s : State) : Flow :=
  check
    (codeContained s.interval.range s.hidden.total.toNat s.hidden.low.toNat s.hidden.high.toNat s.hidden.offset)
    .internalFault s

/-- H <- TableHigh(sym), then the containment check (R217). -/
def decContainHigh (s : State) : Flow :=
  tableQuery (.high (decodedIndex s)) s fun h s => decContained (s.withHidden { s.hidden with high := h })

/-- The post-check (R219). -/
def decPostCheck (s : State) : Flow := check (codeOk s.interval s.code) .internalFault s

/-- DEC in full (R211): its own stages, UPDATE(sym) (R218), the post-check. -/
def decStages : List Stage :=
  [ ⟨.checking, decCheck⟩,
    ⟨.decTotal, decTotal⟩,
    ⟨.searchLimit, decLimit⟩,
    ⟨.search, decSearch⟩,
    ⟨.containLow, decContainLow⟩,
    ⟨.containHigh, decContainHigh⟩ ]
  ++ updateStages decodedIndex
  ++ [⟨.responding, decPostCheck⟩]

/-- DEC (R211); RESULT is the decoded symbol (30_encoding.md R119). -/
def execDec (s : State) : Host.Outcome State Fault Refusal := runCommand .dec decStages decodedIndex s

end Sys2Proof.Machine
end

