-- ==== Sys2Proof/Machine/Session.lean ====
section
/-! DEFINITION. The commands that touch the session only: NOP and CLOSE (43_session_control.md), and the stages of
every command by its constructor. -/

namespace Sys2Proof.Machine

def nopStages : List Stage := []

/-- NOP (R250). -/
def execNop (s : State) : Host.Outcome State Fault Refusal := runCommand .nop nopStages noResult s

/-- MODE <- IDLE; the other registers keep their values (R251). -/
def closeSession (s : State) : Flow := .go (s.writeMode .idle)

def closeStages : List Stage := [⟨.responding, closeSession⟩]

/-- CLOSE (R251). -/
def execClose (s : State) : Host.Outcome State Fault Refusal := runCommand .close closeStages noResult s

/-- The stages of a command, for one that waited and goes on. -/
def stagesOf : Instr → List Stage
  | .nop => nopStages
  | .initEnc w => initEncStages w
  | .initDec w => initDecStages w
  | .enc symbol => encStages symbol
  | .dec => decStages
  | .fin => finStages
  | .close => closeStages

/-- RESULT of a command that responds OK (30_encoding.md R119). -/
def resultOf : Instr → State → Word
  | .nop => noResult
  | .initEnc _ => noResult
  | .initDec _ => noResult
  | .enc _ => noResult
  | .dec => decodedIndex
  | .fin => noResult
  | .close => noResult

/-- A command whose UPDATE or search queries the table (20_memory.md R81). -/
def queriesTable : Instr → Bool
  | .nop => false
  | .initEnc _ => false
  | .initDec _ => false
  | .enc _ => true
  | .dec => true
  | .fin => false
  | .close => false

/-- The running command goes on: a partner completes the transfer it waited at (70_reset_and_hazards.md R321). -/
def resumeCommand (s : State) : Host.Outcome State Fault Refusal :=
  match s.current with
  | none => .next s
  | some i => settle (resultOf i) (resumeStages (stagesOf i) s)

end Sys2Proof.Machine
end

