-- ==== Sys2Proof/Machine/Dispatch.lean ====
section
/-! DEFINITION. What each command does, one arm a constructor. -/

namespace Sys2Proof.Machine

def exec (i : Instr) (s : State) : Host.Outcome State Fault Refusal :=
  match i with
  | .nop => Sys2Proof.Machine.execNop s
  | .initEnc w => Sys2Proof.Machine.execInitEnc w s
  | .initDec w => Sys2Proof.Machine.execInitDec w s
  | .enc symbol => Sys2Proof.Machine.execEnc symbol s
  | .dec => Sys2Proof.Machine.execDec s
  | .fin => Sys2Proof.Machine.execFin s
  | .close => Sys2Proof.Machine.execClose s

end Sys2Proof.Machine
end

