-- ==== Sys2Proof/Machine/Observe.lean ====
section
/-! DEFINITION. The observation port (10_state.md R49 to R51). -/

namespace Sys2Proof.Machine

/-- The layout of CFG (R50): reserved [63:16], WIDTH [15:8], LAST_STATUS [7:4], BUSY [3], MODE [2:0]. -/
def cfgWord (width : BitVec 8) (lastStatus : BitVec 4) (busy : Bool) (mode : BitVec 3) : Word :=
  (0 : BitVec 48) ++ width ++ lastStatus ++ BitVec.ofBool busy ++ mode

/-- OBS_DATA while BUSY = 0: every entry is the register's value exactly (R49, R50, R51). -/
def observeIdle (r : Regs) (index : BitVec 3) : Word :=
  match index.toNat with
  | 0 => cfgWord r.width r.lastStatus.bits r.busy r.mode.bits
  | 1 => r.low.zeroExtend 64
  | 2 => r.high.zeroExtend 64
  | 3 => r.code.zeroExtend 64
  | 4 => BitVec.ofNat 64 r.pending
  | _ => 0

/-- OBS_DATA while BUSY = 1: BUSY is 1 and the rest of CFG but its reserved bits is free; LOW, HIGH, CODE and PENDING
are free; the reserved entries read 0 (R51; log 8). -/
def observeBusy (draw : Nat) (index : BitVec 3) : Word :=
  let free := Config.freeWord draw
  match index.toNat with
  | 0 => cfgWord (free.extractLsb' 8 8) (free.extractLsb' 4 4) true (free.extractLsb' 0 3)
  | 1 => free
  | 2 => free
  | 3 => free
  | 4 => free
  | _ => 0

/-- OBS_DATA for an index (R49). -/
def State.observe (s : State) (index : BitVec 3) : Word :=
  if s.regs.busy then observeBusy s.draws index else observeIdle s.regs index

end Sys2Proof.Machine
end

