-- ==== Sys2Proof/Machine/Agents.lean ====
section
/-! DEFINITION. The moves of the agents outside the core (10_state.md R30): the host, the reset input, and what
connects the partners. -/

namespace Sys2Proof.Machine

/-- The core runs the command of a completed transfer: it decodes the two words, whatever the mode (30_encoding.md
R118), and an illegal encoding comes first of all checks (43_session_control.md R254). -/
def runTransfer (c : Command) (s : State) : Host.Outcome State Fault Refusal :=
  match decode c.cmd c.arg with
  | .ok i => exec i s
  | .error _ => .next (illegalCommand s)

/-- The command transfer itself: the host's command leaves its list and every observer sees it (10_state.md R53). -/
def acceptTransfer (c : Command) (rest : List Command) (s : State) : State :=
  (s.withCommands rest).log (.command c)

/-- The host presents its next command; if the core is not ready the host waits with it (R53, R315). -/
def presentCommand (s : State) : Host.Outcome State Fault Refusal :=
  match s.commands with
  | [] => .next s
  | c :: rest => if s.ready then runTransfer c (acceptTransfer c rest s) else .next s

/-- The host takes the response, if one is presented; then BUSY becomes 0 (R43, R54). -/
def takeResponse (s : State) : State :=
  match s.response with
  | none => s
  | some r =>
    ((s.withRegs { s.regs with busy := false }).withResponse none).log (.response r.status.bits r.result)

/-- The host reads the observation port: no side effect on the core (R49); a busy read draws a free value (R51). -/
def readObservation (index : BitVec 3) (s : State) : State :=
  (s.log (.observe index (s.observe index))).withDraws (s.draws + 1)

/-- The reset input is asserted, or released. Asserting it abandons a running command without a response, withdraws
nothing that was moved, and gives every register its reset value (70_reset_and_hazards.md R310, R311). -/
def driveReset (asserted : Bool) (s : State) : State :=
  if asserted then
    { s with
      regs := Regs.reset
      hidden := Hidden.undefined s.draws
      current := none
      response := none
      resetAsserted := true
      draws := s.draws + 9 }
  else s.withResetLine false

/-- A command that queries the table is running, at a transfer its partner has not completed. -/
def State.queryingNow (s : State) : Bool :=
  match s.current with
  | none => false
  | some i => queriesTable i

/-- The table agent answers from another table. Between commands the host may change it freely; a change while a
command that queries it runs is UNDEFINED_TABLE (70_reset_and_hazards.md R316; log 7). -/
def changeTable (t : Table) (s : State) : State :=
  if s.queryingNow && decide (t ≠ s.table) then (s.withTable t).forget else s.withTable t

/-- One move of an agent outside the core, and what the core does upon it. -/
def takeTurn (t : Turn) (s : State) : Host.Outcome State Fault Refusal :=
  match t with
  | .present => presentCommand s
  | .take => .next (takeResponse s)
  | .observe index => .next (readObservation index s)
  | .reset asserted => .next (driveReset asserted s)
  | .table table => .next (changeTable table s)
  | .partners limit => resumeCommand (s.withLimit limit)
  | .source items => .next (s.withSource items)
  | .sink held => .next (s.withSink held)

/-- The fair host (70_reset_and_hazards.md R321), when the schedule names no move: it takes a response if one is
presented, and otherwise presents its next command (log 4). -/
def fairTurn (s : State) : Turn :=
  match s.response with
  | none => .present
  | some _ => .take

/-- The move that comes next. -/
def State.nextTurn (s : State) : Turn :=
  match s.schedule with
  | [] => fairTurn s
  | t :: _ => t

/-- The state as the next move finds it: the schedule is one move shorter. -/
def State.afterTurn (s : State) : State := s.withSchedule s.schedule.tail

/-- The host presents a command to a core of which nothing is claimed: whether the core accepts it is free
(20_memory.md R83; log 5). -/
def presentUnclaimed (s : State) : State :=
  if (Config.freeNat s.draws).testBit 0 then (s.withCommands s.commands.tail).withDraws (s.draws + 1)
  else s.withDraws (s.draws + 1)

/-- One move once UNDEFINED_TABLE is recorded: what the host and the partners do outside the core takes effect, and the
core runs nothing that the model computes, so that no port event and no bit is claimed (R83). Which part of the state
is still definite then, the host's and the partners' own, is the model's choice (log 5). -/
def unclaimedTurn (t : Turn) (s : State) : State :=
  match t with
  | .present => presentUnclaimed s
  | .take => s
  | .observe _ => s
  | .reset asserted => s.withResetLine asserted
  | .table table => s.withTable table
  | .partners limit => s.withLimit limit
  | .source items => s.withSource items
  | .sink held => s.withSink held

end Sys2Proof.Machine
end

