-- ==== Sys2Proof/Machine/Step.lean ====
section
/-! DEFINITION. One step of the machine: one move of an agent and what the core does upon it. -/

namespace Sys2Proof.Machine

/-- One step. A command runs in the step in which the host's transfer completes, to its response or to a transfer a
partner does not complete (10_state.md R44; log 2). Once UNDEFINED_TABLE is recorded, every later state is one of
which nothing is claimed (20_memory.md R83; log 5). -/
def step (s : State) : Host.Outcome State Fault Refusal :=
  if s.undefinedTable then .next (unclaimedTurn s.nextTurn s.afterTurn).forget
  else takeTurn s.nextTurn s.afterTurn

/-- The machine with the host about to present the instruction whose bits are `w`, numbered as the opcode table
numbers them, to a core that is ready for it: the next step runs it (log 4). -/
def State.withFetchWord (s : State) (nbits w : Nat) : State :=
  { s with
    commands := ⟨tableCmd nbits w, tableArg nbits w⟩ :: s.commands
    schedule := .present :: s.schedule
    regs := { s.regs with busy := false }
    current := none
    response := none
    resetAsserted := false
    undefinedTable := false }

end Sys2Proof.Machine
end

