-- ==== Sys2Proof/Safety.lean ====
section
/-! DEFINITION. What the claims speak of: the invariant of the machine, how far a command runs, what a command may
touch, and whole coding sessions. -/

namespace Sys2Proof.Machine

/-! ## The invariant -/

/-- A session is open and not aborted (10_state.md R38, R41). -/
def Mode.isOpen : Mode → Bool
  | .idle => false
  | .enc => true
  | .encFin => true
  | .dec => true
  | .aborted => false

/-- The registers hold values their session width allows (00_scope.md R10, 10_state.md R32, R39): WIDTH is at most 63
and at least 1 but in IDLE, LOW, HIGH and CODE are at most mask, PENDING is at most PENDING_MAX. -/
def regsFit (b : Build) (r : Regs) : Bool :=
  r.width.toNat ≤ widthMax && (r.mode == .idle || 1 ≤ r.width.toNat)
    && r.low.toNat ≤ mask r.width.toNat && r.high.toNat ≤ mask r.width.toNat && r.code.toNat ≤ mask r.width.toNat
    && r.pending ≤ b.pendingMax

/-- What the registers of an open session hold between commands (10_state.md R38, R40, R60). -/
def sessionOk (s : State) : Bool :=
  !s.regs.mode.isOpen
    || (intervalOk s.w s.interval
        && (if s.regs.mode = .dec then codeOk s.interval s.code && s.regs.pending == 0 else s.code == 0))

/-- The ports: BUSY is 1 from acceptance to the taking of the response (10_state.md R43), a response carries
LAST_STATUS (43_session_control.md R255), and under reset the core holds the reset values and no port event stands
(70_reset_and_hazards.md R310). -/
def portsOk (s : State) : Bool :=
  s.regs.busy == (s.current.isSome || s.response.isSome)
    && !(s.current.isSome && s.response.isSome)
    && (match s.response with
        | none => true
        | some r => r.status == s.regs.lastStatus)
    && (!s.resetAsserted || (s.regs == Regs.reset && !s.current.isSome && !s.response.isSome))

/-- The table is conforming, `symbol` is in it, and its total is one the argument checks accept (R143). -/
def tableAccepted (s : State) : Bool :=
  s.table.conforming && !totalTooLarge s.build s.w s.table.total.toNat && s.table.total.toNat != 0

/-- CODE lies in the sub-interval UPDATE(symbol) is about to select (42_decoder.md R217). -/
def codeInSymbol (s : State) (symbol : Word) : Bool :=
  codeOk s.interval s.code && tableAccepted s
    && codeContained s.interval.range s.table.total.toNat (s.table.low symbol).toNat (s.table.high symbol).toNat
        (codeOffset s.interval s.code)

/-- The state at a transfer that UPDATE(symbol) waits at, by its phase. -/
def updateWaits (symbol : Word) (s : State) : Bool :=
  s.table.conforming && s.table.hasSymbol symbol.toNat
    && (match s.hidden.phase with
        | .queryTotal => intervalOk s.w s.interval && (s.regs.mode != .dec || codeInSymbol s symbol)
        | .queryLow =>
          intervalOk s.w s.interval && (s.regs.mode != .dec || codeInSymbol s symbol)
            && s.hidden.total == s.table.total
        | .queryHigh =>
          intervalOk s.w s.interval && (s.regs.mode != .dec || codeInSymbol s symbol)
            && s.hidden.total == s.table.total && s.hidden.low == s.table.low symbol
        | .renorm =>
          decide (s.interval.low ≤ s.interval.high) && renormDue s.w s.interval
            && (s.regs.mode != .dec || codeOk s.interval s.code)
        | .pendingEmission =>
          decide (s.interval.low ≤ s.interval.high) && renormDue s.w s.interval && s.regs.mode == .enc
            && decide (1 ≤ s.hidden.pendingLeft) && decide (s.hidden.pendingLeft ≤ s.regs.pending)
        | .underflow =>
          decide (s.interval.low ≤ s.interval.high) && !renormDue s.w s.interval && underflowDue s.w s.interval
            && s.regs.mode == .dec && codeOk s.interval s.code
        | _ => false)

/-- The latched T, offset and value of DEC are what R213 and R214 make them. -/
def inverseLatched (s : State) : Bool :=
  tableAccepted s && s.hidden.total == s.table.total
    && s.hidden.offset == codeOffset s.interval s.code
    && s.hidden.value == inverseValue s.hidden.offset s.hidden.total.toNat s.interval.range

/-- The search has found the symbol whose cumulative range contains value (R215). -/
def symbolFound (s : State) : Bool :=
  s.table.hasSymbol s.hidden.symbol
    && decide ((s.table.low (decodedIndex s)).toNat ≤ s.hidden.value)
    && decide (s.hidden.value < (s.table.high (decodedIndex s)).toNat)

/-- The state at a transfer that DEC waits at before its UPDATE, by its phase. -/
def decWaits (s : State) : Bool :=
  s.table.conforming && intervalOk s.w s.interval && codeOk s.interval s.code
    && (match s.hidden.phase with
        | .decTotal => true
        | .searchLimit => inverseLatched s
        | .search =>
          inverseLatched s && searchGoesOn s.hidden.start s.hidden.stop
            && decide (s.hidden.stop ≤ s.table.symbolLimit.toNat)
            && decide ((s.table.low (BitVec.ofNat 64 s.hidden.start)).toNat ≤ s.hidden.value)
            && (s.hidden.stop == s.table.symbolLimit.toNat
                || decide (s.hidden.value < (s.table.low (BitVec.ofNat 64 s.hidden.stop)).toNat))
        | .containLow => inverseLatched s && symbolFound s
        | .containHigh =>
          inverseLatched s && symbolFound s && s.hidden.low == s.table.low (decodedIndex s)
        | _ => false)

/-- The state at a transfer the command `i` waits at. NOP, INIT.ENC and CLOSE make no port event and never wait. -/
def waitsOk (i : Instr) (s : State) : Bool :=
  match i with
  | .nop => false
  | .initEnc _ => false
  | .initDec w =>
    s.hidden.phase == .initialRead && legalWidth w && s.w == w && s.interval == ⟨0, mask w⟩ && s.regs.pending == 0
      && decide (s.hidden.initBits < w) && decide (s.code < 2 ^ s.hidden.initBits)
  | .enc symbol => s.regs.mode == .enc && s.code == 0 && updateWaits (symbolIndex symbol) s
  | .dec => s.regs.mode == .dec && s.regs.pending == 0 && (decWaits s || updateWaits (decodedIndex s) s)
  | .fin => s.hidden.phase == .finalBit && s.regs.mode == .enc && sessionOk s
  | .close => false

/-- Between commands the session is as it should be; while a command waits its own condition holds. -/
def progressOk (s : State) : Bool :=
  match s.current with
  | none => sessionOk s
  | some i => waitsOk i s

/-- The invariant of the machine: UNDEFINED_TABLE is recorded and nothing is claimed (60_exceptions.md R285), or the
registers fit, the ports agree with BUSY, and the session or the waiting command is as it should be. -/
def invariantHolds (s : State) : Bool :=
  s.undefinedTable || (regsFit s.build s.regs && portsOk s && progressOk s)

/-! ## How far a command runs -/

/-- `k` steps lead from `i` to `j`, each due, and none is due at `j`. -/
def RunsTo (due : Interval → Bool) (shift : Interval → Interval) (i : Interval) (k : Nat) (j : Interval) : Prop :=
  j = shift^[k] i ∧ (∀ m, m < k → due (shift^[m] i) = true) ∧ due j = false

/-- The E1/E2 loop takes `k` steps from `i` to `j` (40_coder_state_machine.md R146, R147). -/
def RenormRuns (w : Nat) : Interval → Nat → Interval → Prop := RunsTo (renormDue w) (Interval.renormShift w)

/-- The E3 loop takes `k` steps from `i` to `j` (R149, R150). -/
def UnderflowRuns (w : Nat) : Interval → Nat → Interval → Prop :=
  RunsTo (underflowDue w) (Interval.underflowShift w)

/-- The binary search from the bounds `start` and `stop` asks `low` at these midpoints, in this order, and ends at
`found`: each midpoint is floor((start + end) / 2) and becomes the upper bound if its `low` is above value, and the
lower one if not (42_decoder.md R215). -/
inductive SearchRuns (t : Table) (value : Nat) : Nat → Nat → List Nat → Nat → Prop where
  | done {start : Nat} : SearchRuns t value start (start + 1) [] start
  | lowerHalf {start stop found : Nat} {mids : List Nat} (more : start + 1 < stop)
      (above : value < (t.low (BitVec.ofNat 64 ((start + stop) / 2))).toNat)
      (rest : SearchRuns t value start ((start + stop) / 2) mids found) :
      SearchRuns t value start stop ((start + stop) / 2 :: mids) found
  | upperHalf {start stop found : Nat} {mids : List Nat} (more : start + 1 < stop)
      (below : (t.low (BitVec.ofNat 64 ((start + stop) / 2))).toNat ≤ value)
      (rest : SearchRuns t value ((start + stop) / 2) stop mids found) :
      SearchRuns t value start stop ((start + stop) / 2 :: mids) found

/-- The bits `k` encoder E1/E2 steps emit from `i` with `p` pending bits (41_encoder.md R182). -/
def emittedBits (w : Nat) : Nat → Interval → Nat → List Bit
  | 0, _, _ => []
  | k + 1, i, p =>
    topBit w i.low :: (List.replicate p (!topBit w i.low) ++ emittedBits w k (i.renormShift w) 0)

/-- The next `n` bits as the decoder reads them: EOS is 0 (42_decoder.md R227). -/
def bitsRead (n : Nat) (items : List Bit) : List Bit := (List.range n).map fun k => (items[k]?).getD false

/-- The answers of the source to the next `n` requests, as {E, D} (20_memory.md R86, 30_encoding.md R122). -/
def itemsRead (n : Nat) (items : List Bit) : List (BitVec 2) :=
  (List.range n).map fun k =>
    match items[k]? with
    | some b => (SourceItem.bit b).bits
    | none => SourceItem.eos.bits

/-- CODE after `k1` E1/E2 steps and then E3 steps, one bit each (42_decoder.md R221, R222). -/
def codeAfter (w k1 : Nat) (code : Nat) (bits : List Bit) : Nat :=
  (bits.drop k1).foldl (codeUnderflow w) ((bits.take k1).foldl (codeShift w) code)

/-- The table queries among port events: KIND and INDEX. -/
def queriesIn (es : List PortEvent) : List (BitVec 2 × Word) :=
  es.filterMap fun e =>
    match e with
    | .query kind index _ => some (kind, index)
    | _ => none

/-- The bits handed to the sink among port events. -/
def bitsOutIn (es : List PortEvent) : List Bit :=
  es.filterMap fun e =>
    match e with
    | .bitOut b => some b
    | _ => none

/-- The items the source answered among port events. -/
def itemsIn (es : List PortEvent) : List (BitVec 2) :=
  es.filterMap fun e =>
    match e with
    | .bitIn item => some item
    | _ => none

/-! ## What a command may touch -/

/-- What no command touches: the build, the reset input, the partners' and the host's own data, the record. -/
structure SameSurroundings (s t : State) : Prop where
  build : t.build = s.build
  resetAsserted : t.resetAsserted = s.resetAsserted
  table : t.table = s.table
  commands : t.commands = s.commands
  schedule : t.schedule = s.schedule
  undefinedTable : t.undefinedTable = s.undefinedTable

/-- No port event happened: no query, no bit, no item. -/
structure NoPortEvent (s t : State) : Prop where
  source : t.source = s.source
  sink : t.sink = s.sink
  partnerLimit : t.partnerLimit = s.partnerLimit
  trace : t.trace = s.trace

/-- The command has responded with this status and result, and BUSY is 1 until the response is taken (10_state.md R43,
R54; 43_session_control.md R255). -/
structure Responded (status : Status) (result : Word) (t : State) : Prop where
  response : t.response = some ⟨status, result⟩
  lastStatus : t.regs.lastStatus = status
  busy : t.regs.busy = true
  current : t.current = none

/-- The command is running at a transfer its partner has not completed (70_reset_and_hazards.md R321). -/
structure Waiting (i : Instr) (t : State) : Prop where
  current : t.current = some i
  response : t.response = none
  busy : t.regs.busy = true

/-- The registers of `s` as they stand in a command that has changed none of them: BUSY and LAST_STATUS apart. -/
def Regs.during (r : Regs) (lastStatus : Status) : Regs := { r with busy := true, lastStatus := lastStatus }

/-! ## Sessions -/

/-- A command that responds, and the taking of its response; an error gives the status. -/
def respondsOk (i : Instr) (s : State) : Except Status (Word × State) :=
  match exec i s with
  | .next t =>
    match t.response with
    | some ⟨.ok, result⟩ => .ok (result, takeResponse t)
    | some ⟨e, _⟩ => .error e
    | none => .error .ok
  | .fault _ => .error .ok
  | .refused _ => .error .ok

/-- One ENC for each table and symbol of the message, then FIN (70_reset_and_hazards.md R313). -/
def encodeSymbols : List (Table × Nat) → State → Except Status State
  | [], s => (respondsOk .fin s).map Prod.snd
  | (t, symbol) :: rest, s => (respondsOk (.enc symbol) (s.withTable t)).bind fun r => encodeSymbols rest r.2

/-- INIT.ENC w, the symbols, FIN, into an empty sink; the bits the session wrote. -/
def encodeSession (w : Nat) (message : List (Table × Nat)) (s : State) : Except Status (List Bit) :=
  (respondsOk (.initEnc w) (s.withSink [])).bind fun r => (encodeSymbols message r.2).map State.sink

/-- One DEC for each table; the symbols decoded. -/
def decodeSymbols : List Table → State → Except Status (List Nat)
  | [], _ => .ok []
  | t :: rest, s =>
    (respondsOk .dec (s.withTable t)).bind fun r => (decodeSymbols rest r.2).map (r.1.toNat :: ·)

/-- INIT.DEC w from these items, then one DEC for each table. -/
def decodeSession (w : Nat) (tables : List Table) (items : List Bit) (s : State) : Except Status (List Nat) :=
  (respondsOk (.initDec w) (s.withSource items)).bind fun r => decodeSymbols tables r.2

/-- A symbol that can be coded at width `w`: its table conforms, its total is at most maxTotal, its frequency is not
0 (42_decoder.md R226). -/
def codable (b : Build) (w : Nat) (t : Table) (symbol : Nat) : Bool :=
  t.conforming && t.hasSymbol symbol && !totalTooLarge b w t.total.toNat
    && (t.low (symbolIndex symbol)) != (t.high (symbolIndex symbol))

end Sys2Proof.Machine
end

