-- ==== Sys2Proof/Certificates/Slice0/Obligations.lean ====
section
/-! DEFINITION. The statements about the model, each with the rule of the spec it formalises. "Recorded" is
UNDEFINED_TABLE recorded (60_exceptions.md R285), under which nothing is claimed. -/

open Sys2Proof Sys2Proof.Machine

/-! ## Encoding -/

/-- Words written out from the field layout of 30_encoding.md R111 to R113 decode to the commands they stand for. -/
def Obligations.SampleWordsDecode : Prop :=
  decode 0b00000000000000000000000000000000 7 = .ok .nop
    ∧ decode 0b00000000000000000010000000000001 0 = .ok (.initEnc 32)
    ∧ decode 0b00000000000000000011111100000010 0 = .ok (.initDec 63)
    ∧ decode 0b00000000000000000000000000000011 2 = .ok (.enc 2)
    ∧ decode 0b00000000000000000000000000000100 5 = .ok .dec
    ∧ decode 0b00000000000000000000000000000101 0 = .ok .fin
    ∧ decode 0b00000000000000000000000000000110 0 = .ok .close
    ∧ decode 0b00000000000000000000000000000111 0 = .error .reservedOpcode
    ∧ decode 0b00000000000000000000000000010011 0 = .error .reservedBits

/-- Decoding the two words of a well-formed command gives the command back, whatever its operand
(30_encoding.md R111 to R115, R118). -/
def Obligations.EncodedCommandDecodesToItself : Prop :=
  ∀ i : Instr, i.wellFormed = true → decode (encode i).1 (encode i).2 = .ok i

/-- Words that decode are the words of the command they decode to, ARG apart where the command ignores it, and the
command is well formed (30_encoding.md R111 to R116). -/
def Obligations.DecodedWordsAreTheEncoding : Prop :=
  ∀ (cmd : CmdWord) (arg : Word) (i : Instr), decode cmd arg = .ok i →
    i.wellFormed = true ∧ (encode i).1 = cmd ∧ ∀ symbol, i = .enc symbol → (encode i).2 = arg

/-- The decoder is total and does what the pseudocode of 30_encoding.md R118 says, on the number CMD. -/
def Obligations.DecoderFollowsItsPseudocode : Prop :=
  ∀ (cmd : CmdWord) (arg : Word),
    let n := cmd.toNat
    let op := n % 16
    ((op = 1 ∨ op = 2) → (n / 16 % 16 ≠ 0 ∨ n / 65536 ≠ 0) → decode cmd arg = .error .reservedBits)
    ∧ (op = 1 → n / 16 % 16 = 0 → n / 65536 = 0 → decode cmd arg = .ok (.initEnc (n / 256 % 256)))
    ∧ (op = 2 → n / 16 % 16 = 0 → n / 65536 = 0 → decode cmd arg = .ok (.initDec (n / 256 % 256)))
    ∧ ((op = 0 ∨ op = 3 ∨ op = 4 ∨ op = 5 ∨ op = 6) → n / 16 ≠ 0 → decode cmd arg = .error .reservedBits)
    ∧ (n = 0 → decode cmd arg = .ok .nop)
    ∧ (n = 3 → decode cmd arg = .ok (.enc arg.toNat))
    ∧ (n = 4 → decode cmd arg = .ok .dec)
    ∧ (n = 5 → decode cmd arg = .ok .fin)
    ∧ (n = 6 → decode cmd arg = .ok .close)
    ∧ (7 ≤ op → decode cmd arg = .error .reservedOpcode)

/-- The codes that cross the ports: MODE (10_state.md R41), STATUS (30_encoding.md R120), KIND and INDEX (R121),
{E, D} = {0, bit} for a bit and E = 1 for EOS, D ignored then (R122; E the upper bit is the model's reading, log
15). -/
def Obligations.PortCodesAreAsTabled : Prop :=
  [Mode.idle, .enc, .encFin, .dec, .aborted].map (fun m => m.bits.toNat) = [0, 1, 2, 3, 4]
    ∧ [Status.ok, .domainError, .totalTooLarge, .zeroFrequency, .internalFault, .underflowOverflow, .illegalCommand,
        .sequenceError, .sessionAborted].map (fun e => e.bits.toNat) = [0, 1, 2, 3, 4, 5, 6, 7, 8]
    ∧ (∀ s : Word, [Query.total, .low s, .high s, .limit].map (fun q => (q.kind, q.index))
        = [(0, 0), (1, s), (2, s), (3, 0)])
    ∧ (∀ d : Bit, (SourceItem.bit d).bits = BitVec.ofBool false ++ BitVec.ofBool d)
    ∧ (∃ d : Bit, SourceItem.eos.bits = BitVec.ofBool true ++ BitVec.ofBool d) ∧ SourceItem.eos.bits.getLsbD 1 = true
    ∧ (∀ d : Bit, SourceItem.ofBits (BitVec.ofBool false ++ BitVec.ofBool d) = .bit d)
    ∧ (∀ d : Bit, SourceItem.ofBits (BitVec.ofBool true ++ BitVec.ofBool d) = .eos)

/-! ## Derived constants -/

/-- The constants of a width W: powers of two, minRange = quarterRange + 2 >= 2, and the closed form of maxTotal
(10_state.md R33 to R36). -/
def Obligations.DerivedConstantsHaveClosedForms : Prop :=
  ∀ (b : Build) (w : Nat), legalWidth w = true →
    fullRange w = 2 ^ w ∧ halfRange w = 2 ^ (w - 1) ∧ quarterRange w = (if w = 1 then 0 else 2 ^ (w - 2))
      ∧ halfRange w = fullRange w / 2 ∧ quarterRange w = halfRange w >>> 1
      ∧ minRange w = (fullRange w >>> 2) + 2 ∧ minRange w = quarterRange w + 2 ∧ 2 ≤ minRange w
      ∧ mask w = fullRange w - 1 ∧ mask w >>> 1 = 2 ^ (w - 1) - 1
      ∧ maxTotal b w = min ((2 ^ b.maxIntBits - 1) / fullRange w) (minRange w)
      ∧ (w ≤ (b.maxIntBits + 1) / 2 → maxTotal b w = minRange w)
      ∧ ((b.maxIntBits + 1) / 2 < w → maxTotal b w = 2 ^ (b.maxIntBits - w) - 1)
      ∧ (b.maxIntBits = 64 → (w ≤ 32 → maxTotal b w = minRange w)
          ∧ (33 ≤ w → maxTotal b w = 2 ^ (64 - w) - 1))

/-! ## Reset -/

/-- The machine right after reset: every register at its reset value, ready for a command (10_state.md R59,
70_reset_and_hazards.md R310). -/
def Obligations.ResetStateHoldsResetValues : Prop :=
  State.reset.regs.mode = .idle ∧ State.reset.regs.width = 0 ∧ State.reset.regs.low = 0 ∧ State.reset.regs.high = 0
    ∧ State.reset.regs.pending = 0 ∧ State.reset.regs.code = 0 ∧ State.reset.regs.lastStatus = .ok
    ∧ State.reset.regs.busy = false ∧ State.reset.ready = true

/-- Asserting the reset input, at any time and whatever runs: no response, every register at its reset value, and
nothing that was moved is withdrawn (70_reset_and_hazards.md R311). -/
def Obligations.AssertedResetAbandonsTheCommand : Prop :=
  ∀ s : State, s.undefinedTable = false → s.nextTurn = .reset true →
    ∃ t, step s = .next t ∧ t.regs = Regs.reset ∧ t.current = none ∧ t.response = none ∧ t.resetAsserted = true
      ∧ t.sink = s.sink ∧ t.source = s.source ∧ t.trace = s.trace ∧ t.table = s.table ∧ t.commands = s.commands
      ∧ t.undefinedTable = false

/-- Reset can be asserted at any time. While it is asserted the core accepts no command, makes no port transfer (a read
of the observation port is none) and holds the reset values; when it is released the core is IDLE with BUSY = 0 and
ready (70_reset_and_hazards.md R310). -/
def Obligations.AssertedResetHoldsTheCore : Prop :=
  (∀ s : State, s.undefinedTable = false → s.nextTurn = .reset true →
      ∃ t, step s = .next t ∧ t.resetAsserted = true ∧ t.regs = Regs.reset)
    ∧ ∀ s : State, invariantHolds s = true → s.undefinedTable = false → s.resetAsserted = true →
        ∃ t, step s = .next t ∧ t.regs = Regs.reset ∧ t.response = none ∧ t.current = none ∧ t.commands = s.commands
          ∧ (t.trace = s.trace ∨ ∃ index data, t.trace = s.trace ++ [.observe index data])
          ∧ (t.sink = s.sink ∨ ∃ held, s.nextTurn = .sink held ∧ t.sink = held)
          ∧ (t.source = s.source ∨ ∃ items, s.nextTurn = .source items ∧ t.source = items)
          ∧ (t.resetAsserted = true ∨ s.nextTurn = .reset false)
          ∧ (t.resetAsserted = false → t.regs.mode = .idle ∧ t.regs.busy = false ∧ t.ready = true)

/-! ## The agents and the step -/

/-- The step in which the host's transfer completes runs the command its two words decode to, on the state the
transfer leaves: the command gone from the host's list and seen by every observer (10_state.md R53). -/
def Obligations.StepRunsDecodedCommand : Prop :=
  ∀ (s : State) (c : Command) (rest : List Command) (i : Instr),
    s.undefinedTable = false → s.nextTurn = .present → s.commands = c :: rest → s.ready = true →
    decode c.cmd c.arg = .ok i →
    step s = exec i { s with schedule := s.schedule.tail, commands := rest, trace := s.trace ++ [.command c] }

/-- The step after `withFetchWord` runs the instruction whose bits it was given, with the registers, the table and the
streams as they were but for BUSY (the host's interface; log 4). -/
def Obligations.FetchWordIsWhatTheNextStepRuns : Prop :=
  ∀ (s : State) (nbits w : Nat) (i : Instr), decodeTableWord nbits w = some i →
    ∃ u, step (s.withFetchWord nbits w) = exec i u ∧ u.regs = { s.regs with busy := false } ∧ u.table = s.table
      ∧ u.source = s.source ∧ u.sink = s.sink ∧ u.partnerLimit = s.partnerLimit ∧ u.build = s.build
      ∧ u.schedule = s.schedule ∧ u.commands = s.commands

/-- Reserved encodings respond ILLEGAL_COMMAND in every mode, and leave every register but LAST_STATUS unchanged
(60_exceptions.md R276; BUSY is 1 until the response is taken, 10_state.md R43). -/
def Obligations.IllegalWordsRespondIllegalCommand : Prop :=
  ∀ (s : State) (c : Command) (rest : List Command) (e : DecodeReject),
    s.undefinedTable = false → s.nextTurn = .present → s.commands = c :: rest → s.ready = true →
    decode c.cmd c.arg = .error e →
    ∃ t, step s = .next t ∧ Responded .illegalCommand 0 t ∧ t.regs = s.regs.during .illegalCommand
      ∧ t.source = s.source ∧ t.sink = s.sink ∧ t.partnerLimit = s.partnerLimit ∧ t.trace = s.trace ++ [.command c]
      ∧ t.build = s.build ∧ t.resetAsserted = s.resetAsserted ∧ t.table = s.table ∧ t.undefinedTable = false

/-- A command transfer completes exactly when the core is ready, BUSY = 0 and reset not asserted; then BUSY becomes 1
and the command starts; if not, the host waits with it (10_state.md R53). -/
def Obligations.CommandTransferNeedsReadyCore : Prop :=
  (∀ s : State, s.ready = true ↔ s.regs.busy = false ∧ s.resetAsserted = false)
    ∧ (∀ s : State, s.undefinedTable = false → s.nextTurn = .present → s.ready = false →
        step s = .next { s with schedule := s.schedule.tail })
    ∧ (∀ (s t : State) (c : Command) (rest : List Command), s.undefinedTable = false → s.nextTurn = .present →
        s.commands = c :: rest → s.ready = true → step s = .next t →
        t.commands = rest ∧ s.trace ++ [.command c] <+: t.trace
          ∧ (t.undefinedTable = false → t.regs.busy = true ∧ (t.current.isSome = true ∨ t.response.isSome = true)))

/-- The host takes the response: BUSY becomes 0, every observer sees STATUS and RESULT, and no other register changes
(10_state.md R43, R54). -/
def Obligations.TakingTheResponseClearsBusy : Prop :=
  ∀ (s : State) (r : Response), s.undefinedTable = false → s.nextTurn = .take → s.response = some r →
    step s = .next { s with
      schedule := s.schedule.tail
      regs := { s.regs with busy := false }
      response := none
      trace := s.trace ++ [.response r.status.bits r.result] }

/-- A read of the observation port while BUSY = 0 returns the register's value exactly, by its index, and changes
nothing of the core (10_state.md R49, R50). -/
def Obligations.IdleObservationReadsRegisters : Prop :=
  ∀ (s : State) (index : BitVec 3), s.undefinedTable = false → s.nextTurn = .observe index → s.regs.busy = false →
    ∃ (t : State) (data : Word), step s = .next t ∧ t.trace = s.trace ++ [.observe index data]
      ∧ (index = 0 → data.toNat = s.regs.mode.bits.toNat + 16 * s.regs.lastStatus.bits.toNat
          + 256 * s.regs.width.toNat)
      ∧ (index = 1 → data.toNat = s.regs.low.toNat)
      ∧ (index = 2 → data.toNat = s.regs.high.toNat)
      ∧ (index = 3 → data.toNat = s.regs.code.toNat)
      ∧ (index = 4 → data.toNat = s.regs.pending % 2 ^ 64)
      ∧ (5 ≤ index.toNat → data = 0)
      ∧ t.regs = s.regs ∧ t.hidden = s.hidden ∧ t.current = s.current ∧ t.response = s.response
      ∧ t.source = s.source ∧ t.sink = s.sink ∧ t.partnerLimit = s.partnerLimit ∧ SameSurroundings s.afterTurn t

/-- A read while BUSY = 1 returns CFG with BUSY = 1 and its reserved bits 0; the reserved indices read 0; of the other
values nothing is said (10_state.md R51). The read changes nothing of the core, its hidden state included, and nothing
around it (R49). That the reserved bits of CFG and the reserved indices read 0 while busy is the model's reading (log
8). -/
def Obligations.BusyObservationMarksBusyChangesNothing : Prop :=
  ∀ (s : State) (index : BitVec 3), s.undefinedTable = false → s.nextTurn = .observe index → s.regs.busy = true →
    ∃ (t : State) (data : Word), step s = .next t ∧ t.trace = s.trace ++ [.observe index data]
      ∧ (index = 0 → data.getLsbD 3 = true ∧ data.toNat < 2 ^ 16)
      ∧ (5 ≤ index.toNat → data = 0)
      ∧ t.regs = s.regs ∧ t.hidden = s.hidden ∧ t.current = s.current ∧ t.response = s.response
      ∧ t.source = s.source ∧ t.sink = s.sink ∧ t.partnerLimit = s.partnerLimit ∧ SameSurroundings s.afterTurn t

/-- Between commands the host may change the table freely, and while a command waits that never queries it; giving the
same table changes nothing; a change while an ENC or a DEC runs is UNDEFINED_TABLE (70_reset_and_hazards.md R316). That
any change to another table counts there, whatever was queried and whatever will be, is the model's reading (log
7). -/
def Obligations.TableChangesBetweenCommandsOnly : Prop :=
  ∀ (s : State) (table : Table), s.undefinedTable = false → s.nextTurn = .table table →
    (s.current = none → step s = .next { s with schedule := s.schedule.tail, table := table })
    ∧ (∀ i, s.current = some i → (∀ symbol, i ≠ .enc symbol) → i ≠ .dec →
        step s = .next { s with schedule := s.schedule.tail, table := table })
    ∧ (table = s.table → step s = .next { s with schedule := s.schedule.tail })
    ∧ (∀ i, s.current = some i → (i = .dec ∨ ∃ symbol, i = .enc symbol) → table ≠ s.table →
        ∃ t, step s = .next t ∧ t.undefinedTable = true)

/-- UNDEFINED_TABLE, once recorded, is never cleared by a later command or by reset (60_exceptions.md R285). That the
machine goes on after it, and never stops, is the model's choice (log 5). -/
def Obligations.RecordedUndefinedTableStays : Prop :=
  ∀ s : State, s.undefinedTable = true → ∃ t, step s = .next t ∧ t.undefinedTable = true

/-- The build parameters are parameters of the step, not state: no step writes them (10_state.md R30, 00_scope.md R7,
R8). That they stand in the model's state is its choice (log 11). -/
def Obligations.NoStepWritesTheBuild : Prop :=
  ∀ s t : State, step s = .next t → t.build = s.build

/-- Port events only ever follow those already made: none is withdrawn or reordered (20_memory.md R92,
70_reset_and_hazards.md R311). That this holds of the steps in which UNDEFINED_TABLE is or gets recorded too, where the
trace so far is kept and a marker follows it, is the model's choice (log 5). -/
def Obligations.PortEventsOnlyAccumulate : Prop :=
  ∀ s t : State, step s = .next t → s.trace <+: t.trace

/-! ## The invariant -/

/-- The reset state meets the invariant of the machine. -/
def Obligations.ResetStateMeetsInvariant : Prop :=
  invariantHolds State.reset = true

/-- Every step keeps the invariant: the interval invariant and decoder synchrony between commands, the registers within
their session width, BUSY in step with the ports, and at a transfer a command waits at what its phase needs
(00_scope.md R10; 10_state.md R32, R38 to R43, R60; 40_coder_state_machine.md R153; 42_decoder.md R223). -/
def Obligations.EveryStepKeepsInvariant : Prop :=
  ∀ s t : State, invariantHolds s = true → step s = .next t → invariantHolds t = true

/-- From a state that meets the invariant the machine never stops: no fault, no refusal (60_exceptions.md R270: every
error is a response; 40_coder_state_machine.md R148, R151, 42_decoder.md R215: every loop ends). States in which
UNDEFINED_TABLE is recorded meet the invariant; that the machine goes on there is the model's choice (log 5). -/
def Obligations.GoodStatesNeverStop : Prop :=
  ∀ s : State, invariantHolds s = true → ∃ t, step s = .next t

/-! ## Session commands -/

/-- NOP, CMD = 0x00000000 whatever ARG, responds OK in every mode and writes LAST_STATUS only
(43_session_control.md R250). -/
def Obligations.NopRespondsAndChangesNothing : Prop :=
  (∀ arg : Word, decode 0x00000000#32 arg = .ok .nop)
    ∧ ∀ s : State, ∃ t, exec .nop s = .next t ∧ Responded .ok 0 t ∧ t.regs = s.regs.during .ok
        ∧ SameSurroundings s t ∧ NoPortEvent s t

/-- CLOSE, CMD = 0x00000006 whatever ARG, responds OK in every mode and writes MODE to IDLE; the other registers keep
their values and no bit moves (43_session_control.md R251). -/
def Obligations.CloseEndsTheSession : Prop :=
  (∀ arg : Word, decode 0x00000006#32 arg = .ok .close)
    ∧ ∀ s : State, ∃ t, exec .close s = .next t ∧ Responded .ok 0 t
        ∧ t.regs = { s.regs.during .ok with mode := .idle } ∧ SameSurroundings s t ∧ NoPortEvent s t

/-- INIT.ENC w, CMD = 0x0000_ww01 whatever ARG, in every mode: with 1 <= w <= 63 a session that starts from w alone,
else DOMAIN_ERROR with MODE = IDLE and no other register written; no port event (41_encoder.md R180). -/
def Obligations.InitEncOpensASession : Prop :=
  (∀ (w : Nat) (arg : Word), w < 256 → decode (BitVec.ofNat 32 (w * 2 ^ 8 + 1)) arg = .ok (.initEnc w))
    ∧ ∀ (w : Nat) (s : State), ∃ t, exec (.initEnc w) s = .next t ∧ SameSurroundings s t ∧ NoPortEvent s t
        ∧ (1 ≤ w ∧ w ≤ 63 → Responded .ok 0 t ∧ t.regs.mode = .enc ∧ t.regs.width.toNat = w ∧ t.regs.low.toNat = 0
            ∧ t.regs.high.toNat = 2 ^ w - 1 ∧ t.regs.pending = 0 ∧ t.regs.code.toNat = 0)
        ∧ (¬ (1 ≤ w ∧ w ≤ 63) → Responded .domainError 0 t
            ∧ t.regs = { s.regs.during .domainError with mode := .idle })

/-- INIT.DEC w, CMD = 0x0000_ww02 whatever ARG. With 1 <= w <= 63, when the source completes its transfers: exactly w
items are read and nothing else crosses a port, and the k-th bit read is CODE[w-1-k], EOS read as 0; else DOMAIN_ERROR,
no bit read and only MODE (to IDLE) and LAST_STATUS written (42_decoder.md R210, R227). -/
def Obligations.InitDecFillsCode : Prop :=
  (∀ (w : Nat) (arg : Word), w < 256 → decode (BitVec.ofNat 32 (w * 2 ^ 8 + 2)) arg = .ok (.initDec w))
    ∧ (∀ (w : Nat) (s : State), 1 ≤ w → w ≤ 63 → s.partnerLimit = none →
        ∃ t, exec (.initDec w) s = .next t ∧ Responded .ok 0 t ∧ SameSurroundings s t
          ∧ t.regs.mode = .dec ∧ t.regs.width.toNat = w ∧ t.regs.low.toNat = 0 ∧ t.regs.high.toNat = 2 ^ w - 1
          ∧ t.regs.pending = 0 ∧ t.regs.code.toNat < 2 ^ w
          ∧ (∀ k, k < w → t.regs.code.toNat.testBit (w - 1 - k) = (s.source[k]?).getD false)
          ∧ t.source = s.source.drop w ∧ t.sink = s.sink ∧ t.partnerLimit = none
          ∧ t.trace = s.trace ++ (itemsRead w s.source).map .bitIn)
    ∧ ∀ (w : Nat) (s : State), w = 0 ∨ 64 ≤ w →
        ∃ t, exec (.initDec w) s = .next t ∧ Responded .domainError 0 t ∧ SameSurroundings s t ∧ NoPortEvent s t
          ∧ t.regs = { s.regs.during .domainError with mode := .idle }

/-- An INIT whose width is 0 or 64 to 255: DOMAIN_ERROR, MODE = IDLE, every other register unchanged, no port event;
an ENC, DEC or FIN after it responds SEQUENCE_ERROR and MODE stays IDLE (60_exceptions.md R271). -/
def Obligations.IllegalWidthIsDomainError : Prop :=
  ∀ (w : Nat) (i : Instr) (s : State), w = 0 ∨ 64 ≤ w → i = .initEnc w ∨ i = .initDec w →
    ∃ t, exec i s = .next t ∧ Responded .domainError 0 t ∧ t.regs = { s.regs.during .domainError with mode := .idle }
      ∧ SameSurroundings s t ∧ NoPortEvent s t
      ∧ ∀ j, (∃ symbol, j = .enc symbol) ∨ j = .dec ∨ j = .fin →
          ∃ u, exec j (takeResponse t) = .next u ∧ Responded .sequenceError 0 u ∧ u.regs.mode = .idle

/-- FIN, CMD = 0x00000005 whatever ARG, in an encoder session: the one bit 1, MODE = ENC_FIN, and LOW, HIGH and PENDING
as they were; in ENC_FIN it raises SEQUENCE_ERROR (41_encoder.md R184). -/
def Obligations.FinEmitsOneBit : Prop :=
  (∀ arg : Word, decode 0x00000005#32 arg = .ok .fin)
    ∧ (∀ s : State, s.regs.mode = .enc → s.partnerLimit ≠ some 0 →
        ∃ t, exec .fin s = .next t ∧ Responded .ok 0 t ∧ t.regs = { s.regs.during .ok with mode := .encFin }
          ∧ t.sink = s.sink ++ [true] ∧ t.trace = s.trace ++ [.bitOut true] ∧ t.source = s.source
          ∧ SameSurroundings s t)
    ∧ ∀ s : State, s.regs.mode = .encFin →
        ∃ t, exec .fin s = .next t ∧ Responded .sequenceError 0 t ∧ t.regs = s.regs.during .sequenceError
          ∧ SameSurroundings s t ∧ NoPortEvent s t

/-! ## Mode legality -/

/-- ENC, DEC and FIN in a mode that does not let them run, other than ABORTED: SEQUENCE_ERROR, and nothing else
(60_exceptions.md R277, 43_session_control.md R252). -/
def Obligations.WrongModeIsSequenceError : Prop :=
  ∀ (i : Instr) (s : State), s.regs.mode ≠ .aborted →
    ((∃ symbol, i = .enc symbol) ∧ s.regs.mode ≠ .enc) ∨ (i = .dec ∧ s.regs.mode ≠ .dec)
      ∨ (i = .fin ∧ s.regs.mode ≠ .enc) →
    ∃ t, exec i s = .next t ∧ Responded .sequenceError 0 t ∧ t.regs = s.regs.during .sequenceError
      ∧ SameSurroundings s t ∧ NoPortEvent s t

/-- ENC, DEC and FIN in mode ABORTED: SESSION_ABORTED, and nothing else (60_exceptions.md R278). -/
def Obligations.AbortedSessionRefusesCoding : Prop :=
  ∀ (i : Instr) (s : State), s.regs.mode = .aborted → (∃ symbol, i = .enc symbol) ∨ i = .dec ∨ i = .fin →
    ∃ t, exec i s = .next t ∧ Responded .sessionAborted 0 t ∧ t.regs = s.regs.during .sessionAborted
      ∧ SameSurroundings s t ∧ NoPortEvent s t

/-- The only moves of MODE (10_state.md R41, 43_session_control.md R252, 60_exceptions.md R271, R280). -/
def Obligations.ModeMovesOnlyAsTabled : Prop :=
  ∀ (i : Instr) (s t : State), exec i s = .next t → t.undefinedTable = false →
    t.regs.mode = s.regs.mode
      ∨ (∃ w, i = .initEnc w ∧ t.regs.mode = if legalWidth w then .enc else .idle)
      ∨ (∃ w, i = .initDec w ∧ t.regs.mode = if legalWidth w then .dec else .idle)
      ∨ (i = .close ∧ t.regs.mode = .idle)
      ∨ (i = .fin ∧ s.regs.mode = .enc ∧ t.regs.mode = .encFin)
      ∨ ((∃ symbol, i = .enc symbol) ∧ s.regs.mode = .enc ∧ t.regs.mode = .aborted
          ∧ (t.regs.lastStatus = .internalFault ∨ t.regs.lastStatus = .underflowOverflow))
      ∨ (i = .dec ∧ s.regs.mode = .dec ∧ t.regs.mode = .aborted ∧ t.regs.lastStatus = .internalFault)

/-- ABORTED is left only by reset, by INIT.ENC, INIT.DEC and CLOSE (60_exceptions.md R280), an INIT.DEC that waited at
the source included. -/
def Obligations.AbortedIsLeftOnlyByInitCloseOrReset : Prop :=
  ∀ s t : State, invariantHolds s = true → step s = .next t → t.undefinedTable = false → s.regs.mode = .aborted →
    t.regs.mode = .aborted
      ∨ s.nextTurn = .reset true
      ∨ (∃ c rest i, s.nextTurn = .present ∧ s.commands = c :: rest ∧ decode c.cmd c.arg = .ok i
          ∧ ((∃ w, i = .initEnc w ∨ i = .initDec w) ∨ i = .close))
      ∨ (∃ w limit, s.current = some (.initDec w) ∧ s.nextTurn = .partners limit)

/-! ## How commands end, and what they leave alone -/

/-- Every command either gives its one response, which LAST_STATUS copies and whose RESULT is 0 but for a DEC that
responds OK, or waits at a transfer its partner has not completed, with BUSY = 1 and no error; each error comes from
the commands that raise it alone (30_encoding.md R119, R120, 43_session_control.md R255, 70_reset_and_hazards.md
R321). -/
def Obligations.CommandRespondsOnceOrWaits : Prop :=
  ∀ (i : Instr) (s t : State), s.response = none → exec i s = .next t → t.undefinedTable = false →
    (∃ status result, Responded status result t ∧ (status ≠ .ok ∨ i ≠ .dec → result = 0)
        ∧ (status = .domainError → ∃ w, i = .initEnc w ∨ i = .initDec w)
        ∧ (status = .totalTooLarge ∨ status = .zeroFrequency ∨ status = .internalFault →
            (∃ symbol, i = .enc symbol) ∨ i = .dec)
        ∧ (status = .underflowOverflow → ∃ symbol, i = .enc symbol)
        ∧ status ≠ .illegalCommand
        ∧ (status = .sequenceError ∨ status = .sessionAborted → (∃ symbol, i = .enc symbol) ∨ i = .dec ∨ i = .fin))
      ∨ (Waiting i t ∧ t.partnerLimit = some 0)

/-- What each command leaves alone, however it ends: its surroundings, the registers its rule does not write, the
streams it does not use. NOP and CLOSE write no coding register, FIN none, ENC neither WIDTH nor CODE, DEC neither
WIDTH nor PENDING; only ENC and FIN emit bits, only INIT.DEC and DEC read items, only ENC and DEC query; what was
moved stays moved (41_encoder.md R180 to R184, 42_decoder.md R210, R211, 43_session_control.md R250, R251). -/
def Obligations.CommandsLeaveTheRestAlone : Prop :=
  ∀ (i : Instr) (s t : State), exec i s = .next t → t.undefinedTable = false →
    SameSurroundings s t
      ∧ s.sink <+: t.sink ∧ t.source <:+ s.source ∧ s.trace <+: t.trace
      ∧ ((∀ w, i ≠ .initEnc w) → (∀ w, i ≠ .initDec w) → t.regs.width = s.regs.width)
      ∧ (i = .nop ∨ i = .close ∨ i = .fin →
          t.regs.low = s.regs.low ∧ t.regs.high = s.regs.high ∧ t.regs.pending = s.regs.pending
            ∧ t.regs.code = s.regs.code)
      ∧ ((∃ symbol, i = .enc symbol) → t.regs.code = s.regs.code)
      ∧ (i = .dec → t.regs.pending = s.regs.pending)
      ∧ ((∀ symbol, i ≠ .enc symbol) → i ≠ .fin → t.sink = s.sink)
      ∧ ((∀ w, i ≠ .initDec w) → i ≠ .dec → t.source = s.source)
      ∧ ((∀ symbol, i ≠ .enc symbol) → i ≠ .dec → queriesIn t.trace = queriesIn s.trace)
      ∧ (i = .nop ∨ i = .close ∨ (∃ w, i = .initEnc w) → NoPortEvent s t)

/-- The bounds on a command's port events (70_reset_and_hazards.md R320): the events that follow the trace so far. -/
def Obligations.PortEventsAreBounded : Prop :=
  ∀ (i : Instr) (s t : State), invariantHolds s = true → s.current = none → exec i s = .next t →
    t.undefinedTable = false → ∃ events, t.trace = s.trace ++ events
      ∧ (queriesIn events).length ≤
          (match i with
            | .enc _ => 3
            | .dec => 7 + Nat.clog 2 s.table.symbolLimit.toNat
            | _ => 0)
      ∧ (bitsOutIn events).length ≤
          (match i with
            | .enc _ => s.w + s.regs.pending
            | .fin => 1
            | _ => 0)
      ∧ (itemsIn events).length ≤
          (match i with
            | .initDec w => w
            | .dec => s.w
            | _ => 0)

/-- A command reads no hidden state before it has written it: whatever the hidden state at its acceptance, the outcome
is the same but for the hidden state (10_state.md R44, R59). -/
def Obligations.HiddenStateIsNeverReadFirst : Prop :=
  ∀ (i : Instr) (s : State) (h : Hidden),
    let visible := fun o : Host.Outcome State Fault Refusal =>
      match o with
      | .next t => Host.Outcome.next (t.withHidden Hidden.zero)
      | .fault r => .fault r
      | .refused r => .refused r
    visible (settle (resultOf i) (runStages (stagesOf i) ((accept (some i) s).withHidden h))) = visible (exec i s)

/-- A command that waited, and then finds every transfer completed, ends as it would have ended without the wait; one
that does not wait ends as if every transfer were completed: only the order and number of port events matter, never
their time (70_reset_and_hazards.md R320, R321). -/
def Obligations.WaitingChangesNothing : Prop :=
  ∀ (i : Instr) (s t : State) (n : Nat), invariantHolds s = true → s.undefinedTable = false → s.current = none →
    exec i (s.withLimit (some n)) = .next t →
    (t.current = some i → resumeCommand (t.withLimit none) = exec i (s.withLimit none))
      ∧ (t.current = none → exec i (s.withLimit none) = .next (t.withLimit none))

/-- A core that waits stays as it is, BUSY = 1 and no error, while its partner completes nothing, and gives its
response once every transfer is completed (70_reset_and_hazards.md R321). -/
def Obligations.WaitingCoreNeedsItsPartner : Prop :=
  ∀ (i : Instr) (s : State), invariantHolds s = true → s.undefinedTable = false → s.current = some i →
    (s.nextTurn = .partners (some 0) →
      ∃ t, step s = .next t ∧ Waiting i t ∧ t.regs = s.regs ∧ t.source = s.source ∧ t.sink = s.sink
        ∧ t.trace = s.trace ∧ SameSurroundings s.afterTurn t)
      ∧ (s.nextTurn = .partners none →
          ∃ t status result, step s = .next t ∧ Responded status result t ∧ SameSurroundings s.afterTurn t)

/-! ## ENC -/

/-- The symbol can be coded now: an open encoder session, its interval invariant, partners that complete their
transfers, a conforming table whose total is at most maxTotal, a symbol of non-zero frequency
(41_encoder.md R181, 40_coder_state_machine.md R141, R143). -/
def Obligations.EncodeRunsItsSteps : Prop :=
  ∀ (symbol : Nat) (s : State), s.regs.mode = .enc → s.w ≤ 63 → intervalOk s.w s.interval = true →
    s.partnerLimit = none → codable s.build s.w s.table symbol = true → s.regs.pending ≤ s.build.pendingMax →
    let T := s.table.total
    let L := s.table.low (symbolIndex symbol)
    let H := s.table.high (symbolIndex symbol)
    ∃ k1 j1 k3 j3,
      RenormRuns s.w (s.interval.narrow T.toNat L.toNat H.toNat) k1 j1 ∧ UnderflowRuns s.w j1 k3 j3 ∧ k1 + k3 ≤ s.w
      ∧ j3.low < halfRange s.w ∧ halfRange s.w ≤ j3.high ∧ intervalOk s.w j3 = true
      ∧ ((if k1 = 0 then s.regs.pending else 0) + k3 ≤ s.build.pendingMax →
          ∃ t, exec (.enc symbol) s = .next t ∧ Responded .ok 0 t ∧ SameSurroundings s t
            ∧ t.regs.mode = .enc ∧ t.interval = j3 ∧ t.regs.pending = (if k1 = 0 then s.regs.pending else 0) + k3
            ∧ t.regs.width = s.regs.width ∧ t.regs.code = s.regs.code ∧ t.source = s.source
            ∧ t.sink = s.sink ++ emittedBits s.w k1 (s.interval.narrow T.toNat L.toNat H.toNat) s.regs.pending
            ∧ t.trace = s.trace ++ [.query 0 0 T, .query 1 (symbolIndex symbol) L, .query 2 (symbolIndex symbol) H]
                ++ (emittedBits s.w k1 (s.interval.narrow T.toNat L.toNat H.toNat) s.regs.pending).map .bitOut)

/-- ENC of a symbol that can be coded, with room in PENDING for the at most W steps of one ENC, completes: it responds
OK in an open session whose interval invariant holds again (41_encoder.md R181, 40_coder_state_machine.md R151,
R153). -/
def Obligations.EncodeCompletes : Prop :=
  ∀ (symbol : Nat) (s : State), s.regs.mode = .enc → s.w ≤ 63 → intervalOk s.w s.interval = true →
    s.partnerLimit = none → codable s.build s.w s.table symbol = true → s.regs.pending + s.w ≤ s.build.pendingMax →
    ∃ t, exec (.enc symbol) s = .next t ∧ Responded .ok 0 t ∧ SameSurroundings s t ∧ t.regs.mode = .enc
      ∧ t.regs.width = s.regs.width ∧ t.regs.code = s.regs.code ∧ t.source = s.source ∧ s.sink <+: t.sink
      ∧ intervalOk s.w t.interval = true ∧ t.regs.pending ≤ s.regs.pending + s.w

/-- An ENC whose E3 step finds PENDING = PENDING_MAX responds UNDERFLOW_OVERFLOW: MODE = ABORTED, PENDING = PENDING_MAX,
LOW and HIGH as before the failing step, the bits of its E1/E2 steps emitted (60_exceptions.md R275). -/
def Obligations.EncodeOverflowAborts : Prop :=
  ∀ (symbol : Nat) (s : State), s.regs.mode = .enc → s.w ≤ 63 → intervalOk s.w s.interval = true →
    s.partnerLimit = none → codable s.build s.w s.table symbol = true → s.regs.pending ≤ s.build.pendingMax →
    ∀ k1 j1 k3 j3,
      RenormRuns s.w (s.interval.narrow s.table.total.toNat (s.table.low (symbolIndex symbol)).toNat
        (s.table.high (symbolIndex symbol)).toNat) k1 j1 →
      UnderflowRuns s.w j1 k3 j3 → s.build.pendingMax < (if k1 = 0 then s.regs.pending else 0) + k3 →
      ∃ t, exec (.enc symbol) s = .next t ∧ Responded .underflowOverflow 0 t ∧ SameSurroundings s t
        ∧ t.regs.mode = .aborted ∧ t.regs.pending = s.build.pendingMax
        ∧ t.interval = (Interval.underflowShift s.w)^[s.build.pendingMax - if k1 = 0 then s.regs.pending else 0] j1
        ∧ t.regs.width = s.regs.width ∧ t.regs.code = s.regs.code ∧ t.source = s.source
        ∧ t.sink = s.sink ++ emittedBits s.w k1 (s.interval.narrow s.table.total.toNat
            (s.table.low (symbolIndex symbol)).toNat (s.table.high (symbolIndex symbol)).toNat) s.regs.pending

/-- The bits of an ENC that takes k1 E1/E2 steps from the narrowed interval and then k3 E3 steps to the interval it
leaves: k1 + p bits and PENDING = k3 if it took an E1/E2 step, no bit and PENDING = p + k3 if not, and at most W steps
in all (41_encoder.md R185). -/
def Obligations.EncodeBitCount : Prop :=
  ∀ (symbol : Nat) (s t : State), s.regs.mode = .enc → s.w ≤ 63 → s.partnerLimit = none →
    s.regs.pending ≤ s.build.pendingMax →
    exec (.enc symbol) s = .next t → t.undefinedTable = false → t.regs.lastStatus = .ok →
    ∃ k1 j1 k3 bits,
      RenormRuns s.w (s.interval.narrow s.table.total.toNat (s.table.low (symbolIndex symbol)).toNat
        (s.table.high (symbolIndex symbol)).toNat) k1 j1
      ∧ UnderflowRuns s.w j1 k3 t.interval
      ∧ k1 + k3 ≤ s.w ∧ t.sink = s.sink ++ bits
      ∧ (k1 = 0 → bits = [] ∧ t.regs.pending = s.regs.pending + k3)
      ∧ (1 ≤ k1 → bits.length = k1 + s.regs.pending ∧ t.regs.pending = k3)

/-- The argument checks of UPDATE, in their order, in an ENC that reaches them: TOTAL_TOO_LARGE first, then
ZERO_FREQUENCY; all three queries are made first, no bit moves and no register but LAST_STATUS changes
(40_coder_state_machine.md R142, R143; 60_exceptions.md R272, R273). -/
def Obligations.EncodeRejectsBadArguments : Prop :=
  ∀ (symbol : Nat) (s : State) (e : Status), s.regs.mode = .enc → intervalOk s.w s.interval = true →
    s.partnerLimit = none → s.table.conforming = true → symbol < s.table.symbolLimit.toNat →
    let T := s.table.total
    let L := s.table.low (symbolIndex symbol)
    let H := s.table.high (symbolIndex symbol)
    (e = .totalTooLarge ∧ maxTotal s.build s.w < T.toNat)
      ∨ (e = .zeroFrequency ∧ T.toNat ≤ maxTotal s.build s.w ∧ (T.toNat = 0 ∨ L = H)) →
    ∃ t, exec (.enc symbol) s = .next t ∧ Responded e 0 t ∧ t.regs = s.regs.during e ∧ SameSurroundings s t
      ∧ t.source = s.source ∧ t.sink = s.sink
      ∧ t.trace = s.trace ++ [.query 0 0 T, .query 1 (symbolIndex symbol) L, .query 2 (symbolIndex symbol) H]

/-- ENC where the interval invariant fails, and DEC where it or decoder synchrony fails: INTERNAL_FAULT before any port
event, MODE = ABORTED, no other register changed (40_coder_state_machine.md R141, 42_decoder.md R212). -/
def Obligations.BrokenInvariantAborts : Prop :=
  ∀ (i : Instr) (s : State),
    ((∃ symbol, i = .enc symbol) ∧ s.regs.mode = .enc
        ∧ ¬ (s.regs.low.toNat < s.regs.high.toNat ∧ s.regs.low.toNat ≤ mask s.w ∧ s.regs.high.toNat ≤ mask s.w
            ∧ minRange s.w ≤ s.interval.range ∧ s.interval.range ≤ fullRange s.w))
      ∨ (i = .dec ∧ s.regs.mode = .dec
        ∧ ¬ (s.regs.low.toNat < s.regs.high.toNat ∧ s.regs.high.toNat ≤ mask s.w
            ∧ s.regs.low.toNat ≤ s.regs.code.toNat ∧ s.regs.code.toNat ≤ s.regs.high.toNat
            ∧ minRange s.w ≤ s.interval.range ∧ s.interval.range ≤ fullRange s.w)) →
    ∃ t, exec i s = .next t ∧ Responded .internalFault 0 t
      ∧ t.regs = { s.regs.during .internalFault with mode := .aborted } ∧ SameSurroundings s t ∧ NoPortEvent s t

/-! ## DEC -/

/-- DEC in an open decoder session, when its invariants hold, the partners complete their transfers and the table
conforms with a total from 1 to maxTotal: the search visits the midpoints of R215 one query each, and it decodes the symbol whose cumulative range holds value, UPDATE takes k1
E1/E2 and k3 E3 steps and reads as many items, and the synchrony invariant holds again (42_decoder.md R211 to R224). -/
def Obligations.DecodeFindsTheSymbol : Prop :=
  ∀ s : State, s.regs.mode = .dec → s.w ≤ 63 → intervalOk s.w s.interval = true → codeOk s.interval s.code = true →
    s.partnerLimit = none → s.table.conforming = true → s.table.total.toNat ≤ maxTotal s.build s.w →
    s.table.total.toNat ≠ 0 →
    let T := s.table.total
    let value := ((s.code - s.interval.low + 1) * T.toNat - 1) / s.interval.range
    ∃ (t : State) (symbol : Nat) (k1 k3 : Nat) (j1 j3 : Interval) (mids : List Nat),
      let L := s.table.low (symbolIndex symbol)
      let H := s.table.high (symbolIndex symbol)
      exec .dec s = .next t ∧ Responded .ok (BitVec.ofNat 64 symbol) t ∧ SameSurroundings s t
        ∧ value < T.toNat ∧ symbol < s.table.symbolLimit.toNat ∧ L.toNat ≤ value ∧ value < H.toNat
        ∧ RenormRuns s.w (s.interval.narrow T.toNat L.toNat H.toNat) k1 j1 ∧ UnderflowRuns s.w j1 k3 j3
        ∧ k1 + k3 ≤ s.w
        ∧ t.regs.mode = .dec ∧ t.regs.width = s.regs.width ∧ t.regs.pending = s.regs.pending
        ∧ t.interval = j3 ∧ t.code = codeAfter s.w k1 s.code (bitsRead (k1 + k3) s.source)
        ∧ intervalOk s.w j3 = true ∧ codeOk j3 t.code = true
        ∧ t.source = s.source.drop (k1 + k3) ∧ t.sink = s.sink
        ∧ SearchRuns s.table value 0 s.table.symbolLimit.toNat mids symbol
        ∧ (∀ mid ∈ mids, 1 ≤ mid ∧ mid < s.table.symbolLimit.toNat)
        ∧ t.trace = s.trace ++ [.query 0 0 T, .query 3 0 s.table.symbolLimit]
            ++ mids.map (fun mid => .query 1 (BitVec.ofNat 64 mid) (s.table.low (BitVec.ofNat 64 mid)))
            ++ [.query 1 (symbolIndex symbol) L, .query 2 (symbolIndex symbol) H, .query 0 0 T,
                .query 1 (symbolIndex symbol) L, .query 2 (symbolIndex symbol) H]
            ++ (itemsRead (k1 + k3) s.source).map .bitIn

/-- The total checks of DEC come before anything is computed from T and before any item is read: TOTAL_TOO_LARGE, else
ZERO_FREQUENCY for a total of 0; no register but LAST_STATUS changes (42_decoder.md R213). -/
def Obligations.DecodeRejectsBadTotals : Prop :=
  ∀ (s : State) (e : Status), s.regs.mode = .dec → intervalOk s.w s.interval = true → codeOk s.interval s.code = true →
    s.partnerLimit = none → s.table.conforming = true →
    (e = .totalTooLarge ∧ maxTotal s.build s.w < s.table.total.toNat)
      ∨ (e = .zeroFrequency ∧ s.table.total.toNat = 0) →
    ∃ t, exec .dec s = .next t ∧ Responded e 0 t ∧ t.regs = s.regs.during e ∧ SameSurroundings s t
      ∧ t.source = s.source ∧ t.sink = s.sink ∧ t.trace = s.trace ++ [.query 0 0 s.table.total]

/-! ## The table contract -/

/-- The check of the contract says what 20_memory.md R82 says of the answers of the table, for a table that gives an
answer for each symbol and no other (the model's form of a table, log 6). -/
def Obligations.ContractCheckMeansTheRule : Prop :=
  ∀ t : Table, t.rows.length = t.symbolLimit.toNat →
    (t.conforming = true ↔
      1 ≤ t.symbolLimit.toNat ∧ t.low 0 = 0
        ∧ t.high (BitVec.ofNat 64 (t.symbolLimit.toNat - 1)) = t.total
        ∧ (∀ n, n < t.symbolLimit.toNat → (t.low (BitVec.ofNat 64 n)).toNat ≤ (t.high (BitVec.ofNat 64 n)).toNat)
        ∧ (∀ n, n + 1 < t.symbolLimit.toNat → t.high (BitVec.ofNat 64 n) = t.low (BitVec.ofNat 64 (n + 1)))
        ∧ (∀ m n, m ≤ n → n < t.symbolLimit.toNat →
            (t.low (BitVec.ofNat 64 m)).toNat ≤ (t.low (BitVec.ofNat 64 n)).toNat
              ∧ (t.high (BitVec.ofNat 64 m)).toNat ≤ (t.high (BitVec.ofNat 64 n)).toNat))

/-- A command that reaches its first query on a table that breaks the contract, or an ENC there of a symbol outside the
alphabet, has the outcome UNDEFINED_TABLE; no other command has (20_memory.md R83, 60_exceptions.md R285; the point at
which it is judged is the model's, log 6). -/
def Obligations.BrokenContractIsRecorded : Prop :=
  (∀ (symbol : Nat) (s : State), s.regs.mode = .enc → intervalOk s.w s.interval = true → symbol < 2 ^ 64 →
      s.table.conforming = false ∨ s.table.symbolLimit.toNat ≤ symbol →
      ∃ t, exec (.enc symbol) s = .next t ∧ t.undefinedTable = true)
    ∧ (∀ s : State, s.regs.mode = .dec → intervalOk s.w s.interval = true → codeOk s.interval s.code = true →
        s.table.conforming = false → ∃ t, exec .dec s = .next t ∧ t.undefinedTable = true)
    ∧ (∀ (i : Instr) (s t : State), s.undefinedTable = false → s.table.conforming = true →
        (∀ symbol, i = .enc symbol → symbol < s.table.symbolLimit.toNat) → exec i s = .next t →
        t.undefinedTable = false)

/-- Narrowing is exact and stays inside, for the answers of a conforming table and an interval that passed the checks
(40_coder_state_machine.md R145): the products fit MAX_INT_BITS, the sub-interval is not empty and lies in the
interval. -/
def Obligations.NarrowingIsExactAndInside : Prop :=
  ∀ (b : Build) (w : Nat) (i : Interval) (T L H : Nat), intervalOk w i = true → T ≤ maxTotal b w → L < H → H ≤ T →
    let r := i.range
    let n := i.narrow T L H
    L * r ≤ T * fullRange w ∧ H * r ≤ T * fullRange w ∧ T * fullRange w ≤ maxTotal b w * fullRange w
      ∧ maxTotal b w * fullRange w ≤ b.maxIntValue
      ∧ n.range = H * r / T - L * r / T ∧ (H - L) * r / T ≤ H * r / T - L * r / T ∧ r / T ≤ (H - L) * r / T ∧ 1 ≤ r / T
      ∧ n.low ≤ n.high ∧ i.low ≤ n.low ∧ n.high ≤ i.low + r - 1 ∧ i.low + r - 1 = i.high ∧ i.high ≤ mask w
      ∧ 1 ≤ i.low + H * r / T

/-! ## Round trip -/

/-- The round trip (42_decoder.md R226): an encoder session of any width and any codable symbols, none of whose ENC
raised UNDERFLOW_OVERFLOW, has every command respond OK, and a decoder session of the same width that reads its output
and then EOS, under the same tables, returns the symbols in order, every command responding OK. The two sessions run on
machines of the same build, ready for a command, whose partners complete every transfer. -/
def Obligations.RoundTrip : Prop :=
  ∀ (w : Nat) (message : List (Table × Nat)) (e d : State), legalWidth w = true → d.build = e.build →
    e.partnerLimit = none → d.partnerLimit = none →
    (∀ m ∈ message, codable e.build w m.1 m.2 = true) →
    encodeSession w message e ≠ .error .underflowOverflow →
    ∃ bits, encodeSession w message e = .ok bits
      ∧ decodeSession w (message.map Prod.fst) bits d = .ok (message.map Prod.snd)
end

