-- ==== Sys2Proof/Laws/State.lean ====
section
/-! SUPPORT. One lemma per field per update of the state, each true by definition, and the views of the registers. -/

namespace Sys2Proof.Machine

variable (s : State)

/-! ## withRegs -/

@[simp] theorem State.withRegs_build (r : Regs) : (s.withRegs r).build = s.build := rfl
@[simp] theorem State.withRegs_regs (r : Regs) : (s.withRegs r).regs = r := rfl
@[simp] theorem State.withRegs_hidden (r : Regs) : (s.withRegs r).hidden = s.hidden := rfl
@[simp] theorem State.withRegs_current (r : Regs) : (s.withRegs r).current = s.current := rfl
@[simp] theorem State.withRegs_response (r : Regs) : (s.withRegs r).response = s.response := rfl
@[simp] theorem State.withRegs_resetAsserted (r : Regs) : (s.withRegs r).resetAsserted = s.resetAsserted := rfl
@[simp] theorem State.withRegs_table (r : Regs) : (s.withRegs r).table = s.table := rfl
@[simp] theorem State.withRegs_source (r : Regs) : (s.withRegs r).source = s.source := rfl
@[simp] theorem State.withRegs_sink (r : Regs) : (s.withRegs r).sink = s.sink := rfl
@[simp] theorem State.withRegs_partnerLimit (r : Regs) : (s.withRegs r).partnerLimit = s.partnerLimit := rfl
@[simp] theorem State.withRegs_commands (r : Regs) : (s.withRegs r).commands = s.commands := rfl
@[simp] theorem State.withRegs_schedule (r : Regs) : (s.withRegs r).schedule = s.schedule := rfl
@[simp] theorem State.withRegs_trace (r : Regs) : (s.withRegs r).trace = s.trace := rfl
@[simp] theorem State.withRegs_undefinedTable (r : Regs) : (s.withRegs r).undefinedTable = s.undefinedTable := rfl
@[simp] theorem State.withRegs_draws (r : Regs) : (s.withRegs r).draws = s.draws := rfl

/-! ## withHidden -/

@[simp] theorem State.withHidden_build (h : Hidden) : (s.withHidden h).build = s.build := rfl
@[simp] theorem State.withHidden_regs (h : Hidden) : (s.withHidden h).regs = s.regs := rfl
@[simp] theorem State.withHidden_hidden (h : Hidden) : (s.withHidden h).hidden = h := rfl
@[simp] theorem State.withHidden_current (h : Hidden) : (s.withHidden h).current = s.current := rfl
@[simp] theorem State.withHidden_response (h : Hidden) : (s.withHidden h).response = s.response := rfl
@[simp] theorem State.withHidden_resetAsserted (h : Hidden) : (s.withHidden h).resetAsserted = s.resetAsserted := rfl
@[simp] theorem State.withHidden_table (h : Hidden) : (s.withHidden h).table = s.table := rfl
@[simp] theorem State.withHidden_source (h : Hidden) : (s.withHidden h).source = s.source := rfl
@[simp] theorem State.withHidden_sink (h : Hidden) : (s.withHidden h).sink = s.sink := rfl
@[simp] theorem State.withHidden_partnerLimit (h : Hidden) : (s.withHidden h).partnerLimit = s.partnerLimit := rfl
@[simp] theorem State.withHidden_commands (h : Hidden) : (s.withHidden h).commands = s.commands := rfl
@[simp] theorem State.withHidden_schedule (h : Hidden) : (s.withHidden h).schedule = s.schedule := rfl
@[simp] theorem State.withHidden_trace (h : Hidden) : (s.withHidden h).trace = s.trace := rfl
@[simp] theorem State.withHidden_undefinedTable (h : Hidden) : (s.withHidden h).undefinedTable = s.undefinedTable := rfl
@[simp] theorem State.withHidden_draws (h : Hidden) : (s.withHidden h).draws = s.draws := rfl
@[simp] theorem State.withHidden_w (h : Hidden) : (s.withHidden h).w = s.w := rfl
@[simp] theorem State.withHidden_interval (h : Hidden) : (s.withHidden h).interval = s.interval := rfl
@[simp] theorem State.withHidden_code (h : Hidden) : (s.withHidden h).code = s.code := rfl

/-! ## withResponse -/

@[simp] theorem State.withResponse_build (r : Option Response) : (s.withResponse r).build = s.build := rfl
@[simp] theorem State.withResponse_regs (r : Option Response) : (s.withResponse r).regs = s.regs := rfl
@[simp] theorem State.withResponse_hidden (r : Option Response) : (s.withResponse r).hidden = s.hidden := rfl
@[simp] theorem State.withResponse_current (r : Option Response) : (s.withResponse r).current = s.current := rfl
@[simp] theorem State.withResponse_response (r : Option Response) : (s.withResponse r).response = r := rfl
@[simp] theorem State.withResponse_resetAsserted (r : Option Response) : (s.withResponse r).resetAsserted = s.resetAsserted := rfl
@[simp] theorem State.withResponse_table (r : Option Response) : (s.withResponse r).table = s.table := rfl
@[simp] theorem State.withResponse_source (r : Option Response) : (s.withResponse r).source = s.source := rfl
@[simp] theorem State.withResponse_sink (r : Option Response) : (s.withResponse r).sink = s.sink := rfl
@[simp] theorem State.withResponse_partnerLimit (r : Option Response) : (s.withResponse r).partnerLimit = s.partnerLimit := rfl
@[simp] theorem State.withResponse_commands (r : Option Response) : (s.withResponse r).commands = s.commands := rfl
@[simp] theorem State.withResponse_schedule (r : Option Response) : (s.withResponse r).schedule = s.schedule := rfl
@[simp] theorem State.withResponse_trace (r : Option Response) : (s.withResponse r).trace = s.trace := rfl
@[simp] theorem State.withResponse_undefinedTable (r : Option Response) : (s.withResponse r).undefinedTable = s.undefinedTable := rfl
@[simp] theorem State.withResponse_draws (r : Option Response) : (s.withResponse r).draws = s.draws := rfl
@[simp] theorem State.withResponse_w (r : Option Response) : (s.withResponse r).w = s.w := rfl
@[simp] theorem State.withResponse_interval (r : Option Response) : (s.withResponse r).interval = s.interval := rfl
@[simp] theorem State.withResponse_code (r : Option Response) : (s.withResponse r).code = s.code := rfl

/-! ## withResetLine -/

@[simp] theorem State.withResetLine_build (b : Bool) : (s.withResetLine b).build = s.build := rfl
@[simp] theorem State.withResetLine_regs (b : Bool) : (s.withResetLine b).regs = s.regs := rfl
@[simp] theorem State.withResetLine_hidden (b : Bool) : (s.withResetLine b).hidden = s.hidden := rfl
@[simp] theorem State.withResetLine_current (b : Bool) : (s.withResetLine b).current = s.current := rfl
@[simp] theorem State.withResetLine_response (b : Bool) : (s.withResetLine b).response = s.response := rfl
@[simp] theorem State.withResetLine_resetAsserted (b : Bool) : (s.withResetLine b).resetAsserted = b := rfl
@[simp] theorem State.withResetLine_table (b : Bool) : (s.withResetLine b).table = s.table := rfl
@[simp] theorem State.withResetLine_source (b : Bool) : (s.withResetLine b).source = s.source := rfl
@[simp] theorem State.withResetLine_sink (b : Bool) : (s.withResetLine b).sink = s.sink := rfl
@[simp] theorem State.withResetLine_partnerLimit (b : Bool) : (s.withResetLine b).partnerLimit = s.partnerLimit := rfl
@[simp] theorem State.withResetLine_commands (b : Bool) : (s.withResetLine b).commands = s.commands := rfl
@[simp] theorem State.withResetLine_schedule (b : Bool) : (s.withResetLine b).schedule = s.schedule := rfl
@[simp] theorem State.withResetLine_trace (b : Bool) : (s.withResetLine b).trace = s.trace := rfl
@[simp] theorem State.withResetLine_undefinedTable (b : Bool) : (s.withResetLine b).undefinedTable = s.undefinedTable := rfl
@[simp] theorem State.withResetLine_draws (b : Bool) : (s.withResetLine b).draws = s.draws := rfl
@[simp] theorem State.withResetLine_w (b : Bool) : (s.withResetLine b).w = s.w := rfl
@[simp] theorem State.withResetLine_interval (b : Bool) : (s.withResetLine b).interval = s.interval := rfl
@[simp] theorem State.withResetLine_code (b : Bool) : (s.withResetLine b).code = s.code := rfl

/-! ## withTable -/

@[simp] theorem State.withTable_build (t : Table) : (s.withTable t).build = s.build := rfl
@[simp] theorem State.withTable_regs (t : Table) : (s.withTable t).regs = s.regs := rfl
@[simp] theorem State.withTable_hidden (t : Table) : (s.withTable t).hidden = s.hidden := rfl
@[simp] theorem State.withTable_current (t : Table) : (s.withTable t).current = s.current := rfl
@[simp] theorem State.withTable_response (t : Table) : (s.withTable t).response = s.response := rfl
@[simp] theorem State.withTable_resetAsserted (t : Table) : (s.withTable t).resetAsserted = s.resetAsserted := rfl
@[simp] theorem State.withTable_table (t : Table) : (s.withTable t).table = t := rfl
@[simp] theorem State.withTable_source (t : Table) : (s.withTable t).source = s.source := rfl
@[simp] theorem State.withTable_sink (t : Table) : (s.withTable t).sink = s.sink := rfl
@[simp] theorem State.withTable_partnerLimit (t : Table) : (s.withTable t).partnerLimit = s.partnerLimit := rfl
@[simp] theorem State.withTable_commands (t : Table) : (s.withTable t).commands = s.commands := rfl
@[simp] theorem State.withTable_schedule (t : Table) : (s.withTable t).schedule = s.schedule := rfl
@[simp] theorem State.withTable_trace (t : Table) : (s.withTable t).trace = s.trace := rfl
@[simp] theorem State.withTable_undefinedTable (t : Table) : (s.withTable t).undefinedTable = s.undefinedTable := rfl
@[simp] theorem State.withTable_draws (t : Table) : (s.withTable t).draws = s.draws := rfl
@[simp] theorem State.withTable_w (t : Table) : (s.withTable t).w = s.w := rfl
@[simp] theorem State.withTable_interval (t : Table) : (s.withTable t).interval = s.interval := rfl
@[simp] theorem State.withTable_code (t : Table) : (s.withTable t).code = s.code := rfl

/-! ## withSource -/

@[simp] theorem State.withSource_build (l : List Bit) : (s.withSource l).build = s.build := rfl
@[simp] theorem State.withSource_regs (l : List Bit) : (s.withSource l).regs = s.regs := rfl
@[simp] theorem State.withSource_hidden (l : List Bit) : (s.withSource l).hidden = s.hidden := rfl
@[simp] theorem State.withSource_current (l : List Bit) : (s.withSource l).current = s.current := rfl
@[simp] theorem State.withSource_response (l : List Bit) : (s.withSource l).response = s.response := rfl
@[simp] theorem State.withSource_resetAsserted (l : List Bit) : (s.withSource l).resetAsserted = s.resetAsserted := rfl
@[simp] theorem State.withSource_table (l : List Bit) : (s.withSource l).table = s.table := rfl
@[simp] theorem State.withSource_source (l : List Bit) : (s.withSource l).source = l := rfl
@[simp] theorem State.withSource_sink (l : List Bit) : (s.withSource l).sink = s.sink := rfl
@[simp] theorem State.withSource_partnerLimit (l : List Bit) : (s.withSource l).partnerLimit = s.partnerLimit := rfl
@[simp] theorem State.withSource_commands (l : List Bit) : (s.withSource l).commands = s.commands := rfl
@[simp] theorem State.withSource_schedule (l : List Bit) : (s.withSource l).schedule = s.schedule := rfl
@[simp] theorem State.withSource_trace (l : List Bit) : (s.withSource l).trace = s.trace := rfl
@[simp] theorem State.withSource_undefinedTable (l : List Bit) : (s.withSource l).undefinedTable = s.undefinedTable := rfl
@[simp] theorem State.withSource_draws (l : List Bit) : (s.withSource l).draws = s.draws := rfl
@[simp] theorem State.withSource_w (l : List Bit) : (s.withSource l).w = s.w := rfl
@[simp] theorem State.withSource_interval (l : List Bit) : (s.withSource l).interval = s.interval := rfl
@[simp] theorem State.withSource_code (l : List Bit) : (s.withSource l).code = s.code := rfl

/-! ## withSink -/

@[simp] theorem State.withSink_build (l : List Bit) : (s.withSink l).build = s.build := rfl
@[simp] theorem State.withSink_regs (l : List Bit) : (s.withSink l).regs = s.regs := rfl
@[simp] theorem State.withSink_hidden (l : List Bit) : (s.withSink l).hidden = s.hidden := rfl
@[simp] theorem State.withSink_current (l : List Bit) : (s.withSink l).current = s.current := rfl
@[simp] theorem State.withSink_response (l : List Bit) : (s.withSink l).response = s.response := rfl
@[simp] theorem State.withSink_resetAsserted (l : List Bit) : (s.withSink l).resetAsserted = s.resetAsserted := rfl
@[simp] theorem State.withSink_table (l : List Bit) : (s.withSink l).table = s.table := rfl
@[simp] theorem State.withSink_source (l : List Bit) : (s.withSink l).source = s.source := rfl
@[simp] theorem State.withSink_sink (l : List Bit) : (s.withSink l).sink = l := rfl
@[simp] theorem State.withSink_partnerLimit (l : List Bit) : (s.withSink l).partnerLimit = s.partnerLimit := rfl
@[simp] theorem State.withSink_commands (l : List Bit) : (s.withSink l).commands = s.commands := rfl
@[simp] theorem State.withSink_schedule (l : List Bit) : (s.withSink l).schedule = s.schedule := rfl
@[simp] theorem State.withSink_trace (l : List Bit) : (s.withSink l).trace = s.trace := rfl
@[simp] theorem State.withSink_undefinedTable (l : List Bit) : (s.withSink l).undefinedTable = s.undefinedTable := rfl
@[simp] theorem State.withSink_draws (l : List Bit) : (s.withSink l).draws = s.draws := rfl
@[simp] theorem State.withSink_w (l : List Bit) : (s.withSink l).w = s.w := rfl
@[simp] theorem State.withSink_interval (l : List Bit) : (s.withSink l).interval = s.interval := rfl
@[simp] theorem State.withSink_code (l : List Bit) : (s.withSink l).code = s.code := rfl

/-! ## withLimit -/

@[simp] theorem State.withLimit_build (n : Option Nat) : (s.withLimit n).build = s.build := rfl
@[simp] theorem State.withLimit_regs (n : Option Nat) : (s.withLimit n).regs = s.regs := rfl
@[simp] theorem State.withLimit_hidden (n : Option Nat) : (s.withLimit n).hidden = s.hidden := rfl
@[simp] theorem State.withLimit_current (n : Option Nat) : (s.withLimit n).current = s.current := rfl
@[simp] theorem State.withLimit_response (n : Option Nat) : (s.withLimit n).response = s.response := rfl
@[simp] theorem State.withLimit_resetAsserted (n : Option Nat) : (s.withLimit n).resetAsserted = s.resetAsserted := rfl
@[simp] theorem State.withLimit_table (n : Option Nat) : (s.withLimit n).table = s.table := rfl
@[simp] theorem State.withLimit_source (n : Option Nat) : (s.withLimit n).source = s.source := rfl
@[simp] theorem State.withLimit_sink (n : Option Nat) : (s.withLimit n).sink = s.sink := rfl
@[simp] theorem State.withLimit_partnerLimit (n : Option Nat) : (s.withLimit n).partnerLimit = n := rfl
@[simp] theorem State.withLimit_commands (n : Option Nat) : (s.withLimit n).commands = s.commands := rfl
@[simp] theorem State.withLimit_schedule (n : Option Nat) : (s.withLimit n).schedule = s.schedule := rfl
@[simp] theorem State.withLimit_trace (n : Option Nat) : (s.withLimit n).trace = s.trace := rfl
@[simp] theorem State.withLimit_undefinedTable (n : Option Nat) : (s.withLimit n).undefinedTable = s.undefinedTable := rfl
@[simp] theorem State.withLimit_draws (n : Option Nat) : (s.withLimit n).draws = s.draws := rfl
@[simp] theorem State.withLimit_w (n : Option Nat) : (s.withLimit n).w = s.w := rfl
@[simp] theorem State.withLimit_interval (n : Option Nat) : (s.withLimit n).interval = s.interval := rfl
@[simp] theorem State.withLimit_code (n : Option Nat) : (s.withLimit n).code = s.code := rfl

/-! ## withCommands -/

@[simp] theorem State.withCommands_build (cs : List Command) : (s.withCommands cs).build = s.build := rfl
@[simp] theorem State.withCommands_regs (cs : List Command) : (s.withCommands cs).regs = s.regs := rfl
@[simp] theorem State.withCommands_hidden (cs : List Command) : (s.withCommands cs).hidden = s.hidden := rfl
@[simp] theorem State.withCommands_current (cs : List Command) : (s.withCommands cs).current = s.current := rfl
@[simp] theorem State.withCommands_response (cs : List Command) : (s.withCommands cs).response = s.response := rfl
@[simp] theorem State.withCommands_resetAsserted (cs : List Command) : (s.withCommands cs).resetAsserted = s.resetAsserted := rfl
@[simp] theorem State.withCommands_table (cs : List Command) : (s.withCommands cs).table = s.table := rfl
@[simp] theorem State.withCommands_source (cs : List Command) : (s.withCommands cs).source = s.source := rfl
@[simp] theorem State.withCommands_sink (cs : List Command) : (s.withCommands cs).sink = s.sink := rfl
@[simp] theorem State.withCommands_partnerLimit (cs : List Command) : (s.withCommands cs).partnerLimit = s.partnerLimit := rfl
@[simp] theorem State.withCommands_commands (cs : List Command) : (s.withCommands cs).commands = cs := rfl
@[simp] theorem State.withCommands_schedule (cs : List Command) : (s.withCommands cs).schedule = s.schedule := rfl
@[simp] theorem State.withCommands_trace (cs : List Command) : (s.withCommands cs).trace = s.trace := rfl
@[simp] theorem State.withCommands_undefinedTable (cs : List Command) : (s.withCommands cs).undefinedTable = s.undefinedTable := rfl
@[simp] theorem State.withCommands_draws (cs : List Command) : (s.withCommands cs).draws = s.draws := rfl
@[simp] theorem State.withCommands_w (cs : List Command) : (s.withCommands cs).w = s.w := rfl
@[simp] theorem State.withCommands_interval (cs : List Command) : (s.withCommands cs).interval = s.interval := rfl
@[simp] theorem State.withCommands_code (cs : List Command) : (s.withCommands cs).code = s.code := rfl

/-! ## withSchedule -/

@[simp] theorem State.withSchedule_build (ts : List Turn) : (s.withSchedule ts).build = s.build := rfl
@[simp] theorem State.withSchedule_regs (ts : List Turn) : (s.withSchedule ts).regs = s.regs := rfl
@[simp] theorem State.withSchedule_hidden (ts : List Turn) : (s.withSchedule ts).hidden = s.hidden := rfl
@[simp] theorem State.withSchedule_current (ts : List Turn) : (s.withSchedule ts).current = s.current := rfl
@[simp] theorem State.withSchedule_response (ts : List Turn) : (s.withSchedule ts).response = s.response := rfl
@[simp] theorem State.withSchedule_resetAsserted (ts : List Turn) : (s.withSchedule ts).resetAsserted = s.resetAsserted := rfl
@[simp] theorem State.withSchedule_table (ts : List Turn) : (s.withSchedule ts).table = s.table := rfl
@[simp] theorem State.withSchedule_source (ts : List Turn) : (s.withSchedule ts).source = s.source := rfl
@[simp] theorem State.withSchedule_sink (ts : List Turn) : (s.withSchedule ts).sink = s.sink := rfl
@[simp] theorem State.withSchedule_partnerLimit (ts : List Turn) : (s.withSchedule ts).partnerLimit = s.partnerLimit := rfl
@[simp] theorem State.withSchedule_commands (ts : List Turn) : (s.withSchedule ts).commands = s.commands := rfl
@[simp] theorem State.withSchedule_schedule (ts : List Turn) : (s.withSchedule ts).schedule = ts := rfl
@[simp] theorem State.withSchedule_trace (ts : List Turn) : (s.withSchedule ts).trace = s.trace := rfl
@[simp] theorem State.withSchedule_undefinedTable (ts : List Turn) : (s.withSchedule ts).undefinedTable = s.undefinedTable := rfl
@[simp] theorem State.withSchedule_draws (ts : List Turn) : (s.withSchedule ts).draws = s.draws := rfl
@[simp] theorem State.withSchedule_w (ts : List Turn) : (s.withSchedule ts).w = s.w := rfl
@[simp] theorem State.withSchedule_interval (ts : List Turn) : (s.withSchedule ts).interval = s.interval := rfl
@[simp] theorem State.withSchedule_code (ts : List Turn) : (s.withSchedule ts).code = s.code := rfl

/-! ## withDraws -/

@[simp] theorem State.withDraws_build (n : Nat) : (s.withDraws n).build = s.build := rfl
@[simp] theorem State.withDraws_regs (n : Nat) : (s.withDraws n).regs = s.regs := rfl
@[simp] theorem State.withDraws_hidden (n : Nat) : (s.withDraws n).hidden = s.hidden := rfl
@[simp] theorem State.withDraws_current (n : Nat) : (s.withDraws n).current = s.current := rfl
@[simp] theorem State.withDraws_response (n : Nat) : (s.withDraws n).response = s.response := rfl
@[simp] theorem State.withDraws_resetAsserted (n : Nat) : (s.withDraws n).resetAsserted = s.resetAsserted := rfl
@[simp] theorem State.withDraws_table (n : Nat) : (s.withDraws n).table = s.table := rfl
@[simp] theorem State.withDraws_source (n : Nat) : (s.withDraws n).source = s.source := rfl
@[simp] theorem State.withDraws_sink (n : Nat) : (s.withDraws n).sink = s.sink := rfl
@[simp] theorem State.withDraws_partnerLimit (n : Nat) : (s.withDraws n).partnerLimit = s.partnerLimit := rfl
@[simp] theorem State.withDraws_commands (n : Nat) : (s.withDraws n).commands = s.commands := rfl
@[simp] theorem State.withDraws_schedule (n : Nat) : (s.withDraws n).schedule = s.schedule := rfl
@[simp] theorem State.withDraws_trace (n : Nat) : (s.withDraws n).trace = s.trace := rfl
@[simp] theorem State.withDraws_undefinedTable (n : Nat) : (s.withDraws n).undefinedTable = s.undefinedTable := rfl
@[simp] theorem State.withDraws_draws (n : Nat) : (s.withDraws n).draws = n := rfl
@[simp] theorem State.withDraws_w (n : Nat) : (s.withDraws n).w = s.w := rfl
@[simp] theorem State.withDraws_interval (n : Nat) : (s.withDraws n).interval = s.interval := rfl
@[simp] theorem State.withDraws_code (n : Nat) : (s.withDraws n).code = s.code := rfl

/-! ## log -/

@[simp] theorem State.log_build (e : PortEvent) : (s.log e).build = s.build := rfl
@[simp] theorem State.log_regs (e : PortEvent) : (s.log e).regs = s.regs := rfl
@[simp] theorem State.log_hidden (e : PortEvent) : (s.log e).hidden = s.hidden := rfl
@[simp] theorem State.log_current (e : PortEvent) : (s.log e).current = s.current := rfl
@[simp] theorem State.log_response (e : PortEvent) : (s.log e).response = s.response := rfl
@[simp] theorem State.log_resetAsserted (e : PortEvent) : (s.log e).resetAsserted = s.resetAsserted := rfl
@[simp] theorem State.log_table (e : PortEvent) : (s.log e).table = s.table := rfl
@[simp] theorem State.log_source (e : PortEvent) : (s.log e).source = s.source := rfl
@[simp] theorem State.log_sink (e : PortEvent) : (s.log e).sink = s.sink := rfl
@[simp] theorem State.log_partnerLimit (e : PortEvent) : (s.log e).partnerLimit = s.partnerLimit := rfl
@[simp] theorem State.log_commands (e : PortEvent) : (s.log e).commands = s.commands := rfl
@[simp] theorem State.log_schedule (e : PortEvent) : (s.log e).schedule = s.schedule := rfl
@[simp] theorem State.log_trace (e : PortEvent) : (s.log e).trace = s.trace ++ [e] := rfl
@[simp] theorem State.log_undefinedTable (e : PortEvent) : (s.log e).undefinedTable = s.undefinedTable := rfl
@[simp] theorem State.log_draws (e : PortEvent) : (s.log e).draws = s.draws := rfl
@[simp] theorem State.log_w (e : PortEvent) : (s.log e).w = s.w := rfl
@[simp] theorem State.log_interval (e : PortEvent) : (s.log e).interval = s.interval := rfl
@[simp] theorem State.log_code (e : PortEvent) : (s.log e).code = s.code := rfl

/-! ## writeInterval -/

@[simp] theorem State.writeInterval_build (i : Interval) : (s.writeInterval i).build = s.build := rfl
@[simp] theorem State.writeInterval_regs (i : Interval) : (s.writeInterval i).regs = s.regs.withInterval i := rfl
@[simp] theorem State.writeInterval_hidden (i : Interval) : (s.writeInterval i).hidden = s.hidden := rfl
@[simp] theorem State.writeInterval_current (i : Interval) : (s.writeInterval i).current = s.current := rfl
@[simp] theorem State.writeInterval_response (i : Interval) : (s.writeInterval i).response = s.response := rfl
@[simp] theorem State.writeInterval_resetAsserted (i : Interval) : (s.writeInterval i).resetAsserted = s.resetAsserted := rfl
@[simp] theorem State.writeInterval_table (i : Interval) : (s.writeInterval i).table = s.table := rfl
@[simp] theorem State.writeInterval_source (i : Interval) : (s.writeInterval i).source = s.source := rfl
@[simp] theorem State.writeInterval_sink (i : Interval) : (s.writeInterval i).sink = s.sink := rfl
@[simp] theorem State.writeInterval_partnerLimit (i : Interval) : (s.writeInterval i).partnerLimit = s.partnerLimit := rfl
@[simp] theorem State.writeInterval_commands (i : Interval) : (s.writeInterval i).commands = s.commands := rfl
@[simp] theorem State.writeInterval_schedule (i : Interval) : (s.writeInterval i).schedule = s.schedule := rfl
@[simp] theorem State.writeInterval_trace (i : Interval) : (s.writeInterval i).trace = s.trace := rfl
@[simp] theorem State.writeInterval_undefinedTable (i : Interval) : (s.writeInterval i).undefinedTable = s.undefinedTable := rfl
@[simp] theorem State.writeInterval_draws (i : Interval) : (s.writeInterval i).draws = s.draws := rfl
@[simp] theorem State.writeInterval_w (i : Interval) : (s.writeInterval i).w = s.w := rfl
@[simp] theorem State.writeInterval_code (i : Interval) : (s.writeInterval i).code = s.code := rfl

/-! ## writeCode -/

@[simp] theorem State.writeCode_build (n : Nat) : (s.writeCode n).build = s.build := rfl
@[simp] theorem State.writeCode_regs (n : Nat) : (s.writeCode n).regs = { s.regs with code := BitVec.ofNat 63 n } := rfl
@[simp] theorem State.writeCode_hidden (n : Nat) : (s.writeCode n).hidden = s.hidden := rfl
@[simp] theorem State.writeCode_current (n : Nat) : (s.writeCode n).current = s.current := rfl
@[simp] theorem State.writeCode_response (n : Nat) : (s.writeCode n).response = s.response := rfl
@[simp] theorem State.writeCode_resetAsserted (n : Nat) : (s.writeCode n).resetAsserted = s.resetAsserted := rfl
@[simp] theorem State.writeCode_table (n : Nat) : (s.writeCode n).table = s.table := rfl
@[simp] theorem State.writeCode_source (n : Nat) : (s.writeCode n).source = s.source := rfl
@[simp] theorem State.writeCode_sink (n : Nat) : (s.writeCode n).sink = s.sink := rfl
@[simp] theorem State.writeCode_partnerLimit (n : Nat) : (s.writeCode n).partnerLimit = s.partnerLimit := rfl
@[simp] theorem State.writeCode_commands (n : Nat) : (s.writeCode n).commands = s.commands := rfl
@[simp] theorem State.writeCode_schedule (n : Nat) : (s.writeCode n).schedule = s.schedule := rfl
@[simp] theorem State.writeCode_trace (n : Nat) : (s.writeCode n).trace = s.trace := rfl
@[simp] theorem State.writeCode_undefinedTable (n : Nat) : (s.writeCode n).undefinedTable = s.undefinedTable := rfl
@[simp] theorem State.writeCode_draws (n : Nat) : (s.writeCode n).draws = s.draws := rfl
@[simp] theorem State.writeCode_w (n : Nat) : (s.writeCode n).w = s.w := rfl
@[simp] theorem State.writeCode_interval (n : Nat) : (s.writeCode n).interval = s.interval := rfl

/-! ## writePending -/

@[simp] theorem State.writePending_build (n : Nat) : (s.writePending n).build = s.build := rfl
@[simp] theorem State.writePending_regs (n : Nat) : (s.writePending n).regs = { s.regs with pending := n } := rfl
@[simp] theorem State.writePending_hidden (n : Nat) : (s.writePending n).hidden = s.hidden := rfl
@[simp] theorem State.writePending_current (n : Nat) : (s.writePending n).current = s.current := rfl
@[simp] theorem State.writePending_response (n : Nat) : (s.writePending n).response = s.response := rfl
@[simp] theorem State.writePending_resetAsserted (n : Nat) : (s.writePending n).resetAsserted = s.resetAsserted := rfl
@[simp] theorem State.writePending_table (n : Nat) : (s.writePending n).table = s.table := rfl
@[simp] theorem State.writePending_source (n : Nat) : (s.writePending n).source = s.source := rfl
@[simp] theorem State.writePending_sink (n : Nat) : (s.writePending n).sink = s.sink := rfl
@[simp] theorem State.writePending_partnerLimit (n : Nat) : (s.writePending n).partnerLimit = s.partnerLimit := rfl
@[simp] theorem State.writePending_commands (n : Nat) : (s.writePending n).commands = s.commands := rfl
@[simp] theorem State.writePending_schedule (n : Nat) : (s.writePending n).schedule = s.schedule := rfl
@[simp] theorem State.writePending_trace (n : Nat) : (s.writePending n).trace = s.trace := rfl
@[simp] theorem State.writePending_undefinedTable (n : Nat) : (s.writePending n).undefinedTable = s.undefinedTable := rfl
@[simp] theorem State.writePending_draws (n : Nat) : (s.writePending n).draws = s.draws := rfl
@[simp] theorem State.writePending_w (n : Nat) : (s.writePending n).w = s.w := rfl
@[simp] theorem State.writePending_interval (n : Nat) : (s.writePending n).interval = s.interval := rfl
@[simp] theorem State.writePending_code (n : Nat) : (s.writePending n).code = s.code := rfl

/-! ## writeMode -/

@[simp] theorem State.writeMode_build (m : Mode) : (s.writeMode m).build = s.build := rfl
@[simp] theorem State.writeMode_regs (m : Mode) : (s.writeMode m).regs = { s.regs with mode := m } := rfl
@[simp] theorem State.writeMode_hidden (m : Mode) : (s.writeMode m).hidden = s.hidden := rfl
@[simp] theorem State.writeMode_current (m : Mode) : (s.writeMode m).current = s.current := rfl
@[simp] theorem State.writeMode_response (m : Mode) : (s.writeMode m).response = s.response := rfl
@[simp] theorem State.writeMode_resetAsserted (m : Mode) : (s.writeMode m).resetAsserted = s.resetAsserted := rfl
@[simp] theorem State.writeMode_table (m : Mode) : (s.writeMode m).table = s.table := rfl
@[simp] theorem State.writeMode_source (m : Mode) : (s.writeMode m).source = s.source := rfl
@[simp] theorem State.writeMode_sink (m : Mode) : (s.writeMode m).sink = s.sink := rfl
@[simp] theorem State.writeMode_partnerLimit (m : Mode) : (s.writeMode m).partnerLimit = s.partnerLimit := rfl
@[simp] theorem State.writeMode_commands (m : Mode) : (s.writeMode m).commands = s.commands := rfl
@[simp] theorem State.writeMode_schedule (m : Mode) : (s.writeMode m).schedule = s.schedule := rfl
@[simp] theorem State.writeMode_trace (m : Mode) : (s.writeMode m).trace = s.trace := rfl
@[simp] theorem State.writeMode_undefinedTable (m : Mode) : (s.writeMode m).undefinedTable = s.undefinedTable := rfl
@[simp] theorem State.writeMode_draws (m : Mode) : (s.writeMode m).draws = s.draws := rfl
@[simp] theorem State.writeMode_w (m : Mode) : (s.writeMode m).w = s.w := rfl
@[simp] theorem State.writeMode_interval (m : Mode) : (s.writeMode m).interval = s.interval := rfl
@[simp] theorem State.writeMode_code (m : Mode) : (s.writeMode m).code = s.code := rfl

/-! ## enterPhase -/

@[simp] theorem State.enterPhase_build (p : Phase) : (s.enterPhase p).build = s.build := rfl
@[simp] theorem State.enterPhase_regs (p : Phase) : (s.enterPhase p).regs = s.regs := rfl
@[simp] theorem State.enterPhase_hidden (p : Phase) : (s.enterPhase p).hidden = { s.hidden with phase := p } := rfl
@[simp] theorem State.enterPhase_current (p : Phase) : (s.enterPhase p).current = s.current := rfl
@[simp] theorem State.enterPhase_response (p : Phase) : (s.enterPhase p).response = s.response := rfl
@[simp] theorem State.enterPhase_resetAsserted (p : Phase) : (s.enterPhase p).resetAsserted = s.resetAsserted := rfl
@[simp] theorem State.enterPhase_table (p : Phase) : (s.enterPhase p).table = s.table := rfl
@[simp] theorem State.enterPhase_source (p : Phase) : (s.enterPhase p).source = s.source := rfl
@[simp] theorem State.enterPhase_sink (p : Phase) : (s.enterPhase p).sink = s.sink := rfl
@[simp] theorem State.enterPhase_partnerLimit (p : Phase) : (s.enterPhase p).partnerLimit = s.partnerLimit := rfl
@[simp] theorem State.enterPhase_commands (p : Phase) : (s.enterPhase p).commands = s.commands := rfl
@[simp] theorem State.enterPhase_schedule (p : Phase) : (s.enterPhase p).schedule = s.schedule := rfl
@[simp] theorem State.enterPhase_trace (p : Phase) : (s.enterPhase p).trace = s.trace := rfl
@[simp] theorem State.enterPhase_undefinedTable (p : Phase) : (s.enterPhase p).undefinedTable = s.undefinedTable := rfl
@[simp] theorem State.enterPhase_draws (p : Phase) : (s.enterPhase p).draws = s.draws := rfl
@[simp] theorem State.enterPhase_w (p : Phase) : (s.enterPhase p).w = s.w := rfl
@[simp] theorem State.enterPhase_interval (p : Phase) : (s.enterPhase p).interval = s.interval := rfl
@[simp] theorem State.enterPhase_code (p : Phase) : (s.enterPhase p).code = s.code := rfl

/-! ## accept -/

@[simp] theorem accept_build (i : Option Instr) : (accept i s).build = s.build := rfl
@[simp] theorem accept_regs (i : Option Instr) : (accept i s).regs = { s.regs with busy := true } := rfl
@[simp] theorem accept_hidden (i : Option Instr) : (accept i s).hidden = Hidden.undefined s.draws := rfl
@[simp] theorem accept_current (i : Option Instr) : (accept i s).current = i := rfl
@[simp] theorem accept_response (i : Option Instr) : (accept i s).response = s.response := rfl
@[simp] theorem accept_resetAsserted (i : Option Instr) : (accept i s).resetAsserted = s.resetAsserted := rfl
@[simp] theorem accept_table (i : Option Instr) : (accept i s).table = s.table := rfl
@[simp] theorem accept_source (i : Option Instr) : (accept i s).source = s.source := rfl
@[simp] theorem accept_sink (i : Option Instr) : (accept i s).sink = s.sink := rfl
@[simp] theorem accept_partnerLimit (i : Option Instr) : (accept i s).partnerLimit = s.partnerLimit := rfl
@[simp] theorem accept_commands (i : Option Instr) : (accept i s).commands = s.commands := rfl
@[simp] theorem accept_schedule (i : Option Instr) : (accept i s).schedule = s.schedule := rfl
@[simp] theorem accept_trace (i : Option Instr) : (accept i s).trace = s.trace := rfl
@[simp] theorem accept_undefinedTable (i : Option Instr) : (accept i s).undefinedTable = s.undefinedTable := rfl
@[simp] theorem accept_draws (i : Option Instr) : (accept i s).draws = s.draws + 9 := rfl
@[simp] theorem accept_w (i : Option Instr) : (accept i s).w = s.w := rfl
@[simp] theorem accept_interval (i : Option Instr) : (accept i s).interval = s.interval := rfl
@[simp] theorem accept_code (i : Option Instr) : (accept i s).code = s.code := rfl

/-! ## respond -/

@[simp] theorem respond_build (e : Status) (r : Word) : (respond e r s).build = s.build := rfl
@[simp] theorem respond_regs (e : Status) (r : Word) : (respond e r s).regs = { s.regs with lastStatus := e } := rfl
@[simp] theorem respond_hidden (e : Status) (r : Word) : (respond e r s).hidden = { s.hidden with phase := .responding } := rfl
@[simp] theorem respond_current (e : Status) (r : Word) : (respond e r s).current = none := rfl
@[simp] theorem respond_response (e : Status) (r : Word) : (respond e r s).response = some ⟨e, r⟩ := rfl
@[simp] theorem respond_resetAsserted (e : Status) (r : Word) : (respond e r s).resetAsserted = s.resetAsserted := rfl
@[simp] theorem respond_table (e : Status) (r : Word) : (respond e r s).table = s.table := rfl
@[simp] theorem respond_source (e : Status) (r : Word) : (respond e r s).source = s.source := rfl
@[simp] theorem respond_sink (e : Status) (r : Word) : (respond e r s).sink = s.sink := rfl
@[simp] theorem respond_partnerLimit (e : Status) (r : Word) : (respond e r s).partnerLimit = s.partnerLimit := rfl
@[simp] theorem respond_commands (e : Status) (r : Word) : (respond e r s).commands = s.commands := rfl
@[simp] theorem respond_schedule (e : Status) (r : Word) : (respond e r s).schedule = s.schedule := rfl
@[simp] theorem respond_trace (e : Status) (r : Word) : (respond e r s).trace = s.trace := rfl
@[simp] theorem respond_undefinedTable (e : Status) (r : Word) : (respond e r s).undefinedTable = s.undefinedTable := rfl
@[simp] theorem respond_draws (e : Status) (r : Word) : (respond e r s).draws = s.draws := rfl
@[simp] theorem respond_w (e : Status) (r : Word) : (respond e r s).w = s.w := rfl
@[simp] theorem respond_interval (e : Status) (r : Word) : (respond e r s).interval = s.interval := rfl
@[simp] theorem respond_code (e : Status) (r : Word) : (respond e r s).code = s.code := rfl

/-! ## raiseError -/

@[simp] theorem raiseError_build (e : Status) : (raiseError e s).build = s.build := rfl
@[simp] theorem raiseError_regs (e : Status) : (raiseError e s).regs = { s.regs with mode := e.modeAfter s.regs.mode, lastStatus := e } := rfl
@[simp] theorem raiseError_hidden (e : Status) : (raiseError e s).hidden = { s.hidden with phase := .responding } := rfl
@[simp] theorem raiseError_current (e : Status) : (raiseError e s).current = none := rfl
@[simp] theorem raiseError_response (e : Status) : (raiseError e s).response = some ⟨e, 0⟩ := rfl
@[simp] theorem raiseError_resetAsserted (e : Status) : (raiseError e s).resetAsserted = s.resetAsserted := rfl
@[simp] theorem raiseError_table (e : Status) : (raiseError e s).table = s.table := rfl
@[simp] theorem raiseError_source (e : Status) : (raiseError e s).source = s.source := rfl
@[simp] theorem raiseError_sink (e : Status) : (raiseError e s).sink = s.sink := rfl
@[simp] theorem raiseError_partnerLimit (e : Status) : (raiseError e s).partnerLimit = s.partnerLimit := rfl
@[simp] theorem raiseError_commands (e : Status) : (raiseError e s).commands = s.commands := rfl
@[simp] theorem raiseError_schedule (e : Status) : (raiseError e s).schedule = s.schedule := rfl
@[simp] theorem raiseError_trace (e : Status) : (raiseError e s).trace = s.trace := rfl
@[simp] theorem raiseError_undefinedTable (e : Status) : (raiseError e s).undefinedTable = s.undefinedTable := rfl
@[simp] theorem raiseError_draws (e : Status) : (raiseError e s).draws = s.draws := rfl
@[simp] theorem raiseError_w (e : Status) : (raiseError e s).w = s.w := rfl
@[simp] theorem raiseError_interval (e : Status) : (raiseError e s).interval = s.interval := rfl
@[simp] theorem raiseError_code (e : Status) : (raiseError e s).code = s.code := rfl

/-! ## illegalCommand -/

@[simp] theorem illegalCommand_build : (illegalCommand s).build = s.build := rfl
@[simp] theorem illegalCommand_regs : (illegalCommand s).regs = { s.regs with lastStatus := .illegalCommand, busy := true } := rfl
@[simp] theorem illegalCommand_hidden : (illegalCommand s).hidden = { Hidden.undefined s.draws with phase := .responding } := rfl
@[simp] theorem illegalCommand_current : (illegalCommand s).current = none := rfl
@[simp] theorem illegalCommand_response : (illegalCommand s).response = some ⟨.illegalCommand, 0⟩ := rfl
@[simp] theorem illegalCommand_resetAsserted : (illegalCommand s).resetAsserted = s.resetAsserted := rfl
@[simp] theorem illegalCommand_table : (illegalCommand s).table = s.table := rfl
@[simp] theorem illegalCommand_source : (illegalCommand s).source = s.source := rfl
@[simp] theorem illegalCommand_sink : (illegalCommand s).sink = s.sink := rfl
@[simp] theorem illegalCommand_partnerLimit : (illegalCommand s).partnerLimit = s.partnerLimit := rfl
@[simp] theorem illegalCommand_commands : (illegalCommand s).commands = s.commands := rfl
@[simp] theorem illegalCommand_schedule : (illegalCommand s).schedule = s.schedule := rfl
@[simp] theorem illegalCommand_trace : (illegalCommand s).trace = s.trace := rfl
@[simp] theorem illegalCommand_undefinedTable : (illegalCommand s).undefinedTable = s.undefinedTable := rfl
@[simp] theorem illegalCommand_draws : (illegalCommand s).draws = s.draws + 9 := rfl
@[simp] theorem illegalCommand_w : (illegalCommand s).w = s.w := rfl
@[simp] theorem illegalCommand_interval : (illegalCommand s).interval = s.interval := rfl
@[simp] theorem illegalCommand_code : (illegalCommand s).code = s.code := rfl

/-! ## forget -/

@[simp] theorem State.forget_build : s.forget.build = s.build := rfl
@[simp] theorem State.forget_resetAsserted : s.forget.resetAsserted = s.resetAsserted := rfl
@[simp] theorem State.forget_table : s.forget.table = s.table := rfl
@[simp] theorem State.forget_partnerLimit :
    s.forget.partnerLimit = s.partnerLimit.map (· - Config.freeNat (s.draws + 20)) := rfl
@[simp] theorem State.forget_commands : s.forget.commands = s.commands := rfl
@[simp] theorem State.forget_schedule : s.forget.schedule = s.schedule := rfl
@[simp] theorem State.forget_undefinedTable : s.forget.undefinedTable = true := rfl
@[simp] theorem State.forget_sink : s.forget.sink = s.sink ++ Config.freeBits s.draws := rfl
@[simp] theorem State.forget_trace : s.forget.trace = s.trace ++ [.unknown] := rfl

/-! ## The registers under writes of one of them -/

section
variable (r : Regs) (i : Interval)
@[simp] theorem Regs.withInterval_mode : (r.withInterval i).mode = r.mode := rfl
@[simp] theorem Regs.withInterval_width : (r.withInterval i).width = r.width := rfl
@[simp] theorem Regs.withInterval_low : (r.withInterval i).low = BitVec.ofNat 63 i.low := rfl
@[simp] theorem Regs.withInterval_high : (r.withInterval i).high = BitVec.ofNat 63 i.high := rfl
@[simp] theorem Regs.withInterval_pending : (r.withInterval i).pending = r.pending := rfl
@[simp] theorem Regs.withInterval_code : (r.withInterval i).code = r.code := rfl
@[simp] theorem Regs.withInterval_lastStatus : (r.withInterval i).lastStatus = r.lastStatus := rfl
@[simp] theorem Regs.withInterval_busy : (r.withInterval i).busy = r.busy := rfl
end

/-- A bound below 2^63 is held exactly (00_scope.md R10). -/
theorem State.writeInterval_interval {i : Interval} (hl : i.low < 2 ^ 63) (hh : i.high < 2 ^ 63) :
    (s.writeInterval i).interval = i := by
  cases i
  simp only [State.interval, State.writeInterval_regs, Regs.withInterval_low, Regs.withInterval_high,
    BitVec.toNat_ofNat, Nat.mod_eq_of_lt hl, Nat.mod_eq_of_lt hh]

/-- A CODE below 2^63 is held exactly (00_scope.md R10). -/
theorem State.writeCode_code {n : Nat} (h : n < 2 ^ 63) : (s.writeCode n).code = n := by
  simp only [State.code, State.writeCode_regs, BitVec.toNat_ofNat, Nat.mod_eq_of_lt h]

theorem State.interval_low_lt : s.interval.low < 2 ^ 63 := s.regs.low.isLt
theorem State.interval_high_lt : s.interval.high < 2 ^ 63 := s.regs.high.isLt
theorem State.code_lt : s.code < 2 ^ 63 := s.regs.code.isLt

end Sys2Proof.Machine
end

