-- ==== Sys2Proof/Laws/Datapath.lean ====
section
/-! SUPPORT. The arithmetic of UPDATE: what the bit operations of its steps compute, that both loops end, and where
they leave the interval (40_coder_state_machine.md R145 to R153). -/

namespace Sys2Proof.Machine

/-! ## The derived constants as powers -/

theorem halfRange_eq {w : Nat} (hw : 1 ≤ w) : halfRange w = 2 ^ (w - 1) := by
  obtain ⟨n, rfl⟩ : ∃ n, w = n + 1 := ⟨w - 1, by omega⟩
  simp [halfRange, fullRange, Nat.pow_succ]

theorem fullRange_eq_two_half {w : Nat} (hw : 1 ≤ w) : fullRange w = 2 * halfRange w := by
  obtain ⟨n, rfl⟩ : ∃ n, w = n + 1 := ⟨w - 1, by omega⟩
  simp [halfRange, fullRange, Nat.pow_succ, Nat.mul_comm]

theorem quarterRange_eq {w : Nat} (hw : 2 ≤ w) : quarterRange w = 2 ^ (w - 2) := by
  obtain ⟨n, rfl⟩ : ∃ n, w = n + 2 := ⟨w - 2, by omega⟩
  simp [quarterRange, halfRange, fullRange, Nat.pow_succ, Nat.shiftRight_eq_div_pow]

theorem quarterRange_one : quarterRange 1 = 0 := by decide

theorem halfRange_eq_two_quarter {w : Nat} (hw : 2 ≤ w) : halfRange w = 2 * quarterRange w := by
  obtain ⟨n, rfl⟩ : ∃ n, w = n + 2 := ⟨w - 2, by omega⟩
  rw [halfRange_eq (by omega), quarterRange_eq (by omega)]
  simp [Nat.pow_succ, Nat.mul_comm]

/-- minRange = quarterRange + 2 (10_state.md R34). -/
theorem minRange_eq_quarter (w : Nat) : minRange w = quarterRange w + 2 := by
  simp [minRange, quarterRange, halfRange, fullRange, Nat.shiftRight_eq_div_pow, Nat.div_div_eq_div_mul]

theorem fullRange_pos (w : Nat) : 0 < fullRange w := Nat.pow_pos (by decide)

theorem mask_lt (w : Nat) : mask w < fullRange w := by
  have := fullRange_pos w
  simp only [mask]; omega

theorem le_mask_iff {w x : Nat} : x ≤ mask w ↔ x < fullRange w := by
  have := fullRange_pos w
  simp only [mask]; omega

/-! ## Top bits as comparisons -/

theorem testBit_top {w x : Nat} (hw : 1 ≤ w) (hx : x < fullRange w) :
    x.testBit (w - 1) = decide (halfRange w ≤ x) := by
  have hf := fullRange_eq_two_half hw
  have hp : 0 < halfRange w := by have := fullRange_pos w; omega
  rw [Nat.testBit_eq_decide_div_mod_eq, ← halfRange_eq hw]
  congr 1
  by_cases h : halfRange w ≤ x
  · have : x / halfRange w = 1 := by
      rw [Nat.div_eq_iff hp]; omega
    simp [this, h]
  · have : x / halfRange w = 0 := Nat.div_eq_of_lt (by omega)
    simp [this, h]

theorem topBit_eq {w x : Nat} (hw : 1 ≤ w) (hx : x < fullRange w) : topBit w x = decide (halfRange w ≤ x) :=
  testBit_top hw hx

/-- The E1/E2 condition says that the top bits agree (R146). -/
theorem renormDue_eq {w : Nat} (hw : 1 ≤ w) (i : Interval) :
    renormDue w i = (i.low.testBit (w - 1) == i.high.testBit (w - 1)) := by
  rw [renormDue, halfRange_eq hw, Nat.and_two_pow, Nat.testBit_xor]
  have : 0 < 2 ^ (w - 1) := Nat.pow_pos (by decide)
  cases i.low.testBit (w - 1) <;> cases i.high.testBit (w - 1) <;> simp

theorem renormDue_iff {w : Nat} (hw : 1 ≤ w) {i : Interval} (hl : i.low < fullRange w) (hh : i.high < fullRange w) :
    renormDue w i = true ↔ (halfRange w ≤ i.low ↔ halfRange w ≤ i.high) := by
  rw [renormDue_eq hw, testBit_top hw hl, testBit_top hw hh]
  simp

theorem testBit_second {w x : Nat} (hw : 2 ≤ w) :
    x.testBit (w - 2) = decide (x / quarterRange w % 2 = 1) := by
  rw [Nat.testBit_eq_decide_div_mod_eq, ← quarterRange_eq hw]

/-- The E3 condition says that the second bit of LOW is 1 and of HIGH is 0 (R149). -/
theorem underflowDue_eq {w : Nat} (hw : 2 ≤ w) (hw' : w ≤ 64) (i : Interval) :
    underflowDue w i = (i.low.testBit (w - 2) && !i.high.testBit (w - 2)) := by
  rw [underflowDue, quarterRange_eq hw, Nat.and_two_pow, Nat.testBit_and, bitNot, Nat.testBit_xor]
  rw [Nat.testBit_two_pow_sub_one]
  have hlt : w - 2 < 64 := by omega
  cases i.low.testBit (w - 2) <;> cases i.high.testBit (w - 2) <;> simp [hlt]

/-- With W = 1 the E3 condition never holds (R149). -/
theorem underflowDue_one (i : Interval) : underflowDue 1 i = false := by
  simp [underflowDue, quarterRange_one]

/-- The E3 condition for an interval that straddles the midpoint (R149). -/
theorem underflowDue_iff {w : Nat} (hw : 2 ≤ w) (hw' : w ≤ 64) {i : Interval} (hl : i.low < halfRange w)
    (hm : halfRange w ≤ i.high) (hh : i.high < fullRange w) :
    underflowDue w i = true ↔ quarterRange w ≤ i.low ∧ i.high < halfRange w + quarterRange w := by
  have h2 := halfRange_eq_two_quarter hw
  have hf := fullRange_eq_two_half (w := w) (by omega)
  have hq : 0 < quarterRange w := by rw [quarterRange_eq hw]; exact Nat.pow_pos (by decide)
  rw [underflowDue_eq hw hw', testBit_second hw, testBit_second hw]
  have hlow : i.low / quarterRange w % 2 = 1 ↔ quarterRange w ≤ i.low := by
    by_cases h : quarterRange w ≤ i.low
    · have : i.low / quarterRange w = 1 := by rw [Nat.div_eq_iff hq]; omega
      simp [this, h]
    · have : i.low / quarterRange w = 0 := Nat.div_eq_of_lt (by omega)
      simp [this, h]
  have hhigh : i.high / quarterRange w % 2 = 1 ↔ ¬ i.high < halfRange w + quarterRange w := by
    by_cases h : i.high < halfRange w + quarterRange w
    · have : i.high / quarterRange w = 2 := by rw [Nat.div_eq_iff hq]; omega
      simp [this, h]
    · have : i.high / quarterRange w = 3 := by rw [Nat.div_eq_iff hq]; omega
      simp [this, h]
  simp [hlow, hhigh]

/-! ## The shifts as arithmetic -/

theorem or_one_of_even {n : Nat} (h : n % 2 = 0) : n ||| 1 = n + 1 := by
  have : n = 2 * (n / 2) := by omega
  rw [this]
  exact (Nat.two_pow_add_eq_or_of_lt (i := 1) (b := 1) (by decide) (n / 2)).symm

theorem renormShift_low (w : Nat) (i : Interval) : (i.renormShift w).low = 2 * i.low % fullRange w := by
  simp only [Interval.renormShift, mask, fullRange, Nat.and_two_pow_sub_one_eq_mod, Nat.shiftLeft_eq, Nat.pow_one]
  rw [Nat.mul_comm]

theorem renormShift_high {w : Nat} (hw : 1 ≤ w) (i : Interval) :
    (i.renormShift w).high = 2 * i.high % fullRange w + 1 := by
  have hf := fullRange_eq_two_half hw
  simp only [Interval.renormShift, mask]
  simp only [fullRange] at hf ⊢
  rw [Nat.and_two_pow_sub_one_eq_mod, Nat.shiftLeft_eq, Nat.pow_one, or_one_of_even, Nat.mul_comm]
  rw [hf]
  have : i.high * 2 % (2 * halfRange w) % 2 = i.high * 2 % 2 := Nat.mod_mul_right_mod _ _ _
  omega

/-- One due E1/E2 step drops the common top bit: both bounds double and lose it, HIGH gains 1 (R147). -/
theorem renormShift_spec {w : Nat} (hw : 1 ≤ w) {i : Interval} (hle : i.low ≤ i.high) (hh : i.high < fullRange w)
    (hd : renormDue w i = true) :
    (i.high < halfRange w ∧ (i.renormShift w).low = 2 * i.low ∧ (i.renormShift w).high = 2 * i.high + 1) ∨
    (halfRange w ≤ i.low ∧ (i.renormShift w).low + fullRange w = 2 * i.low
      ∧ (i.renormShift w).high + fullRange w = 2 * i.high + 1) := by
  have hf := fullRange_eq_two_half hw
  rw [renormDue_iff hw (by omega) hh] at hd
  rw [renormShift_low, renormShift_high hw]
  by_cases h : halfRange w ≤ i.low
  · right
    have h1 : 2 * i.low % fullRange w = 2 * i.low - fullRange w := by
      rw [Nat.mod_eq_sub_mod (by omega), Nat.mod_eq_of_lt (by omega)]
    have h2 : 2 * i.high % fullRange w = 2 * i.high - fullRange w := by
      rw [Nat.mod_eq_sub_mod (by omega), Nat.mod_eq_of_lt (by omega)]
    omega
  · left
    have hlt : i.high < halfRange w := by
      by_contra hc
      exact h (hd.mpr (by omega))
    rw [Nat.mod_eq_of_lt (by omega), Nat.mod_eq_of_lt (by omega)]
    exact ⟨hlt, rfl, rfl⟩

/-- A due E1/E2 step keeps the interval in order and in bounds, and doubles its range (R147). -/
theorem renormShift_keeps {w : Nat} (hw : 1 ≤ w) {i : Interval} (hle : i.low ≤ i.high) (hh : i.high < fullRange w)
    (hd : renormDue w i = true) :
    (i.renormShift w).low ≤ (i.renormShift w).high ∧ (i.renormShift w).high < fullRange w
      ∧ (i.renormShift w).range = 2 * i.range := by
  have hf := fullRange_eq_two_half hw
  simp only [Interval.range]
  rcases renormShift_spec hw hle hh hd with h | h <;> omega

theorem or_half_one {w n : Nat} (hw : 2 ≤ w) (hn : n < halfRange w) (he : n % 2 = 0) :
    n ||| halfRange w ||| 1 = n + halfRange w + 1 := by
  have h2 := halfRange_eq_two_quarter hw
  have hor : n ||| halfRange w = halfRange w + n := by
    rw [halfRange_eq (by omega)] at hn ⊢
    rw [Nat.or_comm]
    have := Nat.two_pow_add_eq_or_of_lt hn 1
    simpa using this.symm
  rw [hor, or_one_of_even (by omega)]
  omega

/-- One due E3 step deletes bit W-2 of both bounds: LOW' = 2 LOW - halfRange, HIGH' = 2 HIGH - halfRange + 1 (R151). -/
theorem underflowShift_spec {w : Nat} (hw : 2 ≤ w) (hw' : w ≤ 64) {i : Interval} (hl : i.low < halfRange w)
    (hm : halfRange w ≤ i.high) (hh : i.high < fullRange w) (hd : underflowDue w i = true) :
    (i.underflowShift w).low + halfRange w = 2 * i.low
      ∧ (i.underflowShift w).high + halfRange w = 2 * i.high + 1 := by
  have h2 := halfRange_eq_two_quarter hw
  have hf := fullRange_eq_two_half (w := w) (by omega)
  obtain ⟨hql, hqh⟩ := (underflowDue_iff hw hw' hl hm hh).mp hd
  have hmask : mask w >>> 1 = 2 ^ (w - 1) - 1 := by
    rw [← halfRange_eq (by omega : 1 ≤ w)]
    simp only [mask, Nat.shiftRight_eq_div_pow, Nat.pow_one]
    have hp : 0 < halfRange w := by omega
    omega
  have hlow : (i.underflowShift w).low = 2 * i.low - halfRange w := by
    simp only [Interval.underflowShift, hmask, Nat.and_two_pow_sub_one_eq_mod, Nat.shiftLeft_eq, Nat.pow_one]
    rw [← halfRange_eq (by omega : 1 ≤ w), Nat.mod_eq_sub_mod (by omega), Nat.mod_eq_of_lt (by omega)]
    omega
  have hmod : i.high * 2 % halfRange w = 2 * i.high - fullRange w := by
    rw [Nat.mod_eq_sub_mod (by omega), Nat.mod_eq_sub_mod (by omega), Nat.mod_eq_of_lt (by omega)]
    omega
  have hhigh : (i.underflowShift w).high = 2 * i.high - fullRange w + halfRange w + 1 := by
    simp only [Interval.underflowShift, hmask, Nat.and_two_pow_sub_one_eq_mod, Nat.shiftLeft_eq, Nat.pow_one]
    rw [← halfRange_eq (by omega : 1 ≤ w), hmod]
    exact or_half_one hw (by omega) (by omega)
  omega

/-- A due E3 step keeps the interval astride the midpoint and in bounds, and doubles its range (R151). -/
theorem underflowShift_keeps {w : Nat} (hw : 2 ≤ w) (hw' : w ≤ 64) {i : Interval} (hl : i.low < halfRange w)
    (hm : halfRange w ≤ i.high) (hh : i.high < fullRange w) (hd : underflowDue w i = true) :
    (i.underflowShift w).low < halfRange w ∧ halfRange w ≤ (i.underflowShift w).high
      ∧ (i.underflowShift w).high < fullRange w ∧ (i.underflowShift w).range = 2 * i.range := by
  have h2 := halfRange_eq_two_quarter hw
  have hf := fullRange_eq_two_half (w := w) (by omega)
  obtain ⟨hql, hqh⟩ := (underflowDue_iff hw hw' hl hm hh).mp hd
  have hs := underflowShift_spec hw hw' hl hm hh hd
  simp only [Interval.range]
  omega

/-! ## The narrowing (R145) -/

/-- For a symbol of non-zero frequency under an accepted total the sub-interval is not empty and lies in the interval
(R145). -/
theorem narrow_bounds {i : Interval} {total symLow symHigh : Nat} (hle : i.low ≤ i.high) (hlt : symLow < symHigh)
    (hht : symHigh ≤ total) (htr : total ≤ i.range) :
    i.low ≤ (i.narrow total symLow symHigh).low
      ∧ (i.narrow total symLow symHigh).low ≤ (i.narrow total symLow symHigh).high
      ∧ (i.narrow total symLow symHigh).high ≤ i.high := by
  have ht : 0 < total := by omega
  have h1 : symLow * i.range / total + 1 ≤ symHigh * i.range / total := by
    rw [Nat.le_div_iff_mul_le ht, Nat.add_mul]
    have hdiv : symLow * i.range / total * total ≤ symLow * i.range := Nat.div_mul_le_self _ _
    have hstep : symLow * i.range + i.range ≤ symHigh * i.range := by
      rw [← Nat.succ_mul]; exact Nat.mul_le_mul_right _ hlt
    omega
  have h2 : symHigh * i.range / total ≤ i.range := by
    have : symHigh * i.range ≤ total * i.range := Nat.mul_le_mul_right _ hht
    calc symHigh * i.range / total ≤ total * i.range / total := Nat.div_le_div_right this
      _ = i.range := Nat.mul_div_cancel_left _ ht
  have hr : i.range = i.high - i.low + 1 := rfl
  simp only [Interval.narrow]
  generalize symLow * i.range / total = a at *
  generalize symHigh * i.range / total = b at *
  omega

/-! ## How far the loops run -/

theorem runsTo_zero {due : Interval → Bool} {shift : Interval → Interval} {i : Interval} (h : due i = false) :
    RunsTo due shift i 0 i :=
  ⟨rfl, fun m hm => absurd hm (Nat.not_lt_zero m), h⟩

theorem runsTo_succ {due : Interval → Bool} {shift : Interval → Interval} {i j : Interval} {k : Nat}
    (hd : due i = true) (h : RunsTo due shift (shift i) k j) : RunsTo due shift i (k + 1) j := by
  obtain ⟨hj, hdue, hend⟩ := h
  refine ⟨by rw [hj, Function.iterate_succ_apply], ?_, hend⟩
  intro m hm
  cases m with
  | zero => exact hd
  | succ m => rw [Function.iterate_succ_apply]; exact hdue m (by omega)

theorem runsTo_inv {due : Interval → Bool} {shift : Interval → Interval} {i j : Interval} {k : Nat}
    (h : RunsTo due shift i k j) :
    (k = 0 ∧ j = i ∧ due i = false) ∨ (∃ n, k = n + 1 ∧ due i = true ∧ RunsTo due shift (shift i) n j) := by
  obtain ⟨hj, hdue, hend⟩ := h
  cases k with
  | zero => left; exact ⟨rfl, hj, by rw [← hend, hj]; rfl⟩
  | succ n =>
    right
    refine ⟨n, rfl, hdue 0 (by omega), by rw [hj, Function.iterate_succ_apply], ?_, hend⟩
    intro m hm
    have := hdue (m + 1) (by omega)
    rwa [Function.iterate_succ_apply] at this

/-- A loop that doubles the range of what it keeps good ends, and its steps are bounded by the range (R148, R151). -/
theorem runsTo_exists {due : Interval → Bool} {shift : Interval → Interval} {good : Interval → Prop} {bound : Nat}
    (hgood : ∀ i, good i → due i = true → good (shift i) ∧ (shift i).range = 2 * i.range)
    (hbound : ∀ i, good i → i.range ≤ bound) :
    ∀ i, good i → ∃ k j, RunsTo due shift i k j ∧ good j ∧ j.range = 2 ^ k * i.range := by
  suffices h : ∀ n i, good i → bound - i.range ≤ n → ∃ k j, RunsTo due shift i k j ∧ good j
      ∧ j.range = 2 ^ k * i.range from fun i hi => h _ i hi (Nat.le_refl _)
  intro n
  induction n with
  | zero =>
    intro i hi hn
    cases hd : due i with
    | false => exact ⟨0, i, runsTo_zero hd, hi, by simp⟩
    | true =>
      obtain ⟨hg, hr⟩ := hgood i hi hd
      have := hbound _ hg
      have : 0 < i.range := Nat.succ_pos _
      omega
  | succ n ih =>
    intro i hi hn
    cases hd : due i with
    | false => exact ⟨0, i, runsTo_zero hd, hi, by simp⟩
    | true =>
      obtain ⟨hg, hr⟩ := hgood i hi hd
      have hb := hbound _ hg
      have hpos : 0 < i.range := Nat.succ_pos _
      obtain ⟨k, j, hrun, hj, hrange⟩ := ih (shift i) hg (by omega)
      exact ⟨k + 1, j, runsTo_succ hd hrun, hj, by rw [hrange, hr, Nat.pow_succ]; ring⟩

/-- The E1/E2 loop ends, astride the midpoint (R148). -/
theorem renormRuns_exists {w : Nat} (hw : 1 ≤ w) {i : Interval} (hle : i.low ≤ i.high) (hh : i.high < fullRange w) :
    ∃ k j, RenormRuns w i k j ∧ j.low < halfRange w ∧ halfRange w ≤ j.high ∧ j.high < fullRange w
      ∧ j.range = 2 ^ k * i.range := by
  obtain ⟨k, j, hrun, ⟨hjle, hjh⟩, hr⟩ :=
    runsTo_exists (due := renormDue w) (shift := Interval.renormShift w)
      (good := fun i => i.low ≤ i.high ∧ i.high < fullRange w) (bound := fullRange w)
      (fun i hi hd => by
        obtain ⟨h1, h2, h3⟩ := renormShift_keeps hw hi.1 hi.2 hd
        exact ⟨⟨h1, h2⟩, h3⟩)
      (fun i hi => by simp only [Interval.range]; omega) i ⟨hle, hh⟩
  have hnot : ¬ renormDue w j = true := by rw [hrun.2.2]; simp
  rw [renormDue_iff hw (by omega) hjh] at hnot
  refine ⟨k, j, hrun, ?_, ?_, hjh, hr⟩ <;> by_contra hc <;> exact hnot ⟨fun _ => by omega, fun _ => by omega⟩

/-- The E3 loop ends, still astride the midpoint, no longer within the middle half (R151, R153). -/
theorem underflowRuns_exists {w : Nat} (hw : 1 ≤ w) (hw' : w ≤ 64) {i : Interval} (hl : i.low < halfRange w)
    (hm : halfRange w ≤ i.high) (hh : i.high < fullRange w) :
    ∃ k j, UnderflowRuns w i k j ∧ j.low < halfRange w ∧ halfRange w ≤ j.high ∧ j.high < fullRange w
      ∧ (j.low < quarterRange w ∨ halfRange w + quarterRange w ≤ j.high ∨ w = 1)
      ∧ j.range = 2 ^ k * i.range := by
  rcases Nat.lt_or_ge w 2 with h1 | h2
  · have : w = 1 := by omega
    subst this
    exact ⟨0, i, runsTo_zero (underflowDue_one i), hl, hm, hh, Or.inr (Or.inr rfl), by simp⟩
  · obtain ⟨k, j, hrun, ⟨hjl, hjm, hjh⟩, hr⟩ :=
      runsTo_exists (due := underflowDue w) (shift := Interval.underflowShift w)
        (good := fun i => i.low < halfRange w ∧ halfRange w ≤ i.high ∧ i.high < fullRange w) (bound := fullRange w)
        (fun i hi hd => by
          obtain ⟨a, b, c, d⟩ := underflowShift_keeps h2 hw' hi.1 hi.2.1 hi.2.2 hd
          exact ⟨⟨a, b, c⟩, d⟩)
        (fun i hi => by simp only [Interval.range]; omega) i ⟨hl, hm, hh⟩
    have hnot : ¬ underflowDue w j = true := by rw [hrun.2.2]; simp
    rw [underflowDue_iff h2 hw' hjl hjm hjh] at hnot
    refine ⟨k, j, hrun, hjl, hjm, hjh, ?_, hr⟩
    omega

/-- Where UPDATE leaves the interval, the interval invariant holds again (R153). -/
theorem intervalOk_of_settled {w : Nat} (hw : 1 ≤ w) {j : Interval} (hl : j.low < halfRange w)
    (hm : halfRange w ≤ j.high) (hh : j.high < fullRange w)
    (hq : j.low < quarterRange w ∨ halfRange w + quarterRange w ≤ j.high ∨ w = 1) : intervalOk w j = true := by
  have hf := fullRange_eq_two_half hw
  have hmin := minRange_eq_quarter w
  have h2 : 2 * quarterRange w ≤ halfRange w := by
    simp only [quarterRange, Nat.shiftRight_eq_div_pow, Nat.pow_one]; omega
  simp only [intervalOk, boundsOk, rangeOk, Bool.and_eq_true, decide_eq_true_eq, le_mask_iff]
  simp only [Interval.range]
  rcases hq with h | h | h
  · omega
  · omega
  · subst h
    have : quarterRange 1 = 0 := quarterRange_one
    have : halfRange 1 = 1 := by decide
    have : fullRange 1 = 2 := by decide
    omega

end Sys2Proof.Machine
end

