-- ==== Sys2Proof/Laws/Decode.lean ====
section
/-! SUPPORT. What the decoder and the encoder do, on the numbers their words stand for. -/

namespace Sys2Proof

/-! ## The fields of CMD -/

theorem opField_eq (cmd : CmdWord) : opField cmd = cmd.toNat % 16 := by
  simp [opField, BitVec.extractLsb'_toNat]

theorem rsv0Field_eq (cmd : CmdWord) : rsv0Field cmd = cmd.toNat / 16 % 16 := by
  simp [rsv0Field, BitVec.extractLsb'_toNat, Nat.shiftRight_eq_div_pow]

theorem widthField_eq (cmd : CmdWord) : widthField cmd = cmd.toNat / 256 % 256 := by
  simp [widthField, BitVec.extractLsb'_toNat, Nat.shiftRight_eq_div_pow]

theorem rsv1Field_eq (cmd : CmdWord) : rsv1Field cmd = cmd.toNat / 65536 := by
  have := cmd.isLt
  simp only [rsv1Field, BitVec.extractLsb'_toNat, Nat.shiftRight_eq_div_pow]
  omega

theorem formatCW_iff (cmd : CmdWord) :
    formatCW cmd = true ↔ cmd.toNat / 16 % 16 = 0 ∧ cmd.toNat / 65536 = 0 := by
  simp only [formatCW, rsv0Field_eq, rsv1Field_eq, Bool.and_eq_true, beq_iff_eq]

theorem formatC0_iff (cmd : CmdWord) : formatC0 cmd = true ↔ cmd.toNat / 16 = 0 := by
  have := cmd.isLt
  simp only [formatC0, rsv0Field_eq, widthField_eq, rsv1Field_eq, Bool.and_eq_true, beq_iff_eq]
  omega

/-! ## The encoder's words -/

theorem cmdOf_toNat {op width : Nat} (ho : op < 16) (hw : width < 256) :
    (cmdOf op width).toNat = 256 * width + op := by
  have h1 : width <<< 4 ||| 0 = width <<< 4 := Nat.or_zero _
  have h2 : (width <<< 4) <<< 4 ||| op = (width <<< 4) <<< 4 + op :=
    (Nat.shiftLeft_add_eq_or_of_lt (i := 4) (by omega : op < 2 ^ 4) _).symm
  simp only [cmdOf, BitVec.toNat_append, BitVec.toNat_ofNat]
  simp only [Nat.mod_eq_of_lt (by omega : op < 2 ^ 4), Nat.mod_eq_of_lt (by omega : width < 2 ^ 8)]
  simp [h2]
  simp only [Nat.shiftLeft_eq]
  omega

/-! ## The decoder, by OP -/

theorem ifReservedZero_ok {b : Bool} {i j : Instr} : ifReservedZero b i = .ok j ↔ b = true ∧ i = j := by
  cases b <;> simp [ifReservedZero]

theorem ifReservedZero_error {b : Bool} {i : Instr} {e : DecodeReject} :
    ifReservedZero b i = .error e ↔ b = false ∧ e = .reservedBits := by
  cases b <;> simp [ifReservedZero, eq_comm]

/-- No command but ENC depends on ARG (30_encoding.md R115): the decoder of any other reads CMD alone. -/
theorem decode_arg {cmd : CmdWord} {arg : Word} {i : Instr} (h : decode cmd arg = .ok i) (hi : ∀ n, i ≠ .enc n)
    (arg' : Word) : decode cmd arg' = .ok i := by
  by_cases h3 : opField cmd = 3
  · simp only [decode, h3] at h
    exact absurd (ifReservedZero_ok.1 h).2.symm (hi _)
  · rw [← h]
    simp only [decode]
    split <;> first | rfl | contradiction

end Sys2Proof
end

