-- ==== Sys2Proof/Laws/Table.lean ====
section
/-! SUPPORT. What the table contract gives (20_memory.md R82), and what the table agent answers. -/

namespace Sys2Proof.Machine

section
variable (t : Table) (symbol : Word)
@[simp] theorem tableAgentStep_total : tableAgentStep t Query.total.kind Query.total.index = t.total := rfl
@[simp] theorem tableAgentStep_limit : tableAgentStep t Query.limit.kind Query.limit.index = t.symbolLimit := rfl
@[simp] theorem tableAgentStep_low :
    tableAgentStep t (Query.low symbol).kind (Query.low symbol).index = t.low symbol := rfl
@[simp] theorem tableAgentStep_high :
    tableAgentStep t (Query.high symbol).kind (Query.high symbol).index = t.high symbol := rfl
end

/-- What the rows of a conforming table hold, one after another. -/
theorem rowsFrom_spec {total : Word} {rows : List Bounds} : ∀ {a : Word}, rowsFrom a total rows = true →
    a.toNat ≤ total.toNat
      ∧ (∀ n (h : n < rows.length), a.toNat ≤ rows[n].low.toNat ∧ rows[n].low.toNat ≤ rows[n].high.toNat
          ∧ rows[n].high.toNat ≤ total.toNat)
      ∧ (∀ h : 0 < rows.length, rows[0].low = a)
      ∧ (∀ n (h : n + 1 < rows.length), rows[n].high = rows[n + 1].low)
      ∧ (∀ n (h : n + 1 = rows.length), rows[n].high = total) := by
  induction rows with
  | nil =>
    intro a h
    simp only [rowsFrom, beq_iff_eq] at h
    subst h
    simp
  | cons r rest ih =>
    intro a h
    simp only [rowsFrom, Bool.and_eq_true, beq_iff_eq, decide_eq_true_eq] at h
    obtain ⟨⟨rfl, hle⟩, hrest⟩ := h
    obtain ⟨h1, h2, h3, h4, h5⟩ := ih hrest
    refine ⟨by omega, ?_, fun _ => rfl, ?_, ?_⟩
    · intro n hn
      cases n with
      | zero => exact ⟨Nat.le_refl _, hle, h1⟩
      | succ n =>
        have := h2 n (by simpa using hn)
        simp only [List.getElem_cons_succ]
        omega
    · intro n hn
      cases n with
      | zero => exact (h3 (by simpa using hn)).symm
      | succ n => exact h4 n (by simpa using hn)
    · intro n hn
      cases n with
      | zero =>
        have : rest = [] := by
          cases rest with
          | nil => rfl
          | cons _ _ => simp at hn
        subst this
        simpa [rowsFrom] using hrest
      | succ n => exact h5 n (by simpa using hn)

theorem Table.conforming_iff (t : Table) : t.conforming = true ↔
    1 ≤ t.symbolLimit.toNat ∧ t.rows.length = t.symbolLimit.toNat ∧ rowsFrom 0 t.total t.rows = true := by
  simp only [Table.conforming, Bool.and_eq_true, decide_eq_true_eq, beq_iff_eq, and_assoc]

theorem Table.low_of_lt {t : Table} {n : Nat} (h : n < t.rows.length) (hn : n < 2 ^ 64) :
    t.low (BitVec.ofNat 64 n) = t.rows[n].low := by
  simp only [Table.low, BitVec.toNat_ofNat, Nat.mod_eq_of_lt hn, List.getElem?_eq_getElem h]

theorem Table.high_of_lt {t : Table} {n : Nat} (h : n < t.rows.length) (hn : n < 2 ^ 64) :
    t.high (BitVec.ofNat 64 n) = t.rows[n].high := by
  simp only [Table.high, BitVec.toNat_ofNat, Nat.mod_eq_of_lt hn, List.getElem?_eq_getElem h]

/-- The bounds of a symbol of a conforming table are in order and at most total (R82). -/
theorem Table.conforming_bounds {t : Table} (hc : t.conforming = true) {n : Nat} (hn : n < t.symbolLimit.toNat) :
    (t.low (BitVec.ofNat 64 n)).toNat ≤ (t.high (BitVec.ofNat 64 n)).toNat
      ∧ (t.high (BitVec.ofNat 64 n)).toNat ≤ t.total.toNat := by
  obtain ⟨_, hlen, hrows⟩ := t.conforming_iff.mp hc
  have h64 : n < 2 ^ 64 := Nat.lt_trans hn t.symbolLimit.isLt
  have hl : n < t.rows.length := by omega
  rw [Table.low_of_lt hl h64, Table.high_of_lt hl h64]
  exact ((rowsFrom_spec hrows).2.1 n hl).2

/-- low(0) = 0 (R82). -/
theorem Table.conforming_low_zero {t : Table} (hc : t.conforming = true) : t.low (BitVec.ofNat 64 0) = 0 := by
  obtain ⟨h1, hlen, hrows⟩ := t.conforming_iff.mp hc
  have hl : 0 < t.rows.length := by omega
  rw [Table.low_of_lt hl (by decide)]
  exact (rowsFrom_spec hrows).2.2.1 hl

/-- high(s) = low(s + 1) (R82). -/
theorem Table.conforming_next {t : Table} (hc : t.conforming = true) {n : Nat} (hn : n + 1 < t.symbolLimit.toNat) :
    t.high (BitVec.ofNat 64 n) = t.low (BitVec.ofNat 64 (n + 1)) := by
  obtain ⟨_, hlen, hrows⟩ := t.conforming_iff.mp hc
  have h64 := t.symbolLimit.isLt
  rw [Table.low_of_lt (by omega) (by omega), Table.high_of_lt (by omega) (by omega)]
  exact (rowsFrom_spec hrows).2.2.2.1 n (by omega)

/-- high(symbolLimit - 1) = total (R82). -/
theorem Table.conforming_last {t : Table} (hc : t.conforming = true) {n : Nat} (hn : n + 1 = t.symbolLimit.toNat) :
    t.high (BitVec.ofNat 64 n) = t.total := by
  obtain ⟨_, hlen, hrows⟩ := t.conforming_iff.mp hc
  have h64 := t.symbolLimit.isLt
  rw [Table.high_of_lt (by omega) (by omega)]
  exact (rowsFrom_spec hrows).2.2.2.2 n (by omega)

end Sys2Proof.Machine
end

