-- ==== Sys2Proof/Laws/Flow.lean ====
section
/-! SUPPORT. How the parts of a command compose, and what each shared operation can do. -/

namespace Sys2Proof.Machine

/-! ## Sequencing -/

section
variable (s : State) (e : Status) (k : State → Flow)
@[simp] theorem Flow.andThen_go : (Flow.go s).andThen k = k s := rfl
@[simp] theorem Flow.andThen_raise : (Flow.raise e s).andThen k = .raise e s := rfl
@[simp] theorem Flow.andThen_wait : (Flow.wait s).andThen k = .wait s := rfl
@[simp] theorem Flow.andThen_broken : (Flow.broken s).andThen k = .broken s := rfl
@[simp] theorem Flow.andThen_endless : (Flow.endless s).andThen k = .endless s := rfl
end

theorem Flow.andThen_assoc (f : Flow) (g h : State → Flow) :
    (f.andThen g).andThen h = f.andThen fun s => (g s).andThen h := by
  cases f <;> rfl

@[simp] theorem Flow.andThen_id (f : Flow) : f.andThen Flow.go = f := by cases f <;> rfl

/-! ## What can be said of the end of a part of a command -/

/-- One condition for each way a part of a command can end. -/
structure Post where
  go : State → Prop
  raise : Status → State → Prop
  wait : State → Prop
  broken : State → Prop
  endless : State → Prop

/-- The part ends in a way that meets its condition. -/
def Flow.Sat (f : Flow) (p : Post) : Prop :=
  match f with
  | .go s => p.go s
  | .raise e s => p.raise e s
  | .wait s => p.wait s
  | .broken s => p.broken s
  | .endless s => p.endless s

/-- The same condition on the state whichever way the part ends. -/
def Post.always (q : State → Prop) : Post := ⟨q, fun _ => q, q, q, q⟩

theorem Flow.sat_andThen {f : Flow} {k : State → Flow} {p : Post}
    (h : f.Sat { p with go := fun s => (k s).Sat p }) : (f.andThen k).Sat p := by
  cases f <;> exact h

theorem Flow.Sat.mono {f : Flow} {p q : Post} (h : f.Sat p) (hgo : ∀ s, p.go s → q.go s)
    (hraise : ∀ e s, p.raise e s → q.raise e s) (hwait : ∀ s, p.wait s → q.wait s)
    (hbroken : ∀ s, p.broken s → q.broken s) (hendless : ∀ s, p.endless s → q.endless s) : f.Sat q := by
  cases f with
  | go s => exact hgo s h
  | raise e s => exact hraise e s h
  | wait s => exact hwait s h
  | broken s => exact hbroken s h
  | endless s => exact hendless s h

/-! ## The shared operations -/

theorem check_true (e : Status) (s : State) : check true e s = .go s := rfl
theorem check_false (e : Status) (s : State) : check false e s = .raise e s := rfl

/-- A check leaves the state alone whichever way it goes. -/
theorem check_cases (b : Bool) (e : Status) (s : State) :
    (b = true ∧ check b e s = .go s) ∨ (b = false ∧ check b e s = .raise e s) := by
  cases b <;> simp [check]

theorem judgeContract_cases (b : Bool) (s : State) :
    (b = true ∧ judgeContract b s = .go s) ∨ (b = false ∧ judgeContract b s = .broken s) := by
  cases b <;> simp [judgeContract]

/-- A transfer goes on, one of the partners' transfers used up, or waits with nothing changed (R321). -/
theorem transfer_cases (s : State) (k : State → Flow) :
    (s.partnerLimit = some 0 ∧ transfer s k = .wait s)
      ∨ (s.partnerLimit = none ∧ transfer s k = k s)
      ∨ (∃ n, s.partnerLimit = some (n + 1) ∧ transfer s k = k (s.withLimit (some n))) := by
  unfold transfer
  cases h : s.partnerLimit with
  | none => exact Or.inr (Or.inl ⟨rfl, rfl⟩)
  | some n =>
    cases n with
    | zero => exact Or.inl ⟨rfl, rfl⟩
    | succ n => exact Or.inr (Or.inr ⟨n, rfl, rfl⟩)

/-- Partners that complete every transfer (R321). -/
theorem transfer_none {s : State} (h : s.partnerLimit = none) (k : State → Flow) : transfer s k = k s := by
  simp [transfer, h]

theorem tableQuery_none {s : State} (h : s.partnerLimit = none) (q : Query) (k : Word → State → Flow) :
    tableQuery q s k = k (tableAgentStep s.table q.kind q.index)
      (s.log (.query q.kind q.index (tableAgentStep s.table q.kind q.index))) := by
  simp [tableQuery, transfer_none h]

theorem bitOut_none {s : State} (h : s.partnerLimit = none) (b : Bit) :
    bitOut b s = .go ((s.withSink (s.sink ++ [b])).log (.bitOut b)) := by
  simp [bitOut, transfer_none h, bitSinkStep]

/-- The next bit as the decoder reads it (42_decoder.md R227). -/
theorem readCodeBit_none {s : State} (h : s.partnerLimit = none) (k : Bit → State → Flow) :
    readCodeBit s k = k (s.source.headD false)
      ((s.withSource s.source.tail).log (.bitIn (bitSourceStep s.source).1)) := by
  unfold readCodeBit
  rw [transfer_none h]
  cases hs : s.source with
  | nil => simp [bitSourceStep, SourceItem.bits, SourceItem.ofBits, SourceItem.codeBit]
  | cons b rest => cases b <;> simp [bitSourceStep, SourceItem.bits, SourceItem.ofBits, SourceItem.codeBit]

/-- The mode checks change nothing whichever way they go (43_session_control.md R252, R254). -/
theorem requireMode_cases (m : Mode) (s : State) :
    (s.regs.mode = .aborted ∧ requireMode m s = .raise .sessionAborted s)
      ∨ (s.regs.mode ≠ .aborted ∧ s.regs.mode = m ∧ requireMode m s = .go s)
      ∨ (s.regs.mode ≠ .aborted ∧ s.regs.mode ≠ m ∧ requireMode m s = .raise .sequenceError s) := by
  unfold requireMode
  by_cases h1 : s.regs.mode = .aborted
  · simp [h1]
  · by_cases h2 : s.regs.mode = m
    · exact Or.inr (Or.inl ⟨h1, h2, by rw [if_neg h1, if_pos h2]⟩)
    · exact Or.inr (Or.inr ⟨h1, h2, by rw [if_neg h1, if_neg h2]⟩)

/-! ## Settling -/

section
variable (r : State → Word) (s : State) (e : Status)
@[simp] theorem settle_go : settle r (.go s) = .next (respond .ok (r s) s) := rfl
@[simp] theorem settle_raise : settle r (.raise e s) = .next (raiseError e s) := rfl
@[simp] theorem settle_wait : settle r (.wait s) = .next s := rfl
@[simp] theorem settle_broken : settle r (.broken s) = .next s.forget := rfl
@[simp] theorem settle_endless : settle r (.endless s) = .fault .endlessLoop := rfl
end

/-- Everything a command can end in (60_exceptions.md R270, R285; 70_reset_and_hazards.md R321). -/
theorem settle_next {r : State → Word} {f : Flow} {t : State} (h : settle r f = .next t) :
    (∃ s, f = .go s ∧ t = respond .ok (r s) s) ∨ (∃ e s, f = .raise e s ∧ t = raiseError e s)
      ∨ (∃ s, f = .wait s ∧ t = s) ∨ (∃ s, f = .broken s ∧ t = s.forget) := by
  cases f with
  | go s => exact Or.inl ⟨s, rfl, by simpa using h.symm⟩
  | raise e s => exact Or.inr (Or.inl ⟨e, s, rfl, by simpa using h.symm⟩)
  | wait s => exact Or.inr (Or.inr (Or.inl ⟨s, rfl, by simpa using h.symm⟩))
  | broken s => exact Or.inr (Or.inr (Or.inr ⟨s, rfl, by simpa using h.symm⟩))
  | endless s => simp at h

/-! ## Stages -/

@[simp] theorem runStages_nil (s : State) : runStages [] s = .go s := rfl
@[simp] theorem runStages_cons (g : Stage) (rest : List Stage) (s : State) :
    runStages (g :: rest) s = (g.run (s.enterPhase g.phase)).andThen (runStages rest) := rfl

theorem runStages_append (xs ys : List Stage) (s : State) :
    runStages (xs ++ ys) s = (runStages xs s).andThen (runStages ys) := by
  induction xs generalizing s with
  | nil => rfl
  | cons g rest ih =>
    simp only [List.cons_append, runStages_cons, Flow.andThen_assoc]
    congr 1
    funext t
    exact ih t

end Sys2Proof.Machine
end

