-- ==== Sys2Proof/Laws/Update.lean ====
section
/-! SUPPORT. What the hooks and the two loops of UPDATE do when the partners complete their transfers: the steps of the
datapath, and for each direction the bits it moves (40_coder_state_machine.md R146 to R152, 41_encoder.md R182, R183,
42_decoder.md R221, R222). -/

namespace Sys2Proof.Machine

/-! ## Writing back what is there -/

theorem Regs.withInterval_self (r : Regs) : r.withInterval ⟨r.low.toNat, r.high.toNat⟩ = r := by
  simp [Regs.withInterval]

theorem State.writeInterval_self (s : State) : s.writeInterval s.interval = s := by
  simp only [State.writeInterval, State.interval, Regs.withInterval_self]
  rfl

/-- A state further on in a loop: other bounds, other counters, other bits moved, all else the same. -/
def State.moved (s : State) (i : Interval) (pending code : Nat) (h : Hidden) (source sink : List Bit)
    (events : List PortEvent) : State :=
  { s with
    regs := { s.regs.withInterval i with pending := pending, code := BitVec.ofNat 63 code }
    hidden := h
    source := source
    sink := s.sink ++ sink
    trace := s.trace ++ events }

theorem State.moved_self (s : State) : s.moved s.interval s.regs.pending s.code s.hidden s.source [] [] = s := by
  simp [State.moved, State.interval, State.code, Regs.withInterval]

section
variable (s : State) (i : Interval) (p c : Nat) (h : Hidden) (src snk : List Bit) (es : List PortEvent)
@[simp] theorem State.moved_w : (s.moved i p c h src snk es).w = s.w := rfl
@[simp] theorem State.moved_build : (s.moved i p c h src snk es).build = s.build := rfl
@[simp] theorem State.moved_mode : (s.moved i p c h src snk es).regs.mode = s.regs.mode := rfl
@[simp] theorem State.moved_pending : (s.moved i p c h src snk es).regs.pending = p := rfl
@[simp] theorem State.moved_partnerLimit : (s.moved i p c h src snk es).partnerLimit = s.partnerLimit := rfl
@[simp] theorem State.moved_source : (s.moved i p c h src snk es).source = src := rfl
@[simp] theorem State.moved_sink : (s.moved i p c h src snk es).sink = s.sink ++ snk := rfl
@[simp] theorem State.moved_trace : (s.moved i p c h src snk es).trace = s.trace ++ es := rfl
@[simp] theorem State.moved_hidden : (s.moved i p c h src snk es).hidden = h := rfl
@[simp] theorem State.moved_undefinedTable : (s.moved i p c h src snk es).undefinedTable = s.undefinedTable := rfl

theorem State.moved_interval {i : Interval} (hl : i.low < 2 ^ 63) (hh : i.high < 2 ^ 63) :
    (s.moved i p c h src snk es).interval = i := by
  cases i
  simp only [State.interval, State.moved, Regs.withInterval, BitVec.toNat_ofNat, Nat.mod_eq_of_lt hl,
    Nat.mod_eq_of_lt hh]

theorem State.moved_code {c : Nat} (hc : c < 2 ^ 63) : (s.moved i p c h src snk es).code = c := by
  simp only [State.code, State.moved, BitVec.toNat_ofNat, Nat.mod_eq_of_lt hc]

theorem State.moved_moved (i' : Interval) (p' c' : Nat) (h' : Hidden) (src' snk' : List Bit)
    (es' : List PortEvent) :
    (s.moved i p c h src snk es).moved i' p' c' h' src' snk' es'
      = s.moved i' p' c' h' src' (snk ++ snk') (es ++ es') := by
  simp [State.moved, Regs.withInterval, List.append_assoc]
end

theorem fullRange_le {w : Nat} (hw : w ≤ 63) : fullRange w ≤ 2 ^ 63 := Nat.pow_le_pow_right (by decide) hw

/-! ## The encoder's hooks -/

/-- `repeat n times: BitOut(b)`. -/
theorem emitPending_none (n : Nat) (b : Bit) : ∀ {s : State}, s.partnerLimit = none →
    ∃ h, emitPending n b s = .go (s.moved s.interval s.regs.pending s.code h s.source (List.replicate n b)
      ((List.replicate n b).map .bitOut)) := by
  induction n with
  | zero => intro s _; exact ⟨s.hidden, by simp [emitPending, State.moved_self]⟩
  | succ n ih =>
    intro s hs
    unfold emitPending
    rw [bitOut_none (by simpa using hs), Flow.andThen_go]
    obtain ⟨h, hh⟩ := ih (s := ((s.withHidden { s.hidden with pendingLeft := n + 1 }).withSink
      (s.sink ++ [b])).log (.bitOut b)) (by simpa using hs)
    refine ⟨h, ?_⟩
    simp only [State.withHidden_sink]
    rw [hh]
    simp [State.moved, State.interval, State.code, Regs.withInterval, List.replicate_succ]

/-- The encoder's SHIFT_HOOK: the top bit of LOW, then PENDING bits of the opposite polarity, PENDING <- 0 (R182). -/
theorem encShiftHook_none {s : State} (hs : s.partnerLimit = none) :
    ∃ h, encShiftHook s = .go (s.moved s.interval 0 s.code h s.source
      (topBit s.w s.interval.low :: List.replicate s.regs.pending (!topBit s.w s.interval.low))
      ((topBit s.w s.interval.low :: List.replicate s.regs.pending (!topBit s.w s.interval.low)).map .bitOut)) := by
  unfold encShiftHook encEmission
  rw [bitOut_none hs, Flow.andThen_go]
  obtain ⟨h, hh⟩ := emitPending_none s.regs.pending (!topBit s.w s.interval.low)
    (s := ((((s.withSink (s.sink ++ [topBit s.w s.interval.low])).log
      (.bitOut (topBit s.w s.interval.low))).enterPhase .pendingEmission))) (by simpa using hs)
  refine ⟨{ h with phase := .renorm }, ?_⟩
  simp only [State.log_regs, State.withSink_regs, State.log_w, State.withSink_w, State.log_interval,
    State.withSink_interval]
  rw [hh]
  simp [State.moved, State.interval, State.code, Regs.withInterval, State.enterPhase, State.withHidden,
    State.writePending, State.withRegs]

/-! ## The E1/E2 loop -/

/-- The encoder's E1/E2 loop: `k` steps of the datapath, the bits of R182, PENDING 0 if there was a step. -/
theorem encRenorm_none {k n : Nat} : ∀ {s : State} {j : Interval}, s.partnerLimit = none → s.regs.mode = .enc →
    1 ≤ s.w → s.w ≤ 63 → s.interval.low ≤ s.interval.high → s.interval.high < fullRange s.w →
    RenormRuns s.w s.interval k j → k ≤ n →
    ∃ h, renormLoop n s = .go (s.moved j (if k = 0 then s.regs.pending else 0) s.code h s.source
      (emittedBits s.w k s.interval s.regs.pending)
      ((emittedBits s.w k s.interval s.regs.pending).map .bitOut)) := by
  induction k generalizing n with
  | zero =>
    intro s j hs hm hw hw' hle hh hrun _
    rcases runsTo_inv hrun with ⟨_, rfl, hd⟩ | ⟨_, hc, _⟩
    · refine ⟨s.hidden, ?_⟩
      have : renormLoop n s = .go s := by cases n <;> simp [renormLoop, hd]
      simp [this, emittedBits, State.moved_self]
    · omega
  | succ k ih =>
    intro s j hs hm hw hw' hle hh hrun hkn
    rcases runsTo_inv hrun with ⟨hc, _⟩ | ⟨m, hk, hd, hrun'⟩
    · omega
    · obtain rfl : m = k := by omega
      obtain ⟨n, rfl⟩ : ∃ n', n = n' + 1 := ⟨n - 1, by omega⟩
      obtain ⟨h, hh'⟩ := encShiftHook_none hs
      unfold renormLoop
      rw [if_pos hd]
      simp only [shiftHook, hm]
      rw [hh', Flow.andThen_go]
      obtain ⟨k1, k2, k3⟩ := renormShift_keeps hw hle hh hd
      have h63 := fullRange_le hw'
      have hi : (s.moved s.interval 0 s.code h s.source
          (topBit s.w s.interval.low :: List.replicate s.regs.pending (!topBit s.w s.interval.low))
          ((topBit s.w s.interval.low :: List.replicate s.regs.pending (!topBit s.w s.interval.low)).map
            .bitOut)).interval = s.interval := State.moved_interval _ _ _ _ _ _ _ s.interval_low_lt s.interval_high_lt
      have hshift : renormShift (s.moved s.interval 0 s.code h s.source
          (topBit s.w s.interval.low :: List.replicate s.regs.pending (!topBit s.w s.interval.low))
          ((topBit s.w s.interval.low :: List.replicate s.regs.pending (!topBit s.w s.interval.low)).map .bitOut))
          = s.moved (s.interval.renormShift s.w) 0 s.code h s.source
          (topBit s.w s.interval.low :: List.replicate s.regs.pending (!topBit s.w s.interval.low))
          ((topBit s.w s.interval.low :: List.replicate s.regs.pending (!topBit s.w s.interval.low)).map .bitOut) := by
        unfold renormShift
        rw [hi]
        rfl
      rw [hshift]
      have hint := State.moved_interval s 0 s.code h s.source
        (topBit s.w s.interval.low :: List.replicate s.regs.pending (!topBit s.w s.interval.low))
        ((topBit s.w s.interval.low :: List.replicate s.regs.pending (!topBit s.w s.interval.low)).map .bitOut)
        (i := s.interval.renormShift s.w) (by omega) (by omega)
      obtain ⟨h2, hh2⟩ := ih (n := n) (s := s.moved (s.interval.renormShift s.w) 0 s.code h s.source
          (topBit s.w s.interval.low :: List.replicate s.regs.pending (!topBit s.w s.interval.low))
          ((topBit s.w s.interval.low :: List.replicate s.regs.pending (!topBit s.w s.interval.low)).map .bitOut))
        (j := j) (by simpa using hs) (by simpa using hm) (by simpa using hw) (by simpa using hw')
        (by rw [hint]; exact k1) (by rw [hint]; simpa using k2) (by rw [hint]; exact hrun') (by omega)
      refine ⟨h2, ?_⟩
      rw [hh2, State.moved_moved, State.moved_code s _ _ _ _ _ _ s.code_lt, hint]
      simp [emittedBits]

/-! ## The encoder's E3 loop -/

theorem encUnderflowHook_room {s : State} (h : s.regs.pending ≠ s.build.pendingMax) :
    encUnderflowHook s = .go (s.writePending (s.regs.pending + 1)) := by
  have : (s.regs.pending != s.build.pendingMax) = true := by simpa using h
  rw [encUnderflowHook, this, check_true, Flow.andThen_go]

theorem encUnderflowHook_full {s : State} (h : s.regs.pending = s.build.pendingMax) :
    encUnderflowHook s = .raise .underflowOverflow s := by
  have : (s.regs.pending != s.build.pendingMax) = false := by simpa using h
  rw [encUnderflowHook, this, check_false, Flow.andThen_raise]

/-- The encoder's E3 loop: `k` steps of the datapath and PENDING + k, or UNDERFLOW_OVERFLOW at the step that would take
PENDING past PENDING_MAX, that step's shift not applied (41_encoder.md R183, 60_exceptions.md R275). -/
theorem encUnderflow_run {k n : Nat} : ∀ {s : State} {j : Interval}, s.regs.mode = .enc → 1 ≤ s.w → s.w ≤ 63 →
    s.interval.low < halfRange s.w → halfRange s.w ≤ s.interval.high → s.interval.high < fullRange s.w →
    UnderflowRuns s.w s.interval k j → k ≤ n → s.regs.pending ≤ s.build.pendingMax →
    underflowLoop n s =
      if s.regs.pending + k ≤ s.build.pendingMax then
        .go (s.moved j (s.regs.pending + k) s.code s.hidden s.source [] [])
      else .raise .underflowOverflow
        (s.moved ((Interval.underflowShift s.w)^[s.build.pendingMax - s.regs.pending] s.interval) s.build.pendingMax
          s.code s.hidden s.source [] []) := by
  induction k generalizing n with
  | zero =>
    intro s j hm hw hw' hl hmid hh hrun _ hp
    rcases runsTo_inv hrun with ⟨_, rfl, hd⟩ | ⟨_, hc, _⟩
    · have : underflowLoop n s = .go s := by cases n <;> simp [underflowLoop, hd]
      simp [this, hp, State.moved_self]
    · omega
  | succ k ih =>
    intro s j hm hw hw' hl hmid hh hrun hkn hp
    rcases runsTo_inv hrun with ⟨hc, _⟩ | ⟨m, hk, hd, hrun'⟩
    · omega
    · obtain rfl : m = k := by omega
      obtain ⟨n, rfl⟩ : ∃ n', n = n' + 1 := ⟨n - 1, by omega⟩
      have hw2 : 2 ≤ s.w := by
        by_contra hc
        have : s.w = 1 := by omega
        rw [this, underflowDue_one] at hd
        exact absurd hd (by simp)
      unfold underflowLoop
      rw [if_pos hd]
      simp only [underflowHook, hm]
      by_cases hfull : s.regs.pending = s.build.pendingMax
      · rw [encUnderflowHook_full hfull, Flow.andThen_raise, if_neg (by omega), ← hfull]
        simp [State.moved_self]
      · rw [encUnderflowHook_room hfull, Flow.andThen_go]
        obtain ⟨k1, k2, k3, _⟩ := underflowShift_keeps hw2 (by omega) hl hmid hh hd
        have h63 := fullRange_le hw'
        have hf := fullRange_eq_two_half hw
        have hshift : underflowShift (s.writePending (s.regs.pending + 1))
            = s.moved (s.interval.underflowShift s.w) (s.regs.pending + 1) s.code s.hidden s.source [] [] := by
          simp [underflowShift, State.moved, State.writeInterval, State.withRegs, Regs.withInterval, State.code]
        rw [hshift]
        have hint := State.moved_interval s (s.regs.pending + 1) s.code s.hidden s.source [] []
          (i := s.interval.underflowShift s.w) (by omega) (by omega)
        have := ih (n := n)
          (s := s.moved (s.interval.underflowShift s.w) (s.regs.pending + 1) s.code s.hidden s.source [] [])
          (j := j) (by simpa using hm) (by simpa using hw) (by simpa using hw') (by rw [hint]; exact k1)
          (by rw [hint]; exact k2) (by rw [hint]; exact k3) (by rw [hint]; exact hrun') (by omega)
          (by simp only [State.moved_pending, State.moved_build]; omega)
        rw [this, hint]
        simp only [State.moved_pending, State.moved_build, State.moved_moved, State.moved_w, State.moved_hidden,
          State.moved_source, List.append_nil, State.moved_code s _ _ _ _ _ _ s.code_lt]
        by_cases hroom : s.regs.pending + (m + 1) ≤ s.build.pendingMax
        · rw [if_pos (by omega), if_pos hroom]
          congr 2
          omega
        · rw [if_neg (by omega), if_neg hroom]
          have : s.build.pendingMax - s.regs.pending = s.build.pendingMax - (s.regs.pending + 1) + 1 := by omega
          rw [this, Function.iterate_succ_apply]

/-! ## What the decoder reads -/

theorem bitsRead_succ (n : Nat) (items : List Bit) :
    bitsRead (n + 1) items = items.headD false :: bitsRead n items.tail := by
  cases items with
  | nil => simp [bitsRead, List.range_succ_eq_map, Function.comp_def]
  | cons b rest => simp [bitsRead, List.range_succ_eq_map, Function.comp_def]

theorem itemsRead_succ (n : Nat) (items : List Bit) :
    itemsRead (n + 1) items = (bitSourceStep items).1 :: itemsRead n items.tail := by
  cases items with
  | nil => simp [itemsRead, bitSourceStep, List.range_succ_eq_map, Function.comp_def]
  | cons b rest => simp [itemsRead, bitSourceStep, List.range_succ_eq_map, Function.comp_def]

theorem or_bit_lt {n : Nat} (w x : Nat) (b : Bit) (hw : 1 ≤ w) (hx : x < fullRange w) (hn : n = x ||| b.toNat) :
    n < fullRange w := by
  subst hn
  refine Nat.or_lt_two_pow hx ?_
  have : 2 ≤ 2 ^ w := by
    calc 2 = 2 ^ 1 := rfl
      _ ≤ 2 ^ w := Nat.pow_le_pow_right (by decide) hw
  have : b.toNat ≤ 1 := Bool.toNat_le b
  omega

theorem codeShift_lt {w : Nat} (hw : 1 ≤ w) (c : Nat) (b : Bit) : codeShift w c b < fullRange w :=
  or_bit_lt w _ b hw (by
    have := Nat.and_le_right (n := c <<< 1) (m := mask w)
    have := mask_lt w
    omega) rfl

theorem codeUnderflow_lt {w : Nat} (hw : 1 ≤ w) (c : Nat) (b : Bit) : codeUnderflow w c b < fullRange w := by
  refine or_bit_lt w _ b hw (Nat.or_lt_two_pow ?_ ?_) rfl
  · have := Nat.and_le_right (n := c) (m := halfRange w)
    have := fullRange_eq_two_half hw
    have := fullRange_pos w
    simp only [fullRange] at *
    omega
  · have h1 := Nat.and_le_right (n := c <<< 1) (m := mask w >>> 1)
    have h2 : mask w >>> 1 ≤ mask w := Nat.shiftRight_le _ _
    have := mask_lt w
    simp only [fullRange] at *
    omega

/-! ## The decoder's loops -/

/-- The decoder's E1/E2 loop: `k` steps of the datapath, one item read at each (42_decoder.md R221). -/
theorem decRenorm_none {k n : Nat} : ∀ {s : State} {j : Interval}, s.partnerLimit = none → s.regs.mode = .dec →
    1 ≤ s.w → s.w ≤ 63 → s.interval.low ≤ s.interval.high → s.interval.high < fullRange s.w →
    RenormRuns s.w s.interval k j → k ≤ n →
    renormLoop n s = .go (s.moved j s.regs.pending ((bitsRead k s.source).foldl (codeShift s.w) s.code) s.hidden
      (s.source.drop k) [] ((itemsRead k s.source).map .bitIn)) := by
  induction k generalizing n with
  | zero =>
    intro s j hs hm hw hw' hle hh hrun _
    rcases runsTo_inv hrun with ⟨_, rfl, hd⟩ | ⟨_, hc, _⟩
    · have : renormLoop n s = .go s := by cases n <;> simp [renormLoop, hd]
      simp [this, bitsRead, itemsRead, State.moved_self]
    · omega
  | succ k ih =>
    intro s j hs hm hw hw' hle hh hrun hkn
    rcases runsTo_inv hrun with ⟨hc, _⟩ | ⟨m, hk, hd, hrun'⟩
    · omega
    · obtain rfl : m = k := by omega
      obtain ⟨n, rfl⟩ : ∃ n', n = n' + 1 := ⟨n - 1, by omega⟩
      unfold renormLoop
      rw [if_pos hd]
      simp only [shiftHook, hm, decShiftHook]
      rw [readCodeBit_none hs, Flow.andThen_go]
      obtain ⟨k1, k2, _⟩ := renormShift_keeps hw hle hh hd
      have h63 := fullRange_le hw'
      have hc := codeShift_lt hw s.code (s.source.headD false)
      have hshift : renormShift ((((s.withSource s.source.tail).log (.bitIn (bitSourceStep s.source).1))).writeCode
            (codeShift s.w s.code (s.source.headD false)))
          = s.moved (s.interval.renormShift s.w) s.regs.pending (codeShift s.w s.code (s.source.headD false)) s.hidden
            s.source.tail [] [.bitIn (bitSourceStep s.source).1] := by
        simp [renormShift, State.moved, State.writeInterval, State.withRegs, Regs.withInterval, State.writeCode,
          State.withSource, State.log, State.w, State.interval]
      simp only [State.log_w, State.withSource_w, State.log_code, State.withSource_code]
      rw [hshift]
      have hint := State.moved_interval s s.regs.pending (codeShift s.w s.code (s.source.headD false)) s.hidden
        s.source.tail [] [.bitIn (bitSourceStep s.source).1] (i := s.interval.renormShift s.w) (by omega) (by omega)
      have := ih (n := n) (j := j)
        (s := s.moved (s.interval.renormShift s.w) s.regs.pending (codeShift s.w s.code (s.source.headD false)) s.hidden
          s.source.tail [] [.bitIn (bitSourceStep s.source).1])
        (by simpa using hs) (by simpa using hm) (by simpa using hw) (by simpa using hw') (by rw [hint]; exact k1)
        (by rw [hint]; exact k2) (by rw [hint]; exact hrun') (by omega)
      rw [this, State.moved_moved, State.moved_code s _ _ _ _ _ _ (by omega), bitsRead_succ, itemsRead_succ]
      simp

/-- The decoder's E3 loop: `k` steps of the datapath, one item read at each (42_decoder.md R222). -/
theorem decUnderflow_none {k n : Nat} : ∀ {s : State} {j : Interval}, s.partnerLimit = none → s.regs.mode = .dec →
    1 ≤ s.w → s.w ≤ 63 → s.interval.low < halfRange s.w → halfRange s.w ≤ s.interval.high →
    s.interval.high < fullRange s.w → UnderflowRuns s.w s.interval k j → k ≤ n →
    underflowLoop n s = .go (s.moved j s.regs.pending ((bitsRead k s.source).foldl (codeUnderflow s.w) s.code) s.hidden
      (s.source.drop k) [] ((itemsRead k s.source).map .bitIn)) := by
  induction k generalizing n with
  | zero =>
    intro s j hs hm hw hw' hl hmid hh hrun _
    rcases runsTo_inv hrun with ⟨_, rfl, hd⟩ | ⟨_, hc, _⟩
    · have : underflowLoop n s = .go s := by cases n <;> simp [underflowLoop, hd]
      simp [this, bitsRead, itemsRead, State.moved_self]
    · omega
  | succ k ih =>
    intro s j hs hm hw hw' hl hmid hh hrun hkn
    rcases runsTo_inv hrun with ⟨hc, _⟩ | ⟨m, hk, hd, hrun'⟩
    · omega
    · obtain rfl : m = k := by omega
      obtain ⟨n, rfl⟩ : ∃ n', n = n' + 1 := ⟨n - 1, by omega⟩
      have hw2 : 2 ≤ s.w := by
        by_contra hc
        have : s.w = 1 := by omega
        rw [this, underflowDue_one] at hd
        exact absurd hd (by simp)
      unfold underflowLoop
      rw [if_pos hd]
      simp only [underflowHook, hm, decUnderflowHook]
      rw [readCodeBit_none hs, Flow.andThen_go]
      obtain ⟨k1, k2, k3, _⟩ := underflowShift_keeps hw2 (by omega) hl hmid hh hd
      have h63 := fullRange_le hw'
      have hf := fullRange_eq_two_half hw
      have hc := codeUnderflow_lt hw s.code (s.source.headD false)
      have hshift : underflowShift ((((s.withSource s.source.tail).log (.bitIn (bitSourceStep s.source).1))).writeCode
            (codeUnderflow s.w s.code (s.source.headD false)))
          = s.moved (s.interval.underflowShift s.w) s.regs.pending (codeUnderflow s.w s.code (s.source.headD false))
            s.hidden s.source.tail [] [.bitIn (bitSourceStep s.source).1] := by
        simp [underflowShift, State.moved, State.writeInterval, State.withRegs, Regs.withInterval, State.writeCode,
          State.withSource, State.log, State.w, State.interval]
      simp only [State.log_w, State.withSource_w, State.log_code, State.withSource_code]
      rw [hshift]
      have hint := State.moved_interval s s.regs.pending (codeUnderflow s.w s.code (s.source.headD false)) s.hidden
        s.source.tail [] [.bitIn (bitSourceStep s.source).1] (i := s.interval.underflowShift s.w) (by omega) (by omega)
      have := ih (n := n) (j := j)
        (s := s.moved (s.interval.underflowShift s.w) s.regs.pending (codeUnderflow s.w s.code (s.source.headD false))
          s.hidden s.source.tail [] [.bitIn (bitSourceStep s.source).1])
        (by simpa using hs) (by simpa using hm) (by simpa using hw) (by simpa using hw') (by rw [hint]; exact k1)
        (by rw [hint]; exact k2) (by rw [hint]; exact k3) (by rw [hint]; exact hrun') (by omega)
      rw [this, State.moved_moved, State.moved_code s _ _ _ _ _ _ (by omega), bitsRead_succ, itemsRead_succ]
      simp

end Sys2Proof.Machine
end

