-- ==== Sys2Proof/Laws/Decoder.lean ====
section
/-! SUPPORT. What the initial read and the binary search do when the partners complete their transfers
(42_decoder.md R210, R215). -/

namespace Sys2Proof.Machine

/-! ## The initial read -/

theorem codeInitial_eq (code : Nat) (b : Bit) : codeInitial code b = 2 * code + b.toNat := by
  have hb := Bool.toNat_lt b
  have := Nat.shiftLeft_add_eq_or_of_lt (i := 1) (by omega : b.toNat < 2 ^ 1) code
  rw [codeInitial, ← this, Nat.shiftLeft_eq]
  omega

/-- `repeat n times: CODE <- (CODE << 1) or readCodeBit()`, from a CODE of at most `m` bits. -/
theorem readInitial_none {n m : Nat} : ∀ {s : State}, s.partnerLimit = none → s.code < 2 ^ m → m + n ≤ 63 →
    readInitial n s = .go (s.moved s.interval s.regs.pending ((bitsRead n s.source).foldl codeInitial s.code)
      { s.hidden with initBits := s.hidden.initBits + n } (s.source.drop n) [] ((itemsRead n s.source).map .bitIn)) := by
  induction n generalizing m with
  | zero =>
    intro s _ _ _
    exact congrArg Flow.go s.moved_self.symm
  | succ n ih =>
    intro s hs hc hmn
    unfold readInitial
    rw [readCodeBit_none hs]
    have hb := Bool.toNat_lt (s.source.headD false)
    have hlt : codeInitial s.code (s.source.headD false) < 2 ^ (m + 1) := by
      rw [codeInitial_eq, Nat.pow_succ]
      omega
    have h63 : (2 : Nat) ^ (m + 1) ≤ 2 ^ 63 := Nat.pow_le_pow_right (by decide) (by omega)
    have hstate : (((s.withSource s.source.tail).log (.bitIn (bitSourceStep s.source).1)).writeCode
          (codeInitial s.code (s.source.headD false))).withHidden { s.hidden with initBits := s.hidden.initBits + 1 }
        = s.moved s.interval s.regs.pending (codeInitial s.code (s.source.headD false))
          { s.hidden with initBits := s.hidden.initBits + 1 } s.source.tail [] [.bitIn (bitSourceStep s.source).1] := by
      simp [State.moved, State.withRegs, Regs.withInterval, State.writeCode, State.withSource, State.log,
        State.interval, State.withHidden]
    simp only [State.log_code, State.withSource_code, State.log_hidden, State.withSource_hidden]
    rw [hstate, ih (m := m + 1) (by simpa using hs) (by rw [State.moved_code _ _ _ _ _ _ _ (by omega)]; exact hlt)
      (by omega), State.moved_moved, State.moved_code _ _ _ _ _ _ _ (by omega),
      State.moved_interval _ _ _ _ _ _ _ s.interval_low_lt s.interval_high_lt, bitsRead_succ, itemsRead_succ]
    simp [Nat.add_left_comm, Nat.add_comm]

/-! ## The binary search -/

/-- The search after the answer to TableLow(mid). -/
def State.probed (s : State) (mid : Nat) : State :=
  { s with
    hidden := ({ s.hidden with mid := mid } : Hidden).narrowSearch (s.table.low (BitVec.ofNat 64 mid))
    trace := s.trace ++ [.query 1 (BitVec.ofNat 64 mid) (s.table.low (BitVec.ofNat 64 mid))] }

theorem State.probed_below {s : State} {mid : Nat} (h : s.hidden.value < (s.table.low (BitVec.ofNat 64 mid)).toNat) :
    (s.probed mid).hidden = { s.hidden with mid := mid, stop := mid } := if_pos h

theorem State.probed_above {s : State} {mid : Nat} (h : ¬ s.hidden.value < (s.table.low (BitVec.ofNat 64 mid)).toNat) :
    (s.probed mid).hidden = { s.hidden with mid := mid, start := mid } := if_neg h

/-- One iteration of the search. -/
theorem searchLoop_probe {n : Nat} {s : State} (hs : s.partnerLimit = none)
    (hd : searchGoesOn s.hidden.start s.hidden.stop = true) :
    searchLoop (n + 1) s = searchLoop n (s.probed (midpoint s.hidden.start s.hidden.stop)) := by
  rw [searchLoop, if_pos hd]
  simp only []
  rw [tableQuery_none (by simpa using hs)]
  rfl

theorem searchLoop_done {n : Nat} {s : State} (h : s.hidden.start + 1 = s.hidden.stop) : searchLoop n s = .go s := by
  have : searchGoesOn s.hidden.start s.hidden.stop = false := by simp [searchGoesOn, h]
  cases n <;> simp [searchLoop, this]

/-- A state the search has brought to its end, at `found`. -/
def State.searched (s : State) (found mid : Nat) (mids : List Nat) : State :=
  { s with
    hidden := { s.hidden with start := found, stop := found + 1, mid := mid }
    trace := s.trace ++ mids.map fun m => .query 1 (BitVec.ofNat 64 m) (s.table.low (BitVec.ofNat 64 m)) }

theorem State.searched_self {s : State} (h : s.hidden.start + 1 = s.hidden.stop) :
    s.searched s.hidden.start s.hidden.mid [] = s := by
  simp [State.searched, h]

theorem State.searched_probed (s : State) (m found mid : Nat) (mids : List Nat) :
    (s.probed m).searched found mid mids = s.searched found mid (m :: mids) := by
  have : ∀ h : Hidden, ∀ a, { h.narrowSearch a with start := found, stop := found + 1, mid := mid }
      = { h with start := found, stop := found + 1, mid := mid } := by
    intro h a
    unfold Hidden.narrowSearch
    split <;> rfl
  simp [State.searched, State.probed, this]

/-- Everything the search does: one query an iteration, at the midpoints of `SearchRuns`, all of them between its
bounds, and it ends at neighbours, `low` at the lower one at most value and at the upper one above value unless that is
where it began. -/
theorem searchLoop_none {n : Nat} : ∀ {s : State}, s.partnerLimit = none → s.hidden.start < s.hidden.stop →
    s.hidden.stop - s.hidden.start ≤ 2 ^ n →
    ∃ (found mid : Nat) (mids : List Nat), searchLoop n s = .go (s.searched found mid mids)
      ∧ SearchRuns s.table s.hidden.value s.hidden.start s.hidden.stop mids found
      ∧ mids.length ≤ n ∧ (∀ m ∈ mids, s.hidden.start < m ∧ m < s.hidden.stop)
      ∧ s.hidden.start ≤ found ∧ found < s.hidden.stop
      ∧ (found = s.hidden.start ∨ (s.table.low (BitVec.ofNat 64 found)).toNat ≤ s.hidden.value)
      ∧ (found + 1 = s.hidden.stop ∨ s.hidden.value < (s.table.low (BitVec.ofNat 64 (found + 1))).toNat) := by
  have done : ∀ {n} {s : State}, s.hidden.start + 1 = s.hidden.stop →
      ∃ (found mid : Nat) (mids : List Nat), searchLoop n s = .go (s.searched found mid mids)
        ∧ SearchRuns s.table s.hidden.value s.hidden.start s.hidden.stop mids found
        ∧ mids.length ≤ n ∧ (∀ m ∈ mids, s.hidden.start < m ∧ m < s.hidden.stop)
        ∧ s.hidden.start ≤ found ∧ found < s.hidden.stop
        ∧ (found = s.hidden.start ∨ (s.table.low (BitVec.ofNat 64 found)).toNat ≤ s.hidden.value)
        ∧ (found + 1 = s.hidden.stop ∨ s.hidden.value < (s.table.low (BitVec.ofNat 64 (found + 1))).toNat) :=
    fun {n s} h => ⟨s.hidden.start, s.hidden.mid, [], by rw [searchLoop_done h, State.searched_self h], h ▸ .done,
      Nat.zero_le n,
      by simp, Nat.le_refl _, by omega, Or.inl rfl, Or.inl h⟩
  induction n with
  | zero =>
    intro s _ hlt hn
    exact done (by omega)
  | succ n ih =>
    intro s hs hlt hn
    by_cases hd : s.hidden.start + 1 < s.hidden.stop
    · obtain ⟨mid, hmid⟩ : ∃ mid, mid = midpoint s.hidden.start s.hidden.stop := ⟨_, rfl⟩
      have hm : mid = (s.hidden.start + s.hidden.stop) / 2 := hmid
      rw [searchLoop_probe hs (by simpa [searchGoesOn] using hd), ← hmid]
      rw [Nat.pow_succ] at hn
      by_cases hv : s.hidden.value < (s.table.low (BitVec.ofNat 64 mid)).toNat
      · have hp := State.probed_below hv
        obtain ⟨found, mid', mids, h1, hr, h2, h3, h4, h5, h6, h7⟩ := ih (s := s.probed mid) hs
          (by rw [hp]; simp only []; omega) (by rw [hp]; simp only []; omega)
        rw [hp] at hr h3 h4 h5 h6 h7
        refine ⟨found, mid', mid :: mids, by rw [h1, State.searched_probed], ?_, by simpa using h2, ?_, h4,
          by simp only [] at h5; omega, h6, ?_⟩
        · subst hm
          exact .lowerHalf hd hv hr
        · intro m hmem
          rcases List.mem_cons.1 hmem with rfl | hmem
          · omega
          · have := h3 m hmem
            simp only [] at this
            omega
        · rcases h7 with h7 | h7
          · simp only [] at h7
            exact Or.inr (by rw [h7]; exact hv)
          · exact Or.inr h7
      · have hp := State.probed_above hv
        obtain ⟨found, mid', mids, h1, hr, h2, h3, h4, h5, h6, h7⟩ := ih (s := s.probed mid) hs
          (by rw [hp]; simp only []; omega) (by rw [hp]; simp only []; omega)
        rw [hp] at hr h3 h4 h5 h6 h7
        refine ⟨found, mid', mid :: mids, by rw [h1, State.searched_probed], ?_, by simpa using h2, ?_,
          by simp only [] at h4; omega, h5, ?_, h7⟩
        · subst hm
          exact .upperHalf hd (Nat.le_of_not_lt hv) hr
        · intro m hmem
          rcases List.mem_cons.1 hmem with rfl | hmem
          · omega
          · have := h3 m hmem
            simp only [] at this
            omega
        · rcases h6 with h6 | h6
          · simp only [] at h6
            exact Or.inr (by rw [h6]; exact Nat.le_of_not_lt hv)
          · exact Or.inr h6
    · exact done (by omega)

end Sys2Proof.Machine
end

