-- ==== Sys2Proof/Laws/Frame.lean ====
section
/-! SUPPORT. What no part of any command touches, however it ends: proved once for each part, so that the frame of a
command is read off it. -/

namespace Sys2Proof.Machine

/-- `t` is `s` some way on in the same command: the surroundings are the same, nothing has been answered yet, and the
port events, the bits in the sink and the items of the source have only gone forward. -/
structure Continues (s t : State) : Prop where
  build : t.build = s.build
  resetAsserted : t.resetAsserted = s.resetAsserted
  table : t.table = s.table
  commands : t.commands = s.commands
  schedule : t.schedule = s.schedule
  undefinedTable : t.undefinedTable = s.undefinedTable
  draws : t.draws = s.draws
  current : t.current = s.current
  response : t.response = s.response
  busy : t.regs.busy = s.regs.busy
  lastStatus : t.regs.lastStatus = s.regs.lastStatus
  trace : s.trace <+: t.trace
  sink : s.sink <+: t.sink
  source : t.source <:+ s.source

theorem Continues.refl (s : State) : Continues s s :=
  ⟨rfl, rfl, rfl, rfl, rfl, rfl, rfl, rfl, rfl, rfl, rfl, List.prefix_rfl, List.prefix_rfl, List.suffix_rfl⟩

theorem Continues.trans {s t u : State} (h : Continues s t) (k : Continues t u) : Continues s u :=
  ⟨k.build.trans h.build, k.resetAsserted.trans h.resetAsserted, k.table.trans h.table, k.commands.trans h.commands,
    k.schedule.trans h.schedule, k.undefinedTable.trans h.undefinedTable, k.draws.trans h.draws,
    k.current.trans h.current, k.response.trans h.response, k.busy.trans h.busy, k.lastStatus.trans h.lastStatus,
    h.trace.trans k.trace, h.sink.trans k.sink, k.source.trans h.source⟩

/-- A part of a command goes on from `s` only in the sense of `Continues`, however it ends. -/
def Within (s : State) (f : Flow) : Prop := f.Sat (.always (Continues s))

theorem Within.go {s t : State} (h : Continues s t) : Within s (.go t) := h

theorem Within.after {s t : State} {f : Flow} (h : Continues s t) (hf : Within t f) : Within s f :=
  Flow.Sat.mono (q := .always (Continues s)) hf (fun _ => h.trans) (fun _ _ => h.trans) (fun _ => h.trans)
    (fun _ => h.trans) (fun _ => h.trans)

theorem Within.andThen {s : State} {f : Flow} {k : State → Flow} (h : Within s f) (hk : ∀ t, Within t (k t)) :
    Within s (f.andThen k) := by
  cases f with
  | go t => exact Within.after h (hk t)
  | raise e t => exact h
  | wait t => exact h
  | broken t => exact h
  | endless t => exact h

/-! ## Updates of one register or of the hidden state -/

section
variable (s : State)
theorem Continues.withHidden (h : Hidden) : Continues s (s.withHidden h) :=
  ⟨rfl, rfl, rfl, rfl, rfl, rfl, rfl, rfl, rfl, rfl, rfl, List.prefix_rfl, List.prefix_rfl, List.suffix_rfl⟩
theorem Continues.writeInterval (i : Interval) : Continues s (s.writeInterval i) :=
  ⟨rfl, rfl, rfl, rfl, rfl, rfl, rfl, rfl, rfl, rfl, rfl, List.prefix_rfl, List.prefix_rfl, List.suffix_rfl⟩
theorem Continues.writeCode (n : Nat) : Continues s (s.writeCode n) :=
  ⟨rfl, rfl, rfl, rfl, rfl, rfl, rfl, rfl, rfl, rfl, rfl, List.prefix_rfl, List.prefix_rfl, List.suffix_rfl⟩
theorem Continues.writePending (n : Nat) : Continues s (s.writePending n) :=
  ⟨rfl, rfl, rfl, rfl, rfl, rfl, rfl, rfl, rfl, rfl, rfl, List.prefix_rfl, List.prefix_rfl, List.suffix_rfl⟩
theorem Continues.writeMode (m : Mode) : Continues s (s.writeMode m) :=
  ⟨rfl, rfl, rfl, rfl, rfl, rfl, rfl, rfl, rfl, rfl, rfl, List.prefix_rfl, List.prefix_rfl, List.suffix_rfl⟩
theorem Continues.opened (w : Nat) : Continues s (s.withRegs (s.regs.opened w)) :=
  ⟨rfl, rfl, rfl, rfl, rfl, rfl, rfl, rfl, rfl, rfl, rfl, List.prefix_rfl, List.prefix_rfl, List.suffix_rfl⟩
theorem Continues.withLimit (n : Option Nat) : Continues s (s.withLimit n) :=
  ⟨rfl, rfl, rfl, rfl, rfl, rfl, rfl, rfl, rfl, rfl, rfl, List.prefix_rfl, List.prefix_rfl, List.suffix_rfl⟩
theorem Continues.log (e : PortEvent) : Continues s (s.log e) :=
  ⟨rfl, rfl, rfl, rfl, rfl, rfl, rfl, rfl, rfl, rfl, rfl, List.prefix_append _ _, List.prefix_rfl, List.suffix_rfl⟩
theorem Continues.sinkBit (b : Bit) : Continues s (s.withSink (bitSinkStep s.sink b)) :=
  ⟨rfl, rfl, rfl, rfl, rfl, rfl, rfl, rfl, rfl, rfl, rfl, List.prefix_rfl, List.prefix_append _ _, List.suffix_rfl⟩
theorem Continues.sourceItem : Continues s (s.withSource (bitSourceStep s.source).2) :=
  ⟨rfl, rfl, rfl, rfl, rfl, rfl, rfl, rfl, rfl, rfl, rfl, List.prefix_rfl, List.prefix_rfl, by
    rw [State.withSource_source]
    cases s.source with
    | nil => exact List.suffix_rfl
    | cons b rest => exact List.suffix_cons _ _⟩
end

/-! ## Checks and transfers -/

theorem check_within (b : Bool) (e : Status) (s : State) : Within s (check b e s) := by
  rcases check_cases b e s with ⟨_, h⟩ | ⟨_, h⟩ <;> rw [h] <;> exact Continues.refl s

theorem judgeContract_within (b : Bool) (s : State) : Within s (judgeContract b s) := by
  rcases judgeContract_cases b s with ⟨_, h⟩ | ⟨_, h⟩ <;> rw [h] <;> exact Continues.refl s

theorem requireMode_within (m : Mode) (s : State) : Within s (requireMode m s) := by
  rcases requireMode_cases m s with ⟨_, h⟩ | ⟨_, _, h⟩ | ⟨_, _, h⟩ <;> rw [h] <;> exact Continues.refl s

theorem transfer_within {s : State} {k : State → Flow} (hk : ∀ t, Continues s t → Within s (k t)) :
    Within s (transfer s k) := by
  rcases transfer_cases s k with ⟨_, h⟩ | ⟨_, h⟩ | ⟨n, _, h⟩ <;> rw [h]
  · exact Continues.refl s
  · exact hk s (Continues.refl s)
  · exact hk _ (Continues.withLimit s _)

theorem tableQuery_within {q : Query} {s : State} {k : Word → State → Flow} (hk : ∀ a t, Within t (k a t)) :
    Within s (tableQuery q s k) :=
  transfer_within fun t ht => Within.after (ht.trans (Continues.log t _)) (hk _ _)

theorem bitOut_within (b : Bit) (s : State) : Within s (bitOut b s) :=
  transfer_within fun t ht => Within.go (ht.trans ((Continues.sinkBit t b).trans (Continues.log _ _)))

theorem readCodeBit_within {s : State} {k : Bit → State → Flow} (hk : ∀ b t, Within t (k b t)) :
    Within s (readCodeBit s k) :=
  transfer_within fun t ht =>
    Within.after (ht.trans ((Continues.sourceItem t).trans (Continues.log _ _))) (hk _ _)

/-! ## UPDATE -/

theorem updateEntry_within (symbol : State → Word) (s : State) : Within s (updateEntry symbol s) :=
  (check_within _ _ s).andThen fun t => judgeContract_within _ t

theorem updateQueryTotal_within (s : State) : Within s (updateQueryTotal s) :=
  tableQuery_within fun _ t => Within.go (Continues.withHidden t _)

theorem updateQueryLow_within (symbol : State → Word) (s : State) : Within s (updateQueryLow symbol s) :=
  tableQuery_within fun _ t => Within.go (Continues.withHidden t _)

theorem updateArguments_within (s : State) : Within s (updateArguments s) :=
  (check_within _ _ s).andThen fun t => check_within _ _ t

theorem updateQueryHigh_within (symbol : State → Word) (s : State) : Within s (updateQueryHigh symbol s) :=
  tableQuery_within fun _ t =>
    Within.after (Continues.withHidden t _)
      ((updateArguments_within _).andThen fun u => Within.go (Continues.writeInterval u _))

theorem emitPending_within (n : Nat) (b : Bit) : ∀ s, Within s (emitPending n b s) := by
  induction n with
  | zero => exact Continues.refl
  | succ n ih =>
    intro s
    exact (Within.after (Continues.withHidden s _) (bitOut_within _ _)).andThen fun t => ih t

theorem encEmission_within (n : Nat) (s : State) : Within s (encEmission n s) :=
  (Within.after (Continues.withHidden s _) (emitPending_within _ _ _)).andThen fun t =>
    Within.go ((Continues.writePending t 0).trans (Continues.withHidden _ _))

theorem shiftHook_within (s : State) : Within s (shiftHook s) := by
  unfold shiftHook
  cases s.regs.mode
  · exact Continues.refl s
  · exact (bitOut_within _ s).andThen fun t => encEmission_within _ t
  · exact Continues.refl s
  · exact readCodeBit_within fun _ t => Within.go (Continues.writeCode t _)
  · exact Continues.refl s

theorem underflowHook_within (s : State) : Within s (underflowHook s) := by
  unfold underflowHook
  cases s.regs.mode
  · exact Continues.refl s
  · exact (check_within _ _ s).andThen fun t => Within.go (Continues.writePending t _)
  · exact Continues.refl s
  · exact readCodeBit_within fun _ t => Within.go (Continues.writeCode t _)
  · exact Continues.refl s

theorem renormLoop_within (n : Nat) : ∀ s, Within s (renormLoop n s) := by
  induction n with
  | zero => intro s; unfold renormLoop; split <;> exact Continues.refl s
  | succ n ih =>
    intro s
    unfold renormLoop
    split
    · exact (shiftHook_within s).andThen fun t => Within.after (Continues.writeInterval t _) (ih _)
    · exact Continues.refl s

theorem updateRenorm_within (s : State) : Within s (updateRenorm s) := by
  unfold updateRenorm
  split
  · exact (encEmission_within _ s).andThen fun t => Within.after (Continues.writeInterval t _) (renormLoop_within _ _)
  · exact renormLoop_within _ s

theorem underflowLoop_within (n : Nat) : ∀ s, Within s (underflowLoop n s) := by
  induction n with
  | zero => intro s; unfold underflowLoop; split <;> exact Continues.refl s
  | succ n ih =>
    intro s
    unfold underflowLoop
    split
    · exact (underflowHook_within s).andThen fun t => Within.after (Continues.writeInterval t _) (ih _)
    · exact Continues.refl s

/-! ## Stages -/

/-- Every stage of the list continues the command. -/
def StagesWithin (stages : List Stage) : Prop := ∀ g ∈ stages, ∀ s, Within s (g.run s)

theorem runStages_within {stages : List Stage} (h : StagesWithin stages) : ∀ s, Within s (runStages stages s) := by
  induction stages with
  | nil => exact Continues.refl
  | cons g rest ih =>
    intro s
    exact (Within.after (Continues.withHidden s _) (h g (List.mem_cons_self ..) _)).andThen
      (ih fun g' hg => h g' (List.mem_cons_of_mem _ hg))

theorem stagesFrom_within {stages : List Stage} (p : Phase) (h : StagesWithin stages) :
    StagesWithin (stagesFrom p stages) := by
  induction stages with
  | nil => exact h
  | cons g rest ih =>
    unfold stagesFrom
    split
    · exact h
    · exact ih fun g' hg => h g' (List.mem_cons_of_mem _ hg)

theorem resumeStages_within {stages : List Stage} (h : StagesWithin stages) (s : State) :
    Within s (resumeStages stages s) := by
  unfold resumeStages
  have hf := stagesFrom_within s.hidden.phase.stage h
  split
  · exact Continues.refl s
  · rename_i g rest heq
    rw [heq] at hf
    exact (hf g (List.mem_cons_self ..) s).andThen
      (runStages_within fun g' hg => hf g' (List.mem_cons_of_mem _ hg))

theorem updateStages_within (symbol : State → Word) : StagesWithin (updateStages symbol) := by
  intro g hg
  simp only [updateStages, List.mem_cons, List.not_mem_nil, or_false] at hg
  rcases hg with rfl | rfl | rfl | rfl | rfl | rfl
  · exact updateEntry_within symbol
  · exact updateQueryTotal_within
  · exact updateQueryLow_within symbol
  · exact updateQueryHigh_within symbol
  · exact updateRenorm_within
  · exact underflowLoop_within _

/-! ## The decoder's own parts -/

theorem readInitial_within (n : Nat) : ∀ s, Within s (readInitial n s) := by
  induction n with
  | zero => exact Continues.refl
  | succ n ih =>
    intro s
    exact readCodeBit_within fun _ t =>
      Within.after ((Continues.writeCode t _).trans (Continues.withHidden _ _)) (ih _)

theorem decCheck_within (s : State) : Within s (decCheck s) :=
  (requireMode_within _ s).andThen fun t => (check_within _ _ t).andThen fun u => judgeContract_within _ u

theorem decTotal_within (s : State) : Within s (decTotal s) :=
  tableQuery_within fun _ t =>
    Within.after (Continues.withHidden t _)
      (((check_within _ _ _).andThen fun u => check_within _ _ u).andThen fun u =>
        Within.after (Continues.withHidden u _) (check_within _ _ _))

theorem decLimit_within (s : State) : Within s (decLimit s) :=
  tableQuery_within fun _ t => Within.go (Continues.withHidden t _)

theorem searchLoop_within (n : Nat) : ∀ s, Within s (searchLoop n s) := by
  induction n with
  | zero => intro s; unfold searchLoop; split <;> exact Continues.refl s
  | succ n ih =>
    intro s
    unfold searchLoop
    split
    · exact Within.after (Continues.withHidden s _)
        (tableQuery_within fun _ t => Within.after (Continues.withHidden t _) (ih _))
    · exact Continues.refl s

theorem decSearch_within (s : State) : Within s (decSearch s) :=
  (searchLoop_within _ s).andThen fun t =>
    (check_within _ _ t).andThen fun u => Within.go (Continues.withHidden u _)

theorem decContainLow_within (s : State) : Within s (decContainLow s) :=
  tableQuery_within fun _ t => Within.go (Continues.withHidden t _)

theorem decContainHigh_within (s : State) : Within s (decContainHigh s) :=
  tableQuery_within fun _ t => Within.after (Continues.withHidden t _) (check_within _ _ _)

/-! ## Every command -/

theorem stagesOf_within (i : Instr) : StagesWithin (stagesOf i) := by
  intro g hg
  cases i with
  | nop => simp [stagesOf, nopStages] at hg
  | initEnc w =>
    simp only [stagesOf, initEncStages, List.mem_singleton] at hg
    subst hg
    exact fun s => (check_within _ _ s).andThen fun t => Within.go ((Continues.opened t w).trans (Continues.writeMode _ _))
  | initDec w =>
    simp only [stagesOf, initDecStages, List.mem_cons, List.not_mem_nil, or_false] at hg
    rcases hg with rfl | rfl | rfl
    · exact fun s =>
        (check_within _ _ s).andThen fun t => Within.go ((Continues.opened t w).trans (Continues.withHidden _ _))
    · exact fun s => readInitial_within _ s
    · exact fun s => Within.go (Continues.writeMode s _)
  | enc symbol =>
    simp only [stagesOf, encStages, List.mem_cons] at hg
    rcases hg with rfl | hg
    · exact requireMode_within _
    · exact updateStages_within _ g hg
  | dec =>
    simp only [stagesOf, decStages, List.mem_append, List.mem_cons, List.not_mem_nil, or_false] at hg
    rcases hg with (hg | hg) | rfl
    · rcases hg with rfl | rfl | rfl | rfl | rfl | rfl
      · exact decCheck_within
      · exact decTotal_within
      · exact decLimit_within
      · exact decSearch_within
      · exact decContainLow_within
      · exact decContainHigh_within
    · exact updateStages_within _ g hg
    · exact fun s => check_within _ _ s
  | fin =>
    simp only [stagesOf, finStages, List.mem_cons, List.not_mem_nil, or_false] at hg
    rcases hg with rfl | rfl | rfl
    · exact requireMode_within _
    · exact bitOut_within _
    · exact fun s => Within.go (Continues.writeMode s _)
  | close =>
    simp only [stagesOf, closeStages, List.mem_singleton] at hg
    subst hg
    exact fun s => Within.go (Continues.writeMode s _)

/-- A command is its stages, run from its acceptance. -/
theorem exec_eq (i : Instr) (s : State) :
    exec i s = settle (resultOf i) (runStages (stagesOf i) (accept (some i) s)) := by
  cases i <;> rfl

end Sys2Proof.Machine
end

