-- ==== Sys2Proof/Laws/PerInstr.lean ====
section
/-! SUPPORT. What is said of every command as syntax, one lemma a constructor. -/

namespace Sys2Proof.Laws

/-- The encoder sets no bit that the format of the command reserves, and ARG is 0 but for ENC (30_encoding.md R112). -/
def ReservedZero.Statement (i : Instr) : Prop :=
  i.wellFormed = true → rsv0Field (encode i).1 = 0 ∧ rsv1Field (encode i).1 = 0
    ∧ ((∀ w, i ≠ .initEnc w) → (∀ w, i ≠ .initDec w) → widthField (encode i).1 = 0)
    ∧ ((∀ n, i ≠ .enc n) → (encode i).2 = 0)

theorem ReservedZero.nop : Statement .nop := fun _ => ⟨by decide, by decide, fun _ _ => by decide, fun _ => rfl⟩

theorem ReservedZero.initEnc (w : Nat) : Statement (.initEnc w) := by
  intro h
  have hw : w < 256 := by simpa [Instr.wellFormed, Instr.widthFits] using h
  simp only [encode, rsv0Field_eq, rsv1Field_eq, cmdOf_toNat (op := 1) (by decide) hw]
  exact ⟨by omega, by omega, fun hi => absurd rfl (hi w), fun _ => trivial⟩

theorem ReservedZero.initDec (w : Nat) : Statement (.initDec w) := by
  intro h
  have hw : w < 256 := by simpa [Instr.wellFormed, Instr.widthFits] using h
  simp only [encode, rsv0Field_eq, rsv1Field_eq, cmdOf_toNat (op := 2) (by decide) hw]
  exact ⟨by omega, by omega, fun _ hi => absurd rfl (hi w), fun _ => trivial⟩

theorem ReservedZero.enc (symbol : Nat) : Statement (.enc symbol) := fun _ =>
  have h : rsv0Field (cmdOf 3 0) = 0 ∧ rsv1Field (cmdOf 3 0) = 0 ∧ widthField (cmdOf 3 0) = 0 := by decide
  ⟨h.1, h.2.1, fun _ _ => h.2.2, fun hi => absurd rfl (hi symbol)⟩

theorem ReservedZero.dec : Statement .dec := fun _ => ⟨by decide, by decide, fun _ _ => by decide, fun _ => rfl⟩

theorem ReservedZero.fin : Statement .fin := fun _ => ⟨by decide, by decide, fun _ _ => by decide, fun _ => rfl⟩

theorem ReservedZero.close : Statement .close := fun _ => ⟨by decide, by decide, fun _ _ => by decide, fun _ => rfl⟩

end Sys2Proof.Laws
end

