-- ==== Sys2Proof/Laws/Step.lean ====
section
/-! SUPPORT. What one command and one step can do, said once: every claim about them starts from these cases. -/

namespace Sys2Proof.Machine

/-! ## One command -/

/-- Everything a command can end in, with what it left alone on the way: it responds OK, it raises an error, it waits
at a transfer, or the table contract is broken. -/
theorem exec_next {i : Instr} {s t : State} (h : exec i s = .next t) :
    (∃ u, Continues (accept (some i) s) u ∧ runStages (stagesOf i) (accept (some i) s) = .go u
        ∧ t = respond .ok (resultOf i u) u)
      ∨ (∃ e u, Continues (accept (some i) s) u ∧ runStages (stagesOf i) (accept (some i) s) = .raise e u
          ∧ t = raiseError e u)
      ∨ (Continues (accept (some i) s) t ∧ runStages (stagesOf i) (accept (some i) s) = .wait t)
      ∨ (∃ u, Continues (accept (some i) s) u ∧ runStages (stagesOf i) (accept (some i) s) = .broken u
          ∧ t = u.forget) := by
  have hw := runStages_within (stagesOf_within i) (accept (some i) s)
  rw [exec_eq] at h
  rcases settle_next h with ⟨u, hf, rfl⟩ | ⟨e, u, hf, rfl⟩ | ⟨u, hf, rfl⟩ | ⟨u, hf, rfl⟩ <;> rw [hf] at hw
  · exact Or.inl ⟨u, hw, hf, rfl⟩
  · exact Or.inr (Or.inl ⟨e, u, hw, hf, rfl⟩)
  · exact Or.inr (Or.inr (Or.inl ⟨hw, hf⟩))
  · exact Or.inr (Or.inr (Or.inr ⟨u, hw, hf, rfl⟩))

/-- The same for a command that goes on from where it waited. -/
theorem resumeCommand_next {i : Instr} {s t : State} (hc : s.current = some i) (h : resumeCommand s = .next t) :
    (∃ u, Continues s u ∧ resumeStages (stagesOf i) s = .go u ∧ t = respond .ok (resultOf i u) u)
      ∨ (∃ e u, Continues s u ∧ resumeStages (stagesOf i) s = .raise e u ∧ t = raiseError e u)
      ∨ (Continues s t ∧ resumeStages (stagesOf i) s = .wait t)
      ∨ (∃ u, Continues s u ∧ resumeStages (stagesOf i) s = .broken u ∧ t = u.forget) := by
  have hw := resumeStages_within (stagesOf_within i) s
  simp only [resumeCommand, hc] at h
  rcases settle_next h with ⟨u, hf, rfl⟩ | ⟨e, u, hf, rfl⟩ | ⟨u, hf, rfl⟩ | ⟨u, hf, rfl⟩ <;> rw [hf] at hw
  · exact Or.inl ⟨u, hw, hf, rfl⟩
  · exact Or.inr (Or.inl ⟨e, u, hw, hf, rfl⟩)
  · exact Or.inr (Or.inr (Or.inl ⟨hw, hf⟩))
  · exact Or.inr (Or.inr (Or.inr ⟨u, hw, hf, rfl⟩))

/-! ## The moves of the agents -/

@[simp] theorem State.afterTurn_schedule (s : State) : s.afterTurn.schedule = s.schedule.tail := rfl
@[simp] theorem State.afterTurn_regs (s : State) : s.afterTurn.regs = s.regs := rfl
@[simp] theorem State.afterTurn_current (s : State) : s.afterTurn.current = s.current := rfl
@[simp] theorem State.afterTurn_response (s : State) : s.afterTurn.response = s.response := rfl
@[simp] theorem State.afterTurn_ready (s : State) : s.afterTurn.ready = s.ready := rfl

theorem presentCommand_cases (s : State) :
    (presentCommand s = .next s ∧ (s.commands = [] ∨ s.ready = false))
      ∨ ∃ c rest, s.commands = c :: rest ∧ s.ready = true
          ∧ presentCommand s = runTransfer c (acceptTransfer c rest s) := by
  cases hc : s.commands with
  | nil => exact Or.inl ⟨by simp [presentCommand, hc], Or.inl rfl⟩
  | cons c rest =>
    cases hr : s.ready with
    | false => exact Or.inl ⟨by simp [presentCommand, hc, hr], Or.inr rfl⟩
    | true => exact Or.inr ⟨c, rest, rfl, rfl, by simp [presentCommand, hc, hr]⟩

theorem runTransfer_cases (c : Command) (s : State) :
    (∃ i, decode c.cmd c.arg = .ok i ∧ runTransfer c s = exec i s)
      ∨ (∃ e, decode c.cmd c.arg = .error e ∧ runTransfer c s = .next (illegalCommand s)) := by
  cases hd : decode c.cmd c.arg with
  | ok i => exact Or.inl ⟨i, rfl, by simp [runTransfer, hd]⟩
  | error e => exact Or.inr ⟨e, rfl, by simp [runTransfer, hd]⟩

theorem takeResponse_none {s : State} (h : s.response = none) : takeResponse s = s := by
  simp [takeResponse, h]

theorem takeResponse_some {s : State} {r : Response} (h : s.response = some r) :
    takeResponse s =
      ((s.withRegs { s.regs with busy := false }).withResponse none).log (.response r.status.bits r.result) := by
  simp [takeResponse, h]

theorem changeTable_cases (t : Table) (s : State) :
    changeTable t s = s.withTable t
      ∨ (changeTable t s = (s.withTable t).forget ∧ s.queryingNow = true ∧ t ≠ s.table) := by
  unfold changeTable
  split
  · next h => exact Or.inr ⟨rfl, by simpa using h⟩
  · exact Or.inl rfl

theorem resumeCommand_none {s : State} (h : s.current = none) : resumeCommand s = .next s := by
  simp [resumeCommand, h]

/-! ## One step -/

/-- While no UNDEFINED_TABLE is recorded a step is the next agent's move. -/
theorem step_eq_takeTurn {s : State} (h : s.undefinedTable = false) :
    step s = takeTurn s.nextTurn s.afterTurn := by
  simp [step, h]

/-- Once it is recorded, a step is that of a machine of which nothing is claimed. -/
theorem step_recorded {s : State} (h : s.undefinedTable = true) :
    step s = .next (unclaimedTurn s.nextTurn s.afterTurn).forget := by
  simp [step, h]

/-- What no move touches once UNDEFINED_TABLE is recorded: the build, the trace so far and the record. -/
theorem unclaimedTurn_keeps (t : Turn) (s : State) :
    (unclaimedTurn t s).build = s.build ∧ (unclaimedTurn t s).trace = s.trace
      ∧ (unclaimedTurn t s).undefinedTable = s.undefinedTable := by
  cases t with
  | present =>
    simp only [unclaimedTurn, presentUnclaimed]
    split <;> simp
  | _ => exact ⟨rfl, rfl, rfl⟩

end Sys2Proof.Machine
end

