-- ==== Sys2Proof/Tests/Slice0.lean ====
section
/-! SUPPORT. Tests of one command or one step each, with the values of 95_test_vectors.md or hand calculation from the
rules, and for every obligation that has hypotheses a witness that meets them all. -/

namespace Sys2Proof.Tests

open Sys2Proof Sys2Proof.Machine

/-! ## Small states -/

/-- A machine in a session, from its registers and its table; all else as after reset. -/
def session (m : Mode) (w low high pending code : Nat) (t : Table) : State :=
  { State.reset with
    regs := { Regs.reset with
      mode := m, width := BitVec.ofNat 8 w, low := BitVec.ofNat 63 low, high := BitVec.ofNat 63 high
      pending := pending, code := BitVec.ofNat 63 code }
    table := t }

/-- An encoder session at W = 8 under the table 1, 1, 2 (95_test_vectors.md 2.2). -/
def enc8 : State := session .enc 8 0 0xFF 0 0 (Table.ofFreqs [1, 1, 2])

/-- A decoder session at W = 8 under the table 1, 2, 1 with CODE = 0x7A (2.6). -/
def dec8 : State := session .dec 8 0 0xFF 0 0x7A (Table.ofFreqs [1, 2, 1])

/-- A core that waits at INIT.DEC's first transfer at W = 1. -/
def waiting : State :=
  { session .idle 1 0 1 0 0 (Table.ofFreqs [1]) with
    regs := { (session .idle 1 0 1 0 0 (Table.ofFreqs [1])).regs with busy := true }
    hidden := { Hidden.zero with phase := .initialRead }
    current := some (.initDec 1)
    partnerLimit := some 0 }

/-- A core that waits at an ENC's first query. -/
def waitingEnc : State :=
  { enc8 with
    regs := { enc8.regs with busy := true }
    hidden := { Hidden.zero with phase := .queryTotal }
    current := some (.enc 0)
    partnerLimit := some 0 }

/-- The host has one command to present, and does so next. -/
def presenting (s : State) (cmd arg : Nat) : State :=
  { s with commands := [⟨BitVec.ofNat 32 cmd, BitVec.ofNat 64 arg⟩], schedule := [.present] }

/-- The next state of an outcome that has one. -/
def after (o : Host.Outcome State Fault Refusal) : State :=
  match o with
  | .next t => t
  | .fault _ => State.reset
  | .refused _ => State.reset

/-- What a test looks at: MODE, LOW, HIGH, PENDING, CODE, the response. -/
def view (t : State) : Mode × Nat × Nat × Nat × Nat × Option Response :=
  (t.regs.mode, t.regs.low.toNat, t.regs.high.toNat, t.regs.pending, t.regs.code.toNat, t.response)

/-! ## Well-formedness: each check refuses an ill-formed term -/

theorem test_wellFormed_width_256_refused :
    (Instr.initEnc 256).wellFormed = false ∧ (Instr.initDec 256).wellFormed = false := by decide

theorem test_wellFormed_symbol_2_64_refused : (Instr.enc (2 ^ 64)).wellFormed = false := by decide

/-! ## Decoding, from words written out by 30_encoding.md R111 to R117 -/

theorem test_decode_nop : decode 0b0000_0000_0000_0000_0000_0000_0000_0000 0xFFFFFFFFFFFFFFFF = .ok .nop := by decide
theorem test_decode_initEnc : decode 0b0000_0000_0000_0000_0011_1111_0000_0001 0 = .ok (.initEnc 63) := by decide
theorem test_decode_initDec : decode 0b0000_0000_0000_0000_1111_1111_0000_0010 0 = .ok (.initDec 255) := by decide
theorem test_decode_enc : decode 0b0000_0000_0000_0000_0000_0000_0000_0011 0xFFFFFFFFFFFFFFFF
    = .ok (.enc 0xFFFFFFFFFFFFFFFF) := by decide
theorem test_decode_dec : decode 0b0000_0000_0000_0000_0000_0000_0000_0100 1 = .ok .dec := by decide
theorem test_decode_fin : decode 0b0000_0000_0000_0000_0000_0000_0000_0101 0 = .ok .fin := by decide
theorem test_decode_close : decode 0b0000_0000_0000_0000_0000_0000_0000_0110 0 = .ok .close := by decide
theorem test_decode_reserved_bits :
    decode 0b1000_0000_0000_0000_0010_0000_0000_0001 0 = .error .reservedBits
      ∧ decode 0b0000_0000_0000_0000_0010_0000_0001_0010 0 = .error .reservedBits
      ∧ decode 0b0000_0000_0000_0000_0000_0001_0000_0011 0 = .error .reservedBits := by decide
theorem test_decode_reserved_opcodes :
    ∀ op : Fin 16, 7 ≤ op.val → decode (BitVec.ofNat 32 op.val) 0 = .error .reservedOpcode := by decide

/-- The opcode table numbers ARG from bit 32 on. -/
theorem test_decodeTableWord :
    decodeTableWord 96 0x0000000000000002_00000003 = some (.enc 2) ∧ decodeTableWord 32 0x00002001 = some (.initEnc 32)
      ∧ decodeTableWord 32 0x00000003 = some (.enc 0) ∧ decodeTableWord 32 0x00000017 = none := by decide

/-! ## One step each (95_test_vectors.md 1.2, 1.5, 2.2, 2.3, 2.6) -/

theorem test_nop_keeps_aborted : view (after (exec .nop (session .aborted 8 3 5 1 0 (Table.ofFreqs [1]))))
    = (.aborted, 3, 5, 1, 0, some ⟨.ok, 0⟩) := by decide

theorem test_initEnc_63 : view (after (exec (.initEnc 63) dec8))
    = (.enc, 0, 0x7FFFFFFFFFFFFFFF, 0, 0, some ⟨.ok, 0⟩) := by decide

theorem test_initEnc_64_refused : view (after (exec (.initEnc 64) dec8))
    = (.idle, 0, 0xFF, 0, 0x7A, some ⟨.domainError, 0⟩) := by decide

theorem test_initDec_32 :
    view (after (exec (.initDec 32) (State.reset.withSource [false, false, false, true, true, true, false, false, true])))
      = (.dec, 0, 0xFFFFFFFF, 0, 0x1C800000, some ⟨.ok, 0⟩) := by decide

theorem test_enc_definite_then_pending :
    let t := after (exec (.enc 0) (session .enc 8 0x40 0xBF 3 0 (Table.ofFreqs [1, 2, 1])))
    view t = (.enc, 0x00, 0xFF, 0, 0, some ⟨.ok, 0⟩) ∧ t.sink = [false, true, true, true, true, false] := by decide

theorem test_enc_underflow :
    let t := after (exec (.enc 1) (session .enc 8 0x40 0xBF 1 0 (Table.ofFreqs [1, 2, 1])))
    view t = (.enc, 0x00, 0xFF, 3, 0, some ⟨.ok, 0⟩) ∧ t.sink = [] := by decide

theorem test_dec_underflow_and_queries :
    let t := after (exec .dec dec8)
    view t = (.dec, 0x00, 0xFF, 0, 0x74, some ⟨.ok, 1⟩)
      ∧ queriesIn t.trace = [(0, 0), (3, 0), (1, 1), (1, 2), (1, 1), (2, 1), (0, 0), (1, 1), (2, 1)] := by decide

theorem test_dec_two_items :
    view (after (exec .dec (session .dec 8 0x12 0xA7 0 0x40 (Table.ofFreqs [1, 1, 2]))))
      = (.dec, 0x5C, 0xF3, 0, 0x80, some ⟨.ok, 1⟩) := by decide

theorem test_fin_keeps_pending :
    let t := after (exec .fin (session .enc 8 0x40 0xBF 3 0 (Table.ofFreqs [1])))
    view t = (.encFin, 0x40, 0xBF, 3, 0, some ⟨.ok, 0⟩) ∧ t.sink = [true] := by decide

theorem test_close_keeps_registers : view (after (exec .close dec8)) = (.idle, 0, 0xFF, 0, 0x7A, some ⟨.ok, 0⟩) := by
  decide

theorem test_fetch_word_from_reset :
    view (after (step (State.reset.withFetchWord 32 0x00002001))) = (.enc, 0, 0xFFFFFFFF, 0, 0, some ⟨.ok, 0⟩) := by
  decide

/-! ## Witnesses: the hypotheses of each obligation, met together -/

theorem test_witness_EncodedCommandDecodesToItself :
    (Instr.initEnc 255).wellFormed = true ∧ (Instr.initDec 0).wellFormed = true
      ∧ (Instr.enc (2 ^ 64 - 1)).wellFormed = true ∧ Instr.nop.wellFormed = true := by decide

theorem test_witness_DecodedWordsAreTheEncoding :
    decode 0x00000003 5 = .ok (.enc 5) ∧ decode 0x0000FF01 7 = .ok (.initEnc 255) := by decide

theorem test_witness_DecoderFollowsItsPseudocode :
    (let n := (0x00010011 : CmdWord).toNat; n % 16 = 1 ∧ n / 16 % 16 ≠ 0)
      ∧ (let n := (0x00012002 : CmdWord).toNat; n % 16 = 2 ∧ n / 65536 ≠ 0)
      ∧ (let n := (0x00002001 : CmdWord).toNat; n % 16 = 1 ∧ n / 16 % 16 = 0 ∧ n / 65536 = 0)
      ∧ (let n := (0x00002002 : CmdWord).toNat; n % 16 = 2 ∧ n / 16 % 16 = 0 ∧ n / 65536 = 0)
      ∧ (let n := (0x00000010 : CmdWord).toNat; n % 16 = 0 ∧ n / 16 ≠ 0)
      ∧ (0x00000000 : CmdWord).toNat = 0 ∧ (0x00000003 : CmdWord).toNat = 3 ∧ (0x00000004 : CmdWord).toNat = 4
      ∧ (0x00000005 : CmdWord).toNat = 5 ∧ (0x00000006 : CmdWord).toNat = 6
      ∧ 7 ≤ (0x00000007 : CmdWord).toNat % 16 := by decide

theorem test_witness_DerivedConstantsHaveClosedForms :
    legalWidth 1 = true ∧ legalWidth 63 = true ∧ Build.standard.maxIntBits = 64
      ∧ 32 ≤ (Build.standard.maxIntBits + 1) / 2 ∧ (Build.standard.maxIntBits + 1) / 2 < 33 := by decide

theorem test_witness_AssertedResetAbandonsTheCommand :
    let s := { waiting with schedule := [.reset true] }
    s.undefinedTable = false ∧ s.nextTurn = .reset true := by decide

theorem test_witness_AssertedResetHoldsTheCore :
    let s := { State.reset with resetAsserted := true, schedule := [.reset false] }
    invariantHolds s = true ∧ s.undefinedTable = false ∧ s.resetAsserted = true
      ∧ ({ waitingEnc with schedule := [.reset true] } : State).nextTurn = .reset true
      ∧ ({ waitingEnc with schedule := [.reset true] } : State).undefinedTable = false := by decide

theorem test_witness_StepRunsDecodedCommand :
    let s := presenting enc8 3 0
    s.undefinedTable = false ∧ s.nextTurn = .present ∧ s.commands = [⟨3, 0⟩] ∧ s.ready = true
      ∧ decode 3 0 = .ok (.enc 0) := by decide

theorem test_witness_FetchWordIsWhatTheNextStepRuns : decodeTableWord 96 0x5_00000003 = some (.enc 5) := by decide

theorem test_witness_IllegalWordsRespondIllegalCommand :
    let s := presenting enc8 0x17 0
    s.undefinedTable = false ∧ s.nextTurn = .present ∧ s.commands = [⟨0x17, 0⟩] ∧ s.ready = true
      ∧ decode 0x17 0 = .error .reservedOpcode ∧ decode 0x13 0 = .error .reservedBits := by decide

theorem test_witness_CommandTransferNeedsReadyCore :
    (let s := presenting waiting 0 0; s.undefinedTable = false ∧ s.nextTurn = .present ∧ s.ready = false)
      ∧ (let s := presenting State.reset 0 0
         s.undefinedTable = false ∧ s.nextTurn = .present ∧ s.commands = [⟨0, 0⟩] ∧ s.ready = true
          ∧ step s = .next (after (step s))) :=
  ⟨by decide, by decide, by decide, by decide, by decide, rfl⟩

theorem test_witness_TakingTheResponseClearsBusy :
    let s := { State.reset with response := some ⟨.ok, 0⟩, schedule := [.take] }
    s.undefinedTable = false ∧ s.nextTurn = .take ∧ s.response = some ⟨.ok, 0⟩ := by decide

theorem test_witness_IdleObservationReadsRegisters :
    ∀ index : BitVec 3, let s := { enc8 with schedule := [.observe index] }
    s.undefinedTable = false ∧ s.nextTurn = .observe index ∧ s.regs.busy = false := by decide

theorem test_witness_BusyObservationMarksBusyChangesNothing :
    ∀ index : BitVec 3, let s := { waiting with schedule := [.observe index] }
    s.undefinedTable = false ∧ s.nextTurn = .observe index ∧ s.regs.busy = true := by decide

theorem test_witness_TableChangesBetweenCommandsOnly :
    (let s := { enc8 with schedule := [.table ⟨0, 0, []⟩] }
     s.undefinedTable = false ∧ s.nextTurn = .table ⟨0, 0, []⟩ ∧ s.current = none)
      ∧ (let s := { waitingEnc with schedule := [.table ⟨0, 0, []⟩] }
         s.undefinedTable = false ∧ s.nextTurn = .table ⟨0, 0, []⟩ ∧ s.current = some (.enc 0)
          ∧ (⟨0, 0, []⟩ : Table) ≠ s.table)
      ∧ (let s := { waiting with schedule := [.table ⟨0, 0, []⟩] }
         s.undefinedTable = false ∧ s.nextTurn = .table ⟨0, 0, []⟩ ∧ s.current = some (.initDec 1))
      ∧ (let s := { waitingEnc with schedule := [.table waitingEnc.table] }
         s.undefinedTable = false ∧ s.nextTurn = .table s.table) := by decide

theorem test_witness_RecordedUndefinedTableStays : enc8.forget.undefinedTable = true := rfl

theorem test_witness_NoStepWritesTheBuild :
    step (presenting enc8 3 0) = .next (after (step (presenting enc8 3 0))) := rfl

theorem test_witness_PortEventsOnlyAccumulate : step (presenting dec8 4 0) = .next (after (step (presenting dec8 4 0))) :=
  rfl

theorem test_witness_EveryStepKeepsInvariant :
    invariantHolds (presenting enc8 3 0) = true ∧ invariantHolds waiting = true ∧ invariantHolds waitingEnc = true
      ∧ step (presenting enc8 3 0) = .next (after (step (presenting enc8 3 0))) :=
  ⟨by decide, by decide, by decide, rfl⟩

theorem test_witness_GoodStatesNeverStop : invariantHolds dec8 = true := by decide

theorem test_witness_InitEncOpensASession :
    (0 < 256 ∧ 255 < 256) ∧ (1 ≤ 1 ∧ 1 ≤ 63) ∧ (1 ≤ 63 ∧ 63 ≤ 63) ∧ ¬ (1 ≤ 0 ∧ 0 ≤ 63) ∧ ¬ (1 ≤ 64 ∧ 64 ≤ 63) := by
  decide

theorem test_witness_InitDecFillsCode : 1 ≤ 63 ∧ 63 ≤ 63 ∧ State.reset.partnerLimit = none ∧ 64 ≤ 64 := by decide

theorem test_witness_IllegalWidthIsDomainError :
    ((64 = 0 ∨ 64 ≤ 64) ∧ (Instr.initDec 64 = .initEnc 64 ∨ Instr.initDec 64 = .initDec 64))
      ∧ ((0 = 0 ∨ 64 ≤ 0) ∧ (Instr.initEnc 0 = .initEnc 0 ∨ Instr.initEnc 0 = .initDec 0))
      ∧ ((∃ symbol, Instr.enc 1 = .enc symbol) ∨ Instr.enc 1 = .dec ∨ Instr.enc 1 = .fin) :=
  ⟨by decide, by decide, Or.inl ⟨1, rfl⟩⟩

theorem test_witness_FinEmitsOneBit :
    (enc8.regs.mode = .enc ∧ (enc8.withLimit (some 1)).partnerLimit ≠ some 0)
      ∧ (session .encFin 8 0 0xFF 0 0 (Table.ofFreqs [1])).regs.mode = .encFin := by decide

theorem test_witness_WrongModeIsSequenceError :
    (State.reset.regs.mode ≠ .aborted ∧ (∃ symbol, Instr.enc 0 = .enc symbol) ∧ State.reset.regs.mode ≠ .enc)
      ∧ (enc8.regs.mode ≠ .aborted ∧ enc8.regs.mode ≠ .dec) ∧ (dec8.regs.mode ≠ .aborted ∧ dec8.regs.mode ≠ .enc) :=
  ⟨⟨by decide, ⟨0, rfl⟩, by decide⟩, by decide, by decide⟩

theorem test_witness_AbortedSessionRefusesCoding :
    (session .aborted 8 0 0xFF 0 0 (Table.ofFreqs [1])).regs.mode = .aborted
      ∧ ((∃ symbol, Instr.fin = .enc symbol) ∨ Instr.fin = .dec ∨ Instr.fin = .fin) :=
  ⟨rfl, Or.inr (Or.inr rfl)⟩

theorem test_witness_ModeMovesOnlyAsTabled :
    exec .fin enc8 = .next (after (exec .fin enc8)) ∧ (after (exec .fin enc8)).undefinedTable = false :=
  ⟨rfl, by decide⟩

/-- MODE = ABORTED stays, and leaves by reset, by a command and by the end of an INIT.DEC's wait. -/
theorem test_witness_AbortedIsLeftOnlyByInitCloseOrReset :
    let s := presenting (session .aborted 8 0 0xFF 0 0 (Table.ofFreqs [1])) 6 0
    invariantHolds s = true ∧ step s = .next (after (step s)) ∧ (after (step s)).undefinedTable = false
      ∧ s.regs.mode = .aborted :=
  ⟨by decide, rfl, by decide, by decide⟩

theorem test_witness_CommandRespondsOnceOrWaits :
    dec8.response = none ∧ exec .dec dec8 = .next (after (exec .dec dec8))
      ∧ (after (exec .dec dec8)).undefinedTable = false :=
  ⟨rfl, rfl, by decide⟩

theorem test_witness_CommandsLeaveTheRestAlone :
    exec (.enc 0) enc8 = .next (after (exec (.enc 0) enc8)) ∧ (after (exec (.enc 0) enc8)).undefinedTable = false :=
  ⟨rfl, by decide⟩

theorem test_witness_PortEventsAreBounded :
    invariantHolds dec8 = true ∧ dec8.current = none ∧ exec .dec dec8 = .next (after (exec .dec dec8))
      ∧ (after (exec .dec dec8)).undefinedTable = false :=
  ⟨by decide, rfl, rfl, by decide⟩

theorem test_witness_WaitingChangesNothing :
    let o := exec (.enc 0) (enc8.withLimit (some 2))
    let o' := exec (.enc 0) (enc8.withLimit (some 5))
    invariantHolds enc8 = true ∧ enc8.undefinedTable = false ∧ enc8.current = none ∧ o = .next (after o)
      ∧ (after o).current = some (.enc 0) ∧ o' = .next (after o') ∧ (after o').current = none :=
  ⟨by decide, rfl, rfl, rfl, by decide, rfl, by decide⟩

theorem test_witness_WaitingCoreNeedsItsPartner :
    (let s := { waiting with schedule := [.partners (some 0)] }
     invariantHolds s = true ∧ s.undefinedTable = false ∧ s.current = some (.initDec 1)
      ∧ s.nextTurn = .partners (some 0))
      ∧ (let s := { waitingEnc with schedule := [.partners none] }
         invariantHolds s = true ∧ s.undefinedTable = false ∧ s.current = some (.enc 0)
          ∧ s.nextTurn = .partners none) := by decide

theorem test_witness_EncodeRunsItsSteps :
    let s := session .enc 8 0x40 0xBF 1 0 (Table.ofFreqs [1, 2, 1])
    s.regs.mode = .enc ∧ s.w ≤ 63 ∧ intervalOk s.w s.interval = true ∧ s.partnerLimit = none
      ∧ codable s.build s.w s.table 1 = true ∧ s.regs.pending ≤ s.build.pendingMax := by decide

theorem test_witness_EncodeCompletes : enc8.regs.mode = .enc ∧ enc8.w ≤ 63 ∧ intervalOk enc8.w enc8.interval = true
    ∧ enc8.partnerLimit = none ∧ codable enc8.build enc8.w enc8.table 2 = true
    ∧ enc8.regs.pending + enc8.w ≤ enc8.build.pendingMax := by decide

/-- PENDING_BITS = 1, PENDING = 1 and the one E3 step of 95_test_vectors.md 2.3 due (table 1, 2, 1 at W = 8). -/
theorem test_witness_EncodeOverflowAborts :
    let s := { session .enc 8 0 0xFF 1 0 (Table.ofFreqs [1, 2, 1]) with build := ⟨0, 0⟩ }
    s.regs.mode = .enc ∧ s.w ≤ 63 ∧ intervalOk s.w s.interval = true ∧ s.partnerLimit = none
      ∧ codable s.build s.w s.table 1 = true ∧ s.regs.pending ≤ s.build.pendingMax
      ∧ RenormRuns s.w (s.interval.narrow s.table.total.toNat (s.table.low (symbolIndex 1)).toNat
          (s.table.high (symbolIndex 1)).toNat) 0 ⟨0x40, 0xBF⟩
      ∧ UnderflowRuns s.w ⟨0x40, 0xBF⟩ 1 ⟨0x00, 0xFF⟩
      ∧ s.build.pendingMax < (if (0 : Nat) = 0 then s.regs.pending else 0) + 1 := by
  refine ⟨by decide, by decide, by decide, by decide, by decide, by decide, ⟨by decide, ?_, by decide⟩,
    ⟨by decide, ?_, by decide⟩, by decide⟩
  · intro m hm
    exact absurd hm (Nat.not_lt_zero m)
  · intro m hm
    obtain rfl : m = 0 := by omega
    decide

theorem test_witness_EncodeBitCount :
    let s := session .enc 8 0x40 0xBF 3 0 (Table.ofFreqs [1, 2, 1])
    let o := exec (.enc 0) s
    s.regs.mode = .enc ∧ s.w ≤ 63 ∧ s.partnerLimit = none ∧ s.regs.pending ≤ s.build.pendingMax ∧ o = .next (after o)
      ∧ (after o).undefinedTable = false ∧ (after o).regs.lastStatus = .ok :=
  ⟨by decide, by decide, rfl, by decide, rfl, by decide, by decide⟩

theorem test_witness_EncodeRejectsBadArguments :
    (let s := session .enc 4 0 0xF 0 0 (Table.ofFreqs [2, 5])
     s.regs.mode = .enc ∧ intervalOk s.w s.interval = true ∧ s.partnerLimit = none ∧ s.table.conforming = true
      ∧ 0 < s.table.symbolLimit.toNat ∧ maxTotal s.build s.w < s.table.total.toNat)
      ∧ (let s := session .enc 4 0 0xF 0 0 (Table.ofFreqs [1, 0, 5])
         s.regs.mode = .enc ∧ intervalOk s.w s.interval = true ∧ s.partnerLimit = none ∧ s.table.conforming = true
          ∧ 1 < s.table.symbolLimit.toNat ∧ s.table.total.toNat ≤ maxTotal s.build s.w
          ∧ s.table.low (symbolIndex 1) = s.table.high (symbolIndex 1)) := by decide

theorem test_witness_BrokenInvariantAborts :
    (let s := session .enc 8 0x10 0x20 0 0 (Table.ofFreqs [1])
     (∃ symbol, Instr.enc 0 = .enc symbol) ∧ s.regs.mode = .enc
      ∧ ¬ (s.regs.low.toNat < s.regs.high.toNat ∧ s.regs.low.toNat ≤ mask s.w ∧ s.regs.high.toNat ≤ mask s.w
          ∧ minRange s.w ≤ s.interval.range ∧ s.interval.range ≤ fullRange s.w))
      ∧ (let s := session .dec 8 0x10 0xFF 0 0x0F (Table.ofFreqs [1])
         s.regs.mode = .dec
          ∧ ¬ (s.regs.low.toNat < s.regs.high.toNat ∧ s.regs.high.toNat ≤ mask s.w
              ∧ s.regs.low.toNat ≤ s.regs.code.toNat ∧ s.regs.code.toNat ≤ s.regs.high.toNat
              ∧ minRange s.w ≤ s.interval.range ∧ s.interval.range ≤ fullRange s.w)) :=
  ⟨⟨⟨0, rfl⟩, by decide, by decide⟩, by decide⟩

theorem test_witness_DecodeFindsTheSymbol :
    dec8.regs.mode = .dec ∧ dec8.w ≤ 63 ∧ intervalOk dec8.w dec8.interval = true
      ∧ codeOk dec8.interval dec8.code = true ∧ dec8.partnerLimit = none ∧ dec8.table.conforming = true
      ∧ dec8.table.total.toNat ≤ maxTotal dec8.build dec8.w ∧ dec8.table.total.toNat ≠ 0 := by decide

theorem test_witness_DecodeRejectsBadTotals :
    (let s := session .dec 4 0 0xF 0 3 (Table.ofFreqs [2, 5])
     s.regs.mode = .dec ∧ intervalOk s.w s.interval = true ∧ codeOk s.interval s.code = true ∧ s.partnerLimit = none
      ∧ s.table.conforming = true ∧ maxTotal s.build s.w < s.table.total.toNat)
      ∧ (let s := session .dec 4 0 0xF 0 3 (Table.ofFreqs [0, 0])
         s.regs.mode = .dec ∧ intervalOk s.w s.interval = true ∧ codeOk s.interval s.code = true
          ∧ s.partnerLimit = none ∧ s.table.conforming = true ∧ s.table.total.toNat = 0) := by decide

theorem test_witness_ContractCheckMeansTheRule :
    (Table.ofFreqs [1, 0, 3]).rows.length = (Table.ofFreqs [1, 0, 3]).symbolLimit.toNat
      ∧ (Table.ofFreqs [1, 0, 3]).conforming = true ∧ (⟨2, 1, [⟨0, 3⟩]⟩ : Table).conforming = false := by decide

theorem test_witness_BrokenContractIsRecorded :
    (enc8.regs.mode = .enc ∧ intervalOk enc8.w enc8.interval = true ∧ 3 < 2 ^ 64
      ∧ (enc8.table.conforming = false ∨ enc8.table.symbolLimit.toNat ≤ 3))
      ∧ (let s := { dec8 with table := ⟨0, 0, []⟩ }
         s.regs.mode = .dec ∧ intervalOk s.w s.interval = true ∧ codeOk s.interval s.code = true
          ∧ s.table.conforming = false)
      ∧ (enc8.undefinedTable = false ∧ enc8.table.conforming = true
          ∧ (∀ symbol, Instr.enc 2 = .enc symbol → symbol < enc8.table.symbolLimit.toNat)
          ∧ exec (.enc 2) enc8 = .next (after (exec (.enc 2) enc8))) := by
  refine ⟨by decide, by decide, by decide, by decide, ?_, rfl⟩
  intro symbol h
  obtain rfl : 2 = symbol := by injection h
  decide

theorem test_witness_NarrowingIsExactAndInside :
    intervalOk 8 ⟨0x12, 0xA7⟩ = true ∧ 66 ≤ maxTotal Build.standard 8 ∧ 65 < 66 ∧ 66 ≤ 66 := by decide

theorem test_witness_RoundTrip :
    legalWidth 1 = true ∧ State.reset.build = State.reset.build ∧ State.reset.partnerLimit = none
      ∧ (∀ m ∈ [(Table.ofFreqs [1, 1], 1), (Table.ofFreqs [1, 1], 0)], codable Build.standard 1 m.1 m.2 = true)
      ∧ encodeSession 1 [(Table.ofFreqs [1, 1], 1), (Table.ofFreqs [1, 1], 0)] State.reset
          = .ok [true, false, true] := by
  refine ⟨by decide, rfl, rfl, by decide, rfl⟩

end Sys2Proof.Tests
end

/-! # Proofs about the state: the derived constants, the command transfer, the observation port -/

namespace Sys2Proof.Machine

/-! ## The derived constants (10_state.md R33 to R36) -/

theorem legalWidth_iff {w : Nat} : legalWidth w = true ↔ 1 ≤ w ∧ w ≤ 63 :=
  Bool.and_eq_true_iff.trans (and_congr decide_eq_true_iff decide_eq_true_iff)

theorem le_maxIntBits (b : Build) : 64 ≤ b.maxIntBits := Nat.le_add_right _ _

theorem two_le_minRange (w : Nat) : 2 ≤ minRange w := Nat.le_add_left _ _

theorem quarterRange_eq_ite {w : Nat} (hw : 1 ≤ w) : quarterRange w = if w = 1 then 0 else 2 ^ (w - 2) := by
  split
  · next h => rw [h, quarterRange_one]
  · next h => exact quarterRange_eq (by omega)

/-- mask >> 1 has the W - 1 low bits set (R36). -/
theorem mask_shiftRight_one {w : Nat} (hw : 1 ≤ w) : mask w >>> 1 = 2 ^ (w - 1) - 1 := by
  rw [← halfRange_eq hw, mask, fullRange_eq_two_half hw, Nat.shiftRight_eq_div_pow]
  omega

/-- The quotient in maxTotal (R35). -/
theorem maxIntValue_div_fullRange {b : Build} {w : Nat} (hw : w ≤ b.maxIntBits) :
    b.maxIntValue / fullRange w = 2 ^ (b.maxIntBits - w) - 1 := by
  have hpow : 2 ^ b.maxIntBits = 2 ^ w * 2 ^ (b.maxIntBits - w) := by rw [← Nat.pow_add, Nat.add_sub_cancel' hw]
  have hpos : 0 < 2 ^ w * 2 ^ (b.maxIntBits - w) := by positivity
  simpa [Build.maxIntValue, fullRange, hpow] using Nat.mul_sub_div 0 (2 ^ w) (2 ^ (b.maxIntBits - w)) hpos

/-- minRange fits into an exponent that is at least W - 1 and at least 3. -/
theorem minRange_le_two_pow_sub_one {w n : Nat} (hw : w ≤ n + 1) (hn : 3 ≤ n) : minRange w ≤ 2 ^ n - 1 := by
  obtain ⟨m, rfl⟩ : ∃ m, n = m + 1 := ⟨n - 1, by omega⟩
  have hquarter : fullRange w >>> 2 ≤ 2 ^ m := by
    rw [fullRange, Nat.shiftRight_eq_div_pow]
    refine Nat.div_le_of_le_mul ?_
    rw [← Nat.pow_add]
    exact Nat.pow_le_pow_right (by decide) (by omega)
  have hm : 2 ^ 2 ≤ 2 ^ m := Nat.pow_le_pow_right (by decide) (by omega)
  rw [minRange, Nat.pow_succ]
  omega

/-- The quotient is below minRange once the exponent is at most W - 2. -/
theorem two_pow_sub_one_le_minRange {w n : Nat} (hn : n + 2 ≤ w) : 2 ^ n - 1 ≤ minRange w := by
  have hpow : 2 ^ n ≤ 2 ^ (w - 2) := Nat.pow_le_pow_right (by decide) (by omega)
  rw [minRange_eq_quarter, quarterRange_eq (by omega)]
  exact (Nat.sub_le _ _).trans (hpow.trans (Nat.le_add_right _ _))

/-- Up to half of MAX_INT_BITS the range limits the total (R35). -/
theorem maxTotal_eq_minRange {b : Build} {w : Nat} (hw : w ≤ (b.maxIntBits + 1) / 2) :
    maxTotal b w = minRange w := by
  have hb := le_maxIntBits b
  rw [maxTotal, maxIntValue_div_fullRange (by omega)]
  exact Nat.min_eq_right (minRange_le_two_pow_sub_one (by omega) (by omega))

/-- Above half of MAX_INT_BITS the products of narrowing limit the total (R35). -/
theorem maxTotal_eq_two_pow {b : Build} {w : Nat} (hlow : (b.maxIntBits + 1) / 2 < w) (hw : w ≤ b.maxIntBits) :
    maxTotal b w = 2 ^ (b.maxIntBits - w) - 1 := by
  rw [maxTotal, maxIntValue_div_fullRange hw]
  exact Nat.min_eq_left (two_pow_sub_one_le_minRange (by omega))

/-- Settles O6: each constant has its own closed form; at 64 bits the bound on W is 32. -/
theorem derivedConstantsHaveClosedForms : Obligations.DerivedConstantsHaveClosedForms := by
  intro b w hw
  obtain ⟨hw1, hw63⟩ := legalWidth_iff.1 hw
  have hb := le_maxIntBits b
  refine ⟨rfl, halfRange_eq hw1, quarterRange_eq_ite hw1, rfl, rfl, rfl, minRange_eq_quarter w, two_le_minRange w,
    rfl, mask_shiftRight_one hw1, rfl, maxTotal_eq_minRange, fun hlow => maxTotal_eq_two_pow hlow (by omega),
    fun h64 => ⟨fun h32 => maxTotal_eq_minRange (by omega), fun h33 => ?_⟩⟩
  rw [← h64]
  exact maxTotal_eq_two_pow (by omega) (by omega)

/-! ## The command transfer (10_state.md R53) -/

theorem State.ready_iff {s : State} : s.ready = true ↔ s.regs.busy = false ∧ s.resetAsserted = false := by
  simp [State.ready]

theorem presentCommand_of_not_ready {s : State} (h : s.ready = false) : presentCommand s = .next s := by
  rcases presentCommand_cases s with ⟨hp, -⟩ | ⟨c, rest, -, hr, -⟩
  · exact hp
  · simp [h] at hr

theorem presentCommand_of_ready {s : State} {c : Command} {rest : List Command} (hc : s.commands = c :: rest)
    (h : s.ready = true) : presentCommand s = runTransfer c (acceptTransfer c rest s) := by
  simp [presentCommand, hc, h]

theorem step_present {s : State} (hu : s.undefinedTable = false) (hn : s.nextTurn = .present) :
    step s = presentCommand s.afterTurn := by
  rw [step_eq_takeTurn hu, hn, takeTurn]

/-- What has become of `s` once a command transfer to it has completed: the host keeps its other commands, the port
events so far stand, and, but under the record, BUSY is 1 and the command runs or has responded. -/
structure Started (s t : State) : Prop where
  commands : t.commands = s.commands
  trace : s.trace <+: t.trace
  busy : t.undefinedTable = false → t.regs.busy = true
  runsOrResponded : t.undefinedTable = false → t.current.isSome = true ∨ t.response.isSome = true

theorem exec_started {i : Instr} {s t : State} (h : exec i s = .next t) : Started s t := by
  rcases exec_next h with ⟨u, hk, -, rfl⟩ | ⟨e, u, hk, -, rfl⟩ | ⟨hk, -⟩ | ⟨u, hk, -, rfl⟩
  · exact ⟨hk.commands, hk.trace, fun _ => hk.busy, fun _ => .inr rfl⟩
  · exact ⟨hk.commands, hk.trace, fun _ => hk.busy, fun _ => .inr rfl⟩
  · exact ⟨hk.commands, hk.trace, fun _ => hk.busy, fun _ => .inl (by rw [hk.current]; rfl)⟩
  · exact ⟨hk.commands, hk.trace.trans (List.prefix_append _ _), nofun, nofun⟩

theorem illegalCommand_started (s : State) : Started s (illegalCommand s) :=
  ⟨rfl, List.prefix_rfl, fun _ => rfl, fun _ => .inr rfl⟩

theorem runTransfer_started {c : Command} {s t : State} (h : runTransfer c s = .next t) : Started s t := by
  rcases runTransfer_cases c s with ⟨i, -, hr⟩ | ⟨e, -, hr⟩ <;> rw [hr] at h
  · exact exec_started h
  · cases h
    exact illegalCommand_started s

/-- Settles O13: the core that is not ready leaves the command with the host; the ready one starts it. -/
theorem commandTransferNeedsReadyCore : Obligations.CommandTransferNeedsReadyCore := by
  refine ⟨fun s => State.ready_iff, fun s hu hn hr => ?_, fun s t c rest hu hn hc hr h => ?_⟩
  · rw [step_present hu hn]
    exact presentCommand_of_not_ready (s := s.afterTurn) hr
  · rw [step_present hu hn, presentCommand_of_ready (s := s.afterTurn) hc hr] at h
    have hs := runTransfer_started h
    exact ⟨hs.commands, hs.trace, fun ht => ⟨hs.busy ht, hs.runsOrResponded ht⟩⟩

/-! ## The observation port while BUSY = 0 (10_state.md R49, R50) -/

theorem toNat_append_eq_add {m n : Nat} (x : BitVec m) (y : BitVec n) :
    (x ++ y).toNat = x.toNat * 2 ^ n + y.toNat := by
  rw [BitVec.toNat_append, ← Nat.shiftLeft_add_eq_or_of_lt y.isLt, Nat.shiftLeft_eq]

/-- CFG as a sum of its fields at their places (R50). -/
theorem cfgWord_toNat (width : BitVec 8) (lastStatus : BitVec 4) (busy : Bool) (mode : BitVec 3) :
    (cfgWord width lastStatus busy mode).toNat
      = mode.toNat + 8 * busy.toNat + 16 * lastStatus.toNat + 256 * width.toNat := by
  have hreserved : (0 : BitVec 48).toNat = 0 := rfl
  simp only [cfgWord, toNat_append_eq_add, BitVec.toNat_ofBool, hreserved]
  omega

/-- CFG of a core that is not busy, its reserved bits 0 (R50). -/
theorem observeIdle_cfg_toNat {r : Regs} (h : r.busy = false) :
    (observeIdle r 0).toNat = r.mode.bits.toNat + 16 * r.lastStatus.bits.toNat + 256 * r.width.toNat := by
  have hcfg : observeIdle r 0 = cfgWord r.width r.lastStatus.bits r.busy r.mode.bits := rfl
  rw [hcfg, cfgWord_toNat, h, Bool.toNat_false, Nat.mul_zero, Nat.add_zero]

/-- What reading the observation port leaves alone: everything of the core, and everything around it (R49). -/
theorem readObservation_keeps (index : BitVec 3) (s : State) :
    let t := readObservation index s
    t.regs = s.regs ∧ t.hidden = s.hidden ∧ t.current = s.current ∧ t.response = s.response
      ∧ t.source = s.source ∧ t.sink = s.sink ∧ t.partnerLimit = s.partnerLimit ∧ SameSurroundings s t :=
  ⟨rfl, rfl, rfl, rfl, rfl, rfl, rfl, rfl, rfl, rfl, rfl, rfl, rfl⟩

theorem State.observe_of_idle {s : State} (h : s.regs.busy = false) (index : BitVec 3) :
    s.observe index = observeIdle s.regs index := by
  simp [State.observe, h]

theorem observeIdle_reserved (r : Regs) {index : BitVec 3} (h : 5 ≤ index.toNat) : observeIdle r index = 0 := by
  have hindex : index.toNat = 5 ∨ index.toNat = 6 ∨ index.toNat = 7 := by omega
  rcases hindex with h | h | h <;> simp [observeIdle, h]

theorem bound_zeroExtend_toNat (x : Bound) : (x.zeroExtend 64).toNat = x.toNat :=
  BitVec.toNat_setWidth_of_le (by decide)

/-- Settles O15: the read answers with the register the index names, and only logs itself. -/
theorem idleObservationReadsRegisters : Obligations.IdleObservationReadsRegisters := by
  intro s index hu hn hb
  have hstep : step s = .next (readObservation index s.afterTurn) := by rw [step_eq_takeTurn hu, hn, takeTurn]
  have hdata : s.afterTurn.observe index = observeIdle s.regs index := State.observe_of_idle hb index
  refine ⟨_, observeIdle s.regs index, hstep, by rw [← hdata]; rfl, ?_, ?_, ?_, ?_, ?_,
    observeIdle_reserved s.regs, readObservation_keeps index s.afterTurn⟩
  · rintro rfl
    exact observeIdle_cfg_toNat hb
  · rintro rfl
    exact bound_zeroExtend_toNat s.regs.low
  · rintro rfl
    exact bound_zeroExtend_toNat s.regs.high
  · rintro rfl
    exact bound_zeroExtend_toNat s.regs.code
  · rintro rfl
    exact BitVec.toNat_ofNat ..

end Sys2Proof.Machine

/-! # The table contract (20_memory.md R82) -/

namespace Sys2Proof.Machine

/-- The converse of `rowsFrom_spec`: rows that start at `a`, follow on one another and end at `total` pass the check. -/
theorem rowsFrom_of_getElem {total : Word} {rows : List Bounds} : ∀ {a : Word} (hpos : 0 < rows.length),
    rows[0].low = a → (∀ n (h : n < rows.length), rows[n].low.toNat ≤ rows[n].high.toNat) →
    (∀ n (h : n + 1 < rows.length), rows[n].high = rows[n + 1].low) →
    (∀ n (h : n + 1 = rows.length), rows[n].high = total) → rowsFrom a total rows = true := by
  induction rows with
  | nil => intro a hpos; exact absurd hpos (Nat.lt_irrefl 0)
  | cons r rest ih =>
    intro a _ hfirst horder hnext hlast
    have hr : r.low.toNat ≤ r.high.toNat := horder 0 (Nat.succ_pos _)
    have hrest : rowsFrom r.high total rest = true := by
      rcases Nat.eq_zero_or_pos rest.length with hnil | hpos
      · obtain rfl := List.eq_nil_of_length_eq_zero hnil
        simpa [rowsFrom] using hlast 0 rfl
      · exact ih hpos (hnext 0 (Nat.succ_lt_succ hpos)).symm (fun n h => horder (n + 1) (Nat.succ_lt_succ h))
          (fun n h => hnext (n + 1) (Nat.succ_lt_succ h)) (fun n h => hlast (n + 1) (congrArg _ h))
    simpa [rowsFrom, hr, hrest] using hfirst

/-- The answers that R82 asks for make the table conforming; that they are non-decreasing follows from the others. -/
theorem Table.conforming_of_answers {t : Table} (hlen : t.rows.length = t.symbolLimit.toNat)
    (hpos : 1 ≤ t.symbolLimit.toNat) (hzero : t.low 0 = 0)
    (hlast : t.high (BitVec.ofNat 64 (t.symbolLimit.toNat - 1)) = t.total)
    (horder : ∀ n, n < t.symbolLimit.toNat → (t.low (BitVec.ofNat 64 n)).toNat ≤ (t.high (BitVec.ofNat 64 n)).toNat)
    (hnext : ∀ n, n + 1 < t.symbolLimit.toNat → t.high (BitVec.ofNat 64 n) = t.low (BitVec.ofNat 64 (n + 1))) :
    t.conforming = true := by
  have h64 : ∀ {n}, n < t.rows.length → n < 2 ^ 64 := fun h => (hlen ▸ h).trans t.symbolLimit.isLt
  have low_eq : ∀ n (h : n < t.rows.length), t.low (BitVec.ofNat 64 n) = t.rows[n].low :=
    fun n h => Table.low_of_lt h (h64 h)
  have high_eq : ∀ n (h : n < t.rows.length), t.high (BitVec.ofNat 64 n) = t.rows[n].high :=
    fun n h => Table.high_of_lt h (h64 h)
  refine t.conforming_iff.mpr ⟨hpos, hlen, rowsFrom_of_getElem (hlen ▸ hpos) ?_ (fun n h => ?_) (fun n h => ?_)
    (fun n h => ?_)⟩
  · rw [← low_eq]; exact hzero
  · rw [← low_eq, ← high_eq]; exact horder n (hlen ▸ h)
  · rw [← low_eq, ← high_eq]; exact hnext n (hlen ▸ h)
  · obtain rfl : n = t.symbolLimit.toNat - 1 := by omega
    rw [← high_eq]; exact hlast

/-- A symbol of a conforming table ends before any later one starts, so low and high are non-decreasing (R82). -/
theorem Table.conforming_high_le_low {t : Table} (hc : t.conforming = true) {m n : Nat} (hmn : m < n)
    (hn : n < t.symbolLimit.toNat) : (t.high (BitVec.ofNat 64 m)).toNat ≤ (t.low (BitVec.ofNat 64 n)).toNat := by
  induction n, hmn using Nat.le_induction with
  | base => exact (congrArg _ (Table.conforming_next hc hn)).le
  | succ n _ ih =>
    have hprev := Nat.lt_of_succ_lt hn
    rw [← Table.conforming_next hc hn]
    exact (ih hprev).trans (Table.conforming_bounds hc hprev).1

/-- low and high of a conforming table are non-decreasing in the symbol (R82). -/
theorem Table.conforming_mono {t : Table} (hc : t.conforming = true) {m n : Nat} (hmn : m ≤ n)
    (hn : n < t.symbolLimit.toNat) :
    (t.low (BitVec.ofNat 64 m)).toNat ≤ (t.low (BitVec.ofNat 64 n)).toNat
      ∧ (t.high (BitVec.ofNat 64 m)).toNat ≤ (t.high (BitVec.ofNat 64 n)).toNat := by
  rcases hmn.eq_or_lt with rfl | hlt
  · exact ⟨le_rfl, le_rfl⟩
  · have hle := Table.conforming_high_le_low hc hlt hn
    exact ⟨(Table.conforming_bounds hc (hlt.trans hn)).1.trans hle, hle.trans (Table.conforming_bounds hc hn).1⟩

/-- Settles O48: the model's check reads the rows one after another, R82 the answers symbol by symbol. -/
theorem contractCheckMeansTheRule : Obligations.ContractCheckMeansTheRule := by
  intro t hlen
  constructor
  · intro hc
    have hpos := (t.conforming_iff.mp hc).1
    exact ⟨hpos, Table.conforming_low_zero hc, Table.conforming_last hc (Nat.sub_add_cancel hpos),
      fun _ hn => (Table.conforming_bounds hc hn).1, fun _ hn => Table.conforming_next hc hn,
      fun _ _ hmn hn => Table.conforming_mono hc hmn hn⟩
  · rintro ⟨hpos, hzero, hlast, horder, hnext, -⟩
    exact Table.conforming_of_answers hlen hpos hzero hlast horder hnext

end Sys2Proof.Machine

/-! # The command decoder on the number CMD (30_encoding.md R118) -/

namespace Sys2Proof

section
variable {cmd : CmdWord} {arg : Word}

/-! ## The format that each OP selects -/

theorem decode_of_opField_nop (h : opField cmd = 0) : decode cmd arg = ifReservedZero (formatC0 cmd) .nop := by
  simp only [decode, h]

theorem decode_of_opField_initEnc (h : opField cmd = 1) :
    decode cmd arg = ifReservedZero (formatCW cmd) (.initEnc (widthField cmd)) := by
  simp only [decode, h]

theorem decode_of_opField_initDec (h : opField cmd = 2) :
    decode cmd arg = ifReservedZero (formatCW cmd) (.initDec (widthField cmd)) := by
  simp only [decode, h]

theorem decode_of_opField_enc (h : opField cmd = 3) :
    decode cmd arg = ifReservedZero (formatC0 cmd) (.enc arg.toNat) := by
  simp only [decode, h]

theorem decode_of_opField_dec (h : opField cmd = 4) : decode cmd arg = ifReservedZero (formatC0 cmd) .dec := by
  simp only [decode, h]

theorem decode_of_opField_fin (h : opField cmd = 5) : decode cmd arg = ifReservedZero (formatC0 cmd) .fin := by
  simp only [decode, h]

theorem decode_of_opField_close (h : opField cmd = 6) : decode cmd arg = ifReservedZero (formatC0 cmd) .close := by
  simp only [decode, h]

theorem decode_reservedOpcode (h : 7 ≤ opField cmd) : decode cmd arg = .error .reservedOpcode := by
  unfold decode
  split
  case h_8 => rfl
  all_goals omega

/-! ## The reserved bits of each format -/

theorem formatCW_eq_false (h : cmd.toNat / 16 % 16 ≠ 0 ∨ cmd.toNat / 65536 ≠ 0) : formatCW cmd = false := by
  rw [Bool.eq_false_iff, Ne, formatCW_iff]
  omega

theorem formatC0_eq_false (h : cmd.toNat / 16 ≠ 0) : formatC0 cmd = false :=
  Bool.eq_false_iff.mpr (mt (formatC0_iff cmd).mp h)

theorem decode_reservedBits_of_formatCW (hop : opField cmd = 1 ∨ opField cmd = 2) (h : formatCW cmd = false) :
    decode cmd arg = .error .reservedBits := by
  have hreject (i : Instr) : ifReservedZero (formatCW cmd) i = .error .reservedBits :=
    ifReservedZero_error.mpr ⟨h, rfl⟩
  rcases hop with hop | hop
  · rw [decode_of_opField_initEnc hop, hreject]
  · rw [decode_of_opField_initDec hop, hreject]

theorem decode_reservedBits_of_formatC0
    (hop : opField cmd = 0 ∨ opField cmd = 3 ∨ opField cmd = 4 ∨ opField cmd = 5 ∨ opField cmd = 6)
    (h : formatC0 cmd = false) : decode cmd arg = .error .reservedBits := by
  have hreject (i : Instr) : ifReservedZero (formatC0 cmd) i = .error .reservedBits :=
    ifReservedZero_error.mpr ⟨h, rfl⟩
  rcases hop with hop | hop | hop | hop | hop
  · rw [decode_of_opField_nop hop, hreject]
  · rw [decode_of_opField_enc hop, hreject]
  · rw [decode_of_opField_dec hop, hreject]
  · rw [decode_of_opField_fin hop, hreject]
  · rw [decode_of_opField_close hop, hreject]

/-! ## Words that are commands -/

/-- A word below 16 is its own OP, every reserved bit of C0 and CS being 0. -/
theorem fields_of_toNat_lt {op : Nat} (hop : op < 16) (h : cmd.toNat = op) :
    opField cmd = op ∧ formatC0 cmd = true :=
  ⟨by rw [opField_eq, h, Nat.mod_eq_of_lt hop], (formatC0_iff cmd).mpr (by rw [h, Nat.div_eq_of_lt hop])⟩

theorem decode_initEnc_of_formatCW (hop : opField cmd = 1) (h : formatCW cmd = true) :
    decode cmd arg = .ok (.initEnc (cmd.toNat / 256 % 256)) :=
  (decode_of_opField_initEnc hop).trans (ifReservedZero_ok.mpr ⟨h, by rw [widthField_eq]⟩)

theorem decode_initDec_of_formatCW (hop : opField cmd = 2) (h : formatCW cmd = true) :
    decode cmd arg = .ok (.initDec (cmd.toNat / 256 % 256)) :=
  (decode_of_opField_initDec hop).trans (ifReservedZero_ok.mpr ⟨h, by rw [widthField_eq]⟩)

/-- A word below 16 decodes to the command of its OP, when the OP's format is C0 or CS. -/
theorem decode_of_toNat_eq {op : Nat} {i : Instr} (hop : op < 16) (h : cmd.toNat = op)
    (hdecode : opField cmd = op → decode cmd arg = ifReservedZero (formatC0 cmd) i) : decode cmd arg = .ok i := by
  obtain ⟨hfield, hzero⟩ := fields_of_toNat_lt hop h
  exact (hdecode hfield).trans (ifReservedZero_ok.mpr ⟨hzero, rfl⟩)

end

/-- Settles O4: OP selects the format, the format's reserved bits decide between its command and the error. -/
theorem decoderFollowsItsPseudocode : Obligations.DecoderFollowsItsPseudocode := by
  intro cmd arg
  simp only [← opField_eq]
  refine ⟨?reservedCW, ?initEnc, ?initDec, ?reservedC0, ?nop, ?enc, ?dec, ?fin, ?close, ?reservedOpcode⟩
  case reservedCW => exact fun hop h => decode_reservedBits_of_formatCW hop (formatCW_eq_false h)
  case initEnc => exact fun hop h0 h1 => decode_initEnc_of_formatCW hop ((formatCW_iff cmd).mpr ⟨h0, h1⟩)
  case initDec => exact fun hop h0 h1 => decode_initDec_of_formatCW hop ((formatCW_iff cmd).mpr ⟨h0, h1⟩)
  case reservedC0 => exact fun hop h => decode_reservedBits_of_formatC0 hop (formatC0_eq_false h)
  case nop => exact fun h => decode_of_toNat_eq (by decide) h decode_of_opField_nop
  case enc => exact fun h => decode_of_toNat_eq (by decide) h decode_of_opField_enc
  case dec => exact fun h => decode_of_toNat_eq (by decide) h decode_of_opField_dec
  case fin => exact fun h => decode_of_toNat_eq (by decide) h decode_of_opField_fin
  case close => exact fun h => decode_of_toNat_eq (by decide) h decode_of_opField_close
  case reservedOpcode => exact decode_reservedOpcode

end Sys2Proof

/-! # UPDATE: the entry check, the argument checks, the narrowing (40_coder_state_machine.md R141 to R145) -/

namespace Sys2Proof.Machine

/-! ## The narrowing (R145) -/

theorem intervalOk_iff {w : Nat} {i : Interval} : intervalOk w i = true ↔
    i.low < i.high ∧ i.low ≤ mask w ∧ i.high ≤ mask w ∧ minRange w ≤ i.range ∧ i.range ≤ fullRange w := by
  simp only [intervalOk, boundsOk, rangeOk, Bool.and_eq_true, decide_eq_true_eq, and_assoc]

/-- The total limit makes every product fit (R35). -/
theorem maxTotal_mul_fullRange_le (b : Build) (w : Nat) : maxTotal b w * fullRange w ≤ b.maxIntValue :=
  (Nat.mul_le_mul_right _ (Nat.min_le_left _ _)).trans (Nat.div_mul_le_self _ _)

theorem maxTotal_le_minRange (b : Build) (w : Nat) : maxTotal b w ≤ minRange w := Nat.min_le_right _ _

/-- The narrowed range is what the two quotients leave between them, the `- 1` of HIGH made good. -/
theorem narrow_range {i : Interval} {total symLow symHigh : Nat}
    (hlt : symLow * i.range / total < symHigh * i.range / total) :
    (i.narrow total symLow symHigh).range = symHigh * i.range / total - symLow * i.range / total := by
  simp only [Interval.range, Interval.narrow] at hlt ⊢
  omega

/-- The difference of two quotients is at least the quotient of the difference. -/
theorem sub_mul_div_le {low high range total : Nat} (hle : low ≤ high) :
    (high - low) * range / total ≤ high * range / total - low * range / total := by
  have hsum : (high - low) * range / total + low * range / total ≤ high * range / total := by
    calc (high - low) * range / total + low * range / total
        ≤ ((high - low) * range + low * range) / total := Nat.div_add_div_le_add_div
      _ = high * range / total := by rw [← Nat.add_mul, Nat.sub_add_cancel hle]
  exact Nat.le_sub_of_add_le hsum

/-- Settles O50: the range is at least the total, so that each symbol of non-zero frequency gets a share of it. -/
theorem narrowingIsExactAndInside : Obligations.NarrowingIsExactAndInside := by
  intro b w i T L H hok hT hLH hHT r n
  obtain ⟨hlt, -, hmask, hmin, hfull⟩ := intervalOk_iff.mp hok
  have hpos : 0 < T := by omega
  have hTr : T ≤ r := hT.trans ((maxTotal_le_minRange b w).trans hmin)
  have hone : 1 ≤ r / T := Nat.div_pos hTr hpos
  have hshare : r / T ≤ (H - L) * r / T := Nat.div_le_div_right (Nat.le_mul_of_pos_left _ (Nat.sub_pos_of_lt hLH))
  have hdiff : (H - L) * r / T ≤ H * r / T - L * r / T := sub_mul_div_le hLH.le
  have hquot : L * r / T < H * r / T := Nat.lt_of_sub_pos (hone.trans (hshare.trans hdiff))
  have hend : i.low + r - 1 = i.high := by simp only [r, Interval.range]; omega
  obtain ⟨hlow, hne, hhigh⟩ := narrow_bounds hlt.le hLH hHT hTr
  exact ⟨Nat.mul_le_mul (hLH.le.trans hHT) hfull, Nat.mul_le_mul hHT hfull, Nat.mul_le_mul_right _ hT,
    maxTotal_mul_fullRange_le b w, narrow_range hquot, hdiff, hshare, hone, hne, hlow, hend ▸ hhigh, hend, hmask,
    (Nat.one_le_of_lt hquot).trans (Nat.le_add_left _ _)⟩

/-! ## The response to an error -/

theorem raiseError_responded {e : Status} {s : State} (hb : s.regs.busy = true) : Responded e 0 (raiseError e s) :=
  ⟨rfl, rfl, hb, rfl⟩

/-- An INTERNAL_FAULT right after the acceptance of a command, whatever its phase (60_exceptions.md R274). -/
theorem internalFault_of_accepted (i : Instr) (s : State) (p : Phase) :
    let t := raiseError .internalFault ((accept (some i) s).enterPhase p)
    Responded .internalFault 0 t ∧ t.regs = { s.regs.during .internalFault with mode := .aborted }
      ∧ SameSurroundings s t ∧ NoPortEvent s t :=
  ⟨raiseError_responded rfl, rfl, ⟨rfl, rfl, rfl, rfl, rfl, rfl⟩, ⟨rfl, rfl, rfl, rfl⟩⟩

/-! ## Up to the entry check (R141) -/

theorem codeOk_iff {i : Interval} {code : Nat} : codeOk i code = true ↔ i.low ≤ code ∧ code ≤ i.high := by
  simp only [codeOk, Bool.and_eq_true, decide_eq_true_eq]

theorem runStages_of_go {p : Phase} {run : State → Flow} {rest : List Stage} {s u : State}
    (h : run (s.enterPhase p) = .go u) : runStages (⟨p, run⟩ :: rest) s = runStages rest u :=
  congrArg (Flow.andThen · (runStages rest)) h

theorem runStages_of_raise {p : Phase} {run : State → Flow} {rest : List Stage} {e : Status} {s u : State}
    (h : run (s.enterPhase p) = .raise e u) : runStages (⟨p, run⟩ :: rest) s = .raise e u :=
  congrArg (Flow.andThen · (runStages rest)) h

theorem requireMode_go {m : Mode} {s : State} (h : s.regs.mode = m) (hm : m ≠ .aborted) : requireMode m s = .go s := by
  rw [requireMode, if_neg (h ▸ hm), if_pos h]

/-- An ENC in mode ENC is its UPDATE (41_encoder.md R181). -/
theorem exec_enc_of_mode {symbol : Nat} {s : State} (hm : s.regs.mode = .enc) :
    exec (.enc symbol) s = settle noResult (runStages (updateStages fun _ => symbolIndex symbol)
      ((accept (some (.enc symbol)) s).enterPhase .checking)) := by
  rw [exec_eq, stagesOf, encStages, runStages_of_go (requireMode_go (by exact hm) (by decide)), resultOf]

theorem updateEntry_raise {symbol : State → Word} {s : State} (h : intervalOk s.w s.interval = false) :
    updateEntry symbol s = .raise .internalFault s := by
  rw [updateEntry, h, check_false, Flow.andThen_raise]

theorem updateEntry_go {symbol : State → Word} {s : State} (hok : intervalOk s.w s.interval = true)
    (hc : s.table.conforming = true) (hs : (symbol s).toNat < s.table.symbolLimit.toNat) :
    updateEntry symbol s = .go s := by
  have hhas : s.table.hasSymbol (symbol s).toNat = true := decide_eq_true hs
  rw [updateEntry, hok, check_true, Flow.andThen_go, hc, hhas]
  rfl

/-- An ENC whose interval invariant fails stops at UPDATE's entry check. -/
theorem exec_enc_of_broken_interval {symbol : Nat} {s : State} (hm : s.regs.mode = .enc)
    (h : intervalOk s.w s.interval = false) :
    exec (.enc symbol) s
      = .next (raiseError .internalFault ((accept (some (.enc symbol)) s).enterPhase .updateEntry)) := by
  rw [exec_enc_of_mode hm, updateStages, runStages_of_raise (updateEntry_raise (by exact h))]
  rfl

theorem decCheck_raise {s : State} (hm : s.regs.mode = .dec)
    (h : (intervalOk s.w s.interval && codeOk s.interval s.code) = false) :
    decCheck s = .raise .internalFault s := by
  rw [decCheck, requireMode_go hm (by decide), Flow.andThen_go, h, check_false, Flow.andThen_raise]

/-- A DEC where the interval invariant or decoder synchrony fails stops at its pre-check (42_decoder.md R212). -/
theorem exec_dec_of_broken_invariant {s : State} (hm : s.regs.mode = .dec)
    (h : (intervalOk s.w s.interval && codeOk s.interval s.code) = false) :
    exec .dec s = .next (raiseError .internalFault ((accept (some .dec) s).enterPhase .checking)) := by
  rw [exec_eq, stagesOf, decStages, List.append_assoc, List.cons_append,
    runStages_of_raise (decCheck_raise (by exact hm) (by exact h)), settle_raise]

/-- Settles O45: each of the two commands has its check before its first query. -/
theorem brokenInvariantAborts : Obligations.BrokenInvariantAborts := by
  rintro i s (⟨⟨symbol, rfl⟩, hm, hbad⟩ | ⟨rfl, hm, hbad⟩)
  · have hbroken : intervalOk s.w s.interval = false := Bool.eq_false_iff.mpr (mt intervalOk_iff.mp hbad)
    exact ⟨_, exec_enc_of_broken_interval hm hbroken, internalFault_of_accepted ..⟩
  · have hbroken : (intervalOk s.w s.interval && codeOk s.interval s.code) = false := by
      refine Bool.eq_false_iff.mpr fun h => hbad ?_
      obtain ⟨hok, hcode⟩ := Bool.and_eq_true_iff.mp h
      obtain ⟨hlt, -, hmask, hmin, hfull⟩ := intervalOk_iff.mp hok
      obtain ⟨hlow, hhigh⟩ := codeOk_iff.mp hcode
      exact ⟨hlt, hmask, hlow, hhigh, hmin, hfull⟩
    exact ⟨_, exec_dec_of_broken_invariant hm hbroken, internalFault_of_accepted ..⟩

/-! ## The queries and the argument checks (R142, R143) -/

/-- A state whose UPDATE, at phase `p`, holds these three answers, after these queries (R142). -/
def State.latched (s : State) (p : Phase) (total low high : Word) (queries : List PortEvent) : State :=
  { s with
    hidden := { s.hidden with phase := p, total := total, low := low, high := high }
    trace := s.trace ++ queries }

theorem State.log_latched (s : State) (p : Phase) (total low high : Word) (queries : List PortEvent) (e : PortEvent) :
    (s.latched p total low high queries).log e = s.latched p total low high (queries ++ [e]) := by
  simp only [State.latched, State.log, List.append_assoc]

theorem State.enterPhase_latched (s : State) (p q : Phase) (total low high : Word) (queries : List PortEvent) :
    (s.latched p total low high queries).enterPhase q = s.latched q total low high queries := rfl

theorem State.enterPhase_eq_latched (s : State) (p : Phase) :
    s.enterPhase p = s.latched p s.hidden.total s.hidden.low s.hidden.high [] := by
  simp only [State.latched, List.append_nil]
  rfl

section
variable {symbol : State → Word} {s : State} {p : Phase} {total low high x : Word} {queries : List PortEvent}
  {rest : List Stage}

/-- A symbol that depends on the search's find alone is the same with other answers latched. -/
theorem symbol_latched (hx : ∀ u : State, u.hidden.symbol = s.hidden.symbol → symbol u = x) :
    symbol (s.latched p total low high queries) = x := hx _ rfl

theorem runStages_queryTotal (hp : s.partnerLimit = none) :
    runStages (⟨.queryTotal, updateQueryTotal⟩ :: rest) (s.latched p total low high queries)
      = runStages rest (s.latched .queryTotal s.table.total low high (queries ++ [.query 0 0 s.table.total])) := by
  refine runStages_of_go ?_
  rw [State.enterPhase_latched, updateQueryTotal, tableQuery_none (by exact hp), State.log_latched]
  rfl

theorem runStages_queryLow (hp : s.partnerLimit = none)
    (hx : ∀ u : State, u.hidden.symbol = s.hidden.symbol → symbol u = x) :
    runStages (⟨.queryLow, updateQueryLow symbol⟩ :: rest) (s.latched p total low high queries)
      = runStages rest
          (s.latched .queryLow total (s.table.low x) high (queries ++ [.query 1 x (s.table.low x)])) := by
  refine runStages_of_go ?_
  rw [State.enterPhase_latched, updateQueryLow, tableQuery_none (by exact hp), State.log_latched, symbol_latched hx]
  rfl

theorem runStages_queryHigh (hp : s.partnerLimit = none)
    (hx : ∀ u : State, u.hidden.symbol = s.hidden.symbol → symbol u = x) :
    runStages (⟨.queryHigh, updateQueryHigh symbol⟩ :: rest) (s.latched p total low high queries)
      = (updateArguments
          (s.latched .queryHigh total low (s.table.high x) (queries ++ [.query 2 x (s.table.high x)]))).andThen
          fun u => runStages rest (updateNarrow u) := by
  rw [runStages_cons, State.enterPhase_latched]
  simp only [updateQueryHigh]
  rw [tableQuery_none (by exact hp), State.log_latched, symbol_latched hx, Flow.andThen_assoc]
  rfl

end

/-- The state of an UPDATE of `symbol` that has its three answers (R142). -/
def State.queried (s : State) (symbol : Word) : State :=
  s.latched .queryHigh s.table.total (s.table.low symbol) (s.table.high symbol)
    [.query 0 0 s.table.total, .query 1 symbol (s.table.low symbol), .query 2 symbol (s.table.high symbol)]

/-- UPDATE after a passed entry check, up to its loops: the three queries, the argument checks, the narrowing. The
symbol is the command's operand or, in DEC, the one its search has found, which `hsym` says of both. -/
theorem runStages_updateStages {symbol : State → Word} {s : State}
    (hsym : ∀ u : State, u.hidden.symbol = s.hidden.symbol → symbol u = symbol s) (hp : s.partnerLimit = none)
    (hok : intervalOk s.w s.interval = true) (hc : s.table.conforming = true)
    (hs : (symbol s).toNat < s.table.symbolLimit.toNat) :
    runStages (updateStages symbol) s = (updateArguments (s.queried (symbol s))).andThen fun u =>
      runStages [⟨.renorm, updateRenorm⟩, ⟨.underflow, updateUnderflow⟩] (updateNarrow u) := by
  have hentry : updateEntry symbol (s.enterPhase .updateEntry) = .go (s.enterPhase .updateEntry) :=
    updateEntry_go hok hc (by rwa [hsym (s.enterPhase .updateEntry) rfl])
  rw [updateStages, runStages_of_go hentry, State.enterPhase_eq_latched, runStages_queryTotal hp,
    runStages_queryLow hp hsym, runStages_queryHigh hp hsym]
  rfl

/-- The argument checks raise the first error that applies (R143). -/
theorem updateArguments_raise {e : Status} {s : State}
    (h : (e = .totalTooLarge ∧ maxTotal s.build s.w < s.hidden.total.toNat)
      ∨ (e = .zeroFrequency ∧ s.hidden.total.toNat ≤ maxTotal s.build s.w
          ∧ (s.hidden.total.toNat = 0 ∨ s.hidden.low = s.hidden.high))) :
    updateArguments s = .raise e s := by
  rcases h with ⟨rfl, hlarge⟩ | ⟨rfl, hsmall, hzero⟩
  · have htotal : totalTooLarge s.build s.w s.hidden.total.toNat = true := decide_eq_true hlarge
    rw [updateArguments, htotal, Bool.not_true, check_false, Flow.andThen_raise]
  · have htotal : totalTooLarge s.build s.w s.hidden.total.toNat = false := decide_eq_false hsmall.not_gt
    have hfreq : zeroFrequency s.hidden.total.toNat s.hidden.low.toNat s.hidden.high.toNat = true := by
      rw [zeroFrequency, Bool.or_eq_true, beq_iff_eq, beq_iff_eq]
      exact hzero.imp_right (congrArg BitVec.toNat)
    rw [updateArguments, htotal, Bool.not_false, check_true, Flow.andThen_go, hfreq, Bool.not_true, check_false]

theorem symbolIndex_toNat {symbol : Nat} (h : symbol < 2 ^ 64) : (symbolIndex symbol).toNat = symbol :=
  (BitVec.toNat_ofNat ..).trans (Nat.mod_eq_of_lt h)

/-- An ENC in an open session of a symbol of a conforming table: UPDATE with the answers about the symbol, from the
argument checks on. -/
theorem exec_enc_queried {symbol : Nat} {s : State} (hm : s.regs.mode = .enc) (hok : intervalOk s.w s.interval = true)
    (hp : s.partnerLimit = none) (hc : s.table.conforming = true) (hs : symbol < s.table.symbolLimit.toNat) :
    exec (.enc symbol) s = settle noResult
      ((updateArguments (((accept (some (.enc symbol)) s).enterPhase .checking).queried (symbolIndex symbol))).andThen
        fun u => runStages [⟨.renorm, updateRenorm⟩, ⟨.underflow, updateUnderflow⟩] (updateNarrow u)) := by
  have hindex : (symbolIndex symbol).toNat < s.table.symbolLimit.toNat := by
    rwa [symbolIndex_toNat (hs.trans s.table.symbolLimit.isLt)]
  rw [exec_enc_of_mode hm]
  exact congrArg _ (runStages_updateStages (fun _ _ => rfl) hp hok hc hindex)

/-- Settles O44: the checks stop UPDATE between its queries and its first register write. -/
theorem encodeRejectsBadArguments : Obligations.EncodeRejectsBadArguments := by
  intro symbol s e hm hok hp hc hs T L H hbad
  have hmode : e.modeAfter s.regs.mode = s.regs.mode := by
    rcases hbad with ⟨rfl, -⟩ | ⟨rfl, -⟩ <;> rfl
  let u := ((accept (some (.enc symbol)) s).enterPhase .checking).queried (symbolIndex symbol)
  have hraise : updateArguments u = .raise e u := updateArguments_raise hbad
  have hexec : exec (.enc symbol) s = .next (raiseError e u) := by
    rw [exec_enc_queried hm hok hp hc hs, hraise, Flow.andThen_raise, settle_raise]
  have hregs : (raiseError e u).regs = s.regs.during e :=
    congrArg (fun m => { s.regs.during e with mode := m }) hmode
  exact ⟨_, hexec, raiseError_responded rfl, hregs, ⟨rfl, rfl, rfl, rfl, rfl, rfl⟩, rfl, rfl, rfl⟩

end Sys2Proof.Machine

/-! # The encoder's session commands: INIT.ENC and FIN (41_encoder.md R180, R184) -/

namespace Sys2Proof.Machine

/-! ## An error before the first transfer -/

/-- An error raised right after the acceptance of a command, whatever its phase: the response, MODE as the error's rule
says, and nothing else (60_exceptions.md R270). -/
theorem raiseError_of_accepted (e : Status) (i : Instr) (s : State) (p : Phase) :
    let t := raiseError e ((accept (some i) s).enterPhase p)
    Responded e 0 t ∧ t.regs = { s.regs.during e with mode := e.modeAfter s.regs.mode }
      ∧ SameSurroundings s t ∧ NoPortEvent s t :=
  ⟨raiseError_responded rfl, rfl, ⟨rfl, rfl, rfl, rfl, rfl, rfl⟩, ⟨rfl, rfl, rfl, rfl⟩⟩

theorem requireMode_sequenceError {m : Mode} {s : State} (ha : s.regs.mode ≠ .aborted) (hm : s.regs.mode ≠ m) :
    requireMode m s = .raise .sequenceError s := by
  rw [requireMode, if_neg ha, if_neg hm]

/-! ## INIT.ENC (R180) -/

/-- The fields of CMD = 0x0000_wwXX, XX an OP: the word of INIT.ENC and of INIT.DEC (30_encoding.md R111). -/
theorem fields_of_width_op {w op : Nat} (hw : w < 256) (hop : op < 16) :
    let cmd : CmdWord := BitVec.ofNat 32 (w * 2 ^ 8 + op)
    opField cmd = op ∧ widthField cmd = w ∧ formatCW cmd = true := by
  intro cmd
  have hcmd : cmd.toNat = w * 256 + op := (BitVec.toNat_ofNat ..).trans (Nat.mod_eq_of_lt (by omega))
  rw [opField_eq, widthField_eq, formatCW_iff, hcmd]
  omega

theorem decode_initEnc_word {w : Nat} (hw : w < 256) (arg : Word) :
    decode (BitVec.ofNat 32 (w * 2 ^ 8 + 1)) arg = .ok (.initEnc w) := by
  obtain ⟨hop, hwidth, hzero⟩ := fields_of_width_op hw (op := 1) (by decide)
  rw [decode_of_opField_initEnc hop, hwidth]
  exact ifReservedZero_ok.mpr ⟨hzero, rfl⟩

theorem legalWidth_eq_false {w : Nat} (h : ¬ (1 ≤ w ∧ w ≤ 63)) : legalWidth w = false :=
  Bool.eq_false_iff.mpr (mt legalWidth_iff.mp h)

theorem Regs.opened_width_toNat (r : Regs) {w : Nat} (hw : w ≤ 63) : (r.opened w).width.toNat = w :=
  (BitVec.toNat_ofNat ..).trans (Nat.mod_eq_of_lt (by omega))

/-- The mask of a legal width fits HIGH. -/
theorem Regs.opened_high_toNat (r : Regs) {w : Nat} (hw : w ≤ 63) : (r.opened w).high.toNat = 2 ^ w - 1 := by
  have hfits : mask w < 2 ^ 63 := (mask_lt w).trans_le (Nat.pow_le_pow_right (by decide) hw)
  exact (BitVec.toNat_ofNat ..).trans (Nat.mod_eq_of_lt hfits)

theorem exec_initEnc_of_legal {w : Nat} (hw : legalWidth w = true) (s : State) :
    let u := (accept (some (.initEnc w)) s).enterPhase .checking
    exec (.initEnc w) s = .next (respond .ok 0 ((u.withRegs (u.regs.opened w)).writeMode .enc)) := by
  intro u
  have hopen : initEncOpen w u = .go ((u.withRegs (u.regs.opened w)).writeMode .enc) := by
    rw [initEncOpen, hw, check_true, Flow.andThen_go]
  rw [exec_eq, stagesOf, initEncStages, runStages_of_go hopen, runStages_nil, settle_go, resultOf, noResult]

theorem exec_initEnc_of_illegal {w : Nat} (hw : legalWidth w = false) (s : State) :
    exec (.initEnc w) s
      = .next (raiseError .domainError ((accept (some (.initEnc w)) s).enterPhase .checking)) := by
  let u := (accept (some (.initEnc w)) s).enterPhase .checking
  have hopen : initEncOpen w u = .raise .domainError u := by
    rw [initEncOpen, hw, check_false, Flow.andThen_raise]
  rw [exec_eq, stagesOf, initEncStages, runStages_of_raise hopen, settle_raise]

/-- Settles O26: the width check is the command's one branch. -/
theorem initEncOpensASession : Obligations.InitEncOpensASession := by
  refine ⟨fun w arg hw => decode_initEnc_word hw arg, fun w s => ?_⟩
  by_cases hw : 1 ≤ w ∧ w ≤ 63
  · exact ⟨_, exec_initEnc_of_legal (legalWidth_iff.mpr hw) s, ⟨rfl, rfl, rfl, rfl, rfl, rfl⟩, ⟨rfl, rfl, rfl, rfl⟩,
      fun _ => ⟨⟨rfl, rfl, rfl, rfl⟩, rfl, Regs.opened_width_toNat s.regs hw.2, rfl,
        Regs.opened_high_toNat s.regs hw.2, rfl, rfl⟩,
      fun h => absurd hw h⟩
  · obtain ⟨hresponded, hregs, hsame, hquiet⟩ := raiseError_of_accepted .domainError (.initEnc w) s .checking
    exact ⟨_, exec_initEnc_of_illegal (legalWidth_eq_false hw) s, hsame, hquiet, fun h => absurd h hw,
      fun _ => ⟨hresponded, hregs⟩⟩

/-! ## FIN (R184) -/

/-- A sink that accepts takes the bit, one of the partners' transfers used up (20_memory.md R85). -/
theorem bitOut_go {s : State} (h : s.partnerLimit ≠ some 0) (b : Bit) :
    bitOut b s = .go (((s.withLimit (s.partnerLimit.map (· - 1))).withSink (s.sink ++ [b])).log (.bitOut b)) := by
  rcases transfer_cases s fun u => .go ((u.withSink (bitSinkStep u.sink b)).log (.bitOut b))
    with ⟨hzero, -⟩ | ⟨hnone, hgo⟩ | ⟨n, hsome, hgo⟩
  · exact absurd hzero h
  · have hsame : s.withLimit none = s := by rw [← hnone]; rfl
    rw [bitOut_none hnone, hnone, Option.map_none, hsame]
  · rw [bitOut, hgo, hsome]
    rfl

/-- A FIN in mode ENC whose bit the sink accepts. -/
theorem exec_fin_of_mode {s : State} (hm : s.regs.mode = .enc) (hp : s.partnerLimit ≠ some 0) :
    let u := ((accept (some .fin) s).enterPhase .checking).enterPhase .finalBit
    let sent := ((u.withLimit (s.partnerLimit.map (· - 1))).withSink (s.sink ++ [true])).log (.bitOut true)
    exec .fin s = .next (respond .ok 0 ((sent.enterPhase .responding).writeMode .encFin)) := by
  intro u sent
  have hbit : bitOut true u = .go sent := bitOut_go (s := u) hp true
  rw [exec_eq, stagesOf, finStages, runStages_of_go (requireMode_go (by exact hm) (by decide)), runStages_of_go hbit]
  rfl

theorem exec_fin_of_other_mode {s : State} (ha : s.regs.mode ≠ .aborted) (hm : s.regs.mode ≠ .enc) :
    exec .fin s = .next (raiseError .sequenceError ((accept (some .fin) s).enterPhase .checking)) := by
  rw [exec_eq, stagesOf, finStages, runStages_of_raise (requireMode_sequenceError (by exact ha) (by exact hm)),
    settle_raise]

/-- Settles O29: FIN passes its mode check in ENC alone, so the session that it has closed refuses a second one. -/
theorem finEmitsOneBit : Obligations.FinEmitsOneBit := by
  refine ⟨fun arg => decode_of_toNat_eq (by decide) rfl decode_of_opField_fin, fun s hm hp => ?_, fun s hm => ?_⟩
  · exact ⟨_, exec_fin_of_mode hm hp, ⟨rfl, rfl, rfl, rfl⟩, rfl, rfl, rfl, rfl, ⟨rfl, rfl, rfl, rfl, rfl, rfl⟩⟩
  · obtain ⟨hresponded, hregs, hsame, hquiet⟩ := raiseError_of_accepted .sequenceError .fin s .checking
    exact ⟨_, exec_fin_of_other_mode (by simp [hm]) (by simp [hm]), hresponded, hregs, hsame, hquiet⟩

end Sys2Proof.Machine

/-! # INIT.DEC (42_decoder.md R210, R227) -/

namespace Sys2Proof.Machine

/-! ## The input stream and the code window -/

/-- The items of the source as the decoder reads them: the bits left, then the 0 of EOS for ever (R227). -/
def padded (items : List Bit) : Stream' Bit := fun k => (items[k]?).getD false

theorem padded_drop (items : List Bit) (n : Nat) : padded (items.drop n) = (padded items).drop n := by
  funext k
  simp only [padded, List.getElem?_drop, Nat.add_comm n k]
  rfl

theorem bitsRead_eq_take (n : Nat) (items : List Bit) : bitsRead n items = (padded items).take n := by
  induction n with
  | zero => rfl
  | succ n ih =>
    rw [Stream'.take_succ', ← ih]
    simp only [bitsRead, List.range_succ, List.map_append]
    rfl

/-- The number that the first `w` bits of a stream spell, the first bit on top (20_memory.md R87). -/
def window : Nat → Stream' Bit → Nat
  | 0, _ => 0
  | w + 1, bits => 2 * window w bits + (bits.get w).toNat

theorem window_lt (w : Nat) (bits : Stream' Bit) : window w bits < 2 ^ w := by
  induction w with
  | zero => exact Nat.one_pos
  | succ w ih =>
    have hbit := Bool.toNat_lt (bits.get w)
    rw [window, Nat.pow_succ]
    omega

/-- CODE holds the window of a legal width exactly. -/
theorem window_toNat {w : Nat} (hw : w ≤ 63) (bits : Stream' Bit) :
    (BitVec.ofNat 63 (window w bits)).toNat = window w bits :=
  (BitVec.toNat_ofNat ..).trans
    (Nat.mod_eq_of_lt ((window_lt w bits).trans_le (Nat.pow_le_pow_right (by decide) hw)))

/-- Bit k of the stream is bit w-1-k of its window. -/
theorem testBit_window (bits : Stream' Bit) {w k : Nat} (hk : k < w) :
    (window w bits).testBit (w - 1 - k) = bits.get k := by
  induction w with
  | zero => exact absurd hk (Nat.not_lt_zero k)
  | succ w ih =>
    have hbit := Bool.toNat_lt (bits.get w)
    have hsnoc : window (w + 1) bits = 2 * window w bits + (bits.get w).toNat := rfl
    rcases Nat.lt_succ_iff_lt_or_eq.mp hk with hlt | rfl
    · have hhalf : window (w + 1) bits / 2 = window w bits := by omega
      obtain ⟨n, hn⟩ : ∃ n, w - k = n + 1 := ⟨w - k - 1, by omega⟩
      rw [Nat.add_sub_cancel, hn, Nat.testBit_succ, hhalf, ← ih hlt]
      congr 1
      omega
    · have hmod : window (k + 1) bits % 2 = (bits.get k).toNat := by omega
      rw [Nat.add_sub_cancel, Nat.sub_self, Nat.testBit_zero, hmod]
      cases bits.get k <;> rfl

/-- The initial read fills CODE with the window of the stream. -/
theorem foldl_codeInitial_eq_window (w : Nat) (bits : Stream' Bit) :
    (bits.take w).foldl codeInitial 0 = window w bits := by
  induction w with
  | zero => rfl
  | succ w ih => rw [Stream'.take_succ', List.foldl_append, ih, List.foldl_cons, List.foldl_nil, codeInitial_eq, window]

/-! ## The command -/

theorem decode_initDec_word {w : Nat} (hw : w < 256) (arg : Word) :
    decode (BitVec.ofNat 32 (w * 2 ^ 8 + 2)) arg = .ok (.initDec w) := by
  obtain ⟨hop, hwidth, hzero⟩ := fields_of_width_op hw (op := 2) (by decide)
  rw [decode_of_opField_initDec hop, hwidth]
  exact ifReservedZero_ok.mpr ⟨hzero, rfl⟩

/-- A state whose registers are those a session of width `w` starts from (R210). -/
def State.opened (s : State) (w : Nat) : State := s.withRegs (s.regs.opened w)

theorem State.opened_interval (s : State) {w : Nat} (hw : w ≤ 63) : (s.opened w).interval = ⟨0, mask w⟩ :=
  congrArg (Interval.mk 0) (Regs.opened_high_toNat s.regs hw)

/-- INIT.DEC of a legal width: the registers of the new session, then CODE from the first w items. -/
theorem exec_initDec_of_legal {w : Nat} {s : State} (hw : 1 ≤ w ∧ w ≤ 63) (hp : s.partnerLimit = none) :
    ∃ h, exec (.initDec w) s = .next (respond .ok 0
      ((((accept (some (.initDec w)) s).opened w).moved ⟨0, mask w⟩ 0 (window w (padded s.source)) h
        (s.source.drop w) [] ((itemsRead w s.source).map .bitIn)).writeMode .dec)) := by
  let u := (accept (some (.initDec w)) s).enterPhase .checking
  let v := (u.opened w).withHidden { u.hidden with initBits := 0 }
  have hopen : initDecOpen w u = .go v := by
    rw [initDecOpen, legalWidth_iff.mpr hw, check_true, Flow.andThen_go]
    rfl
  have hcode : (v.enterPhase .initialRead).code = 0 := rfl
  have hinterval : (v.enterPhase .initialRead).interval = ⟨0, mask w⟩ := State.opened_interval u hw.2
  have hread := readInitial_none (n := w) (m := 0) (s := v.enterPhase .initialRead) hp
    (hcode ▸ Nat.one_pos) (by omega)
  rw [hcode, hinterval, bitsRead_eq_take, foldl_codeInitial_eq_window] at hread
  rw [exec_eq, stagesOf, initDecStages, runStages_of_go hopen,
    runStages_of_go (show initDecRead w (v.enterPhase .initialRead) = _ from hread)]
  exact ⟨_, rfl⟩

theorem exec_initDec_of_illegal {w : Nat} (hw : legalWidth w = false) (s : State) :
    exec (.initDec w) s
      = .next (raiseError .domainError ((accept (some (.initDec w)) s).enterPhase .checking)) := by
  let u := (accept (some (.initDec w)) s).enterPhase .checking
  have hopen : initDecOpen w u = .raise .domainError u := by
    rw [initDecOpen, hw, check_false, Flow.andThen_raise]
  rw [exec_eq, stagesOf, initDecStages, runStages_of_raise hopen, settle_raise]

/-- Settles O27: the width check is the command's one branch; after it CODE is the window of the stream. -/
theorem initDecFillsCode : Obligations.InitDecFillsCode := by
  refine ⟨fun w arg hw => decode_initDec_word hw arg, fun w s hw1 hw63 hp => ?_, fun w s hw => ?_⟩
  · obtain ⟨h, hexec⟩ := exec_initDec_of_legal ⟨hw1, hw63⟩ hp
    have hcode := window_toNat hw63 (padded s.source)
    refine ⟨_, hexec, ⟨rfl, rfl, rfl, rfl⟩, ⟨rfl, rfl, rfl, rfl, rfl, rfl⟩, rfl, Regs.opened_width_toNat s.regs hw63,
      rfl, Regs.opened_high_toNat s.regs hw63, rfl, ?_, fun k hk => ?_, rfl, List.append_nil _, hp, rfl⟩
    · exact hcode.trans_lt (window_lt w _)
    · exact (congrArg (Nat.testBit · (w - 1 - k)) hcode).trans (testBit_window (padded s.source) hk)
  · obtain ⟨hresponded, hregs, hsame, hquiet⟩ := raiseError_of_accepted .domainError (.initDec w) s .checking
    exact ⟨_, exec_initDec_of_illegal (legalWidth_eq_false (by omega)) s, hresponded, hsame, hquiet, hregs⟩

end Sys2Proof.Machine

/-! # DEC up to its UPDATE (42_decoder.md R211 to R217) -/

namespace Sys2Proof.Machine

/-! ## The pre-check and the total checks (R212, R213) -/

/-- A state some queries further on in the same command: other latched values, all else the same. -/
def State.asked (s : State) (h : Hidden) (queries : List PortEvent) : State :=
  { s with hidden := h, trace := s.trace ++ queries }

theorem decCheck_go {s : State} (hm : s.regs.mode = .dec) (hok : intervalOk s.w s.interval = true)
    (hcode : codeOk s.interval s.code = true) (hc : s.table.conforming = true) : decCheck s = .go s := by
  rw [decCheck, requireMode_go hm (by decide), Flow.andThen_go, hok, hcode, Bool.and_self, check_true,
    Flow.andThen_go, hc]
  rfl

theorem decTotalChecks_raise {e : Status} {s : State}
    (h : (e = .totalTooLarge ∧ maxTotal s.build s.w < s.hidden.total.toNat)
      ∨ (e = .zeroFrequency ∧ s.hidden.total.toNat = 0)) : decTotalChecks s = .raise e s := by
  rcases h with ⟨rfl, hlarge⟩ | ⟨rfl, hzero⟩
  · have htotal : totalTooLarge s.build s.w s.hidden.total.toNat = true := decide_eq_true hlarge
    rw [decTotalChecks, htotal, Bool.not_true, check_false, Flow.andThen_raise]
  · have htotal : totalTooLarge s.build s.w 0 = false := decide_eq_false (Nat.not_lt_zero _)
    rw [decTotalChecks, hzero, htotal, Bool.not_false, check_true, Flow.andThen_go, hzero,
      bne_self_eq_false, check_false]

theorem decTotalChecks_go {s : State} (hlarge : s.hidden.total.toNat ≤ maxTotal s.build s.w)
    (hzero : s.hidden.total.toNat ≠ 0) : decTotalChecks s = .go s := by
  have htotal : totalTooLarge s.build s.w s.hidden.total.toNat = false := decide_eq_false hlarge.not_gt
  rw [decTotalChecks, htotal, Bool.not_false, check_true, Flow.andThen_go, bne_iff_ne.mpr hzero, check_true]

/-- The state of a DEC that has its first answer, T (R213). -/
def State.totalAsked (s : State) : State :=
  s.asked { s.hidden with phase := .decTotal, total := s.table.total } [.query 0 0 s.table.total]

theorem decTotal_eq {s : State} (hp : s.partnerLimit = none) :
    decTotal (s.enterPhase .decTotal) = (decTotalChecks s.totalAsked).andThen decInverse :=
  tableQuery_none (s := s.enterPhase .decTotal) hp _ _

/-- A DEC whose pre-check passes, from its total checks on. -/
theorem exec_dec_totalAsked {s : State} (hm : s.regs.mode = .dec) (hok : intervalOk s.w s.interval = true)
    (hcode : codeOk s.interval s.code = true) (hp : s.partnerLimit = none) (hc : s.table.conforming = true) :
    exec .dec s = settle decodedIndex
      (((decTotalChecks ((accept (some .dec) s).enterPhase .checking).totalAsked).andThen decInverse).andThen
        (runStages decStages.tail.tail)) := by
  let u := (accept (some .dec) s).enterPhase .checking
  have hcheck : decCheck u = .go u := decCheck_go hm hok hcode hc
  rw [← decTotal_eq (s := u) hp, exec_eq, stagesOf, resultOf]
  exact congrArg (settle decodedIndex) (runStages_of_go (rest := decStages.tail) hcheck)

/-- Settles O47: the checks stop DEC between its first query and its first computation. -/
theorem decodeRejectsBadTotals : Obligations.DecodeRejectsBadTotals := by
  intro s e hm hok hcode hp hc hbad
  let u := ((accept (some .dec) s).enterPhase .checking).totalAsked
  have hmode : e.modeAfter s.regs.mode = s.regs.mode := by
    rcases hbad with ⟨rfl, -⟩ | ⟨rfl, -⟩ <;> rfl
  have hraise : decTotalChecks u = .raise e u := decTotalChecks_raise hbad
  have hexec : exec .dec s = .next (raiseError e u) := by
    rw [exec_dec_totalAsked hm hok hcode hp hc, hraise, Flow.andThen_raise, Flow.andThen_raise, settle_raise]
  have hregs : (raiseError e u).regs = s.regs.during e :=
    congrArg (fun m => { s.regs.during e with mode := m }) hmode
  exact ⟨_, hexec, raiseError_responded rfl, hregs, ⟨rfl, rfl, rfl, rfl, rfl, rfl⟩, rfl, rfl, rfl⟩

end Sys2Proof.Machine

/-! # The code window under the steps of UPDATE (42_decoder.md R221 to R223, 41_encoder.md R186) -/

namespace Sys2Proof.Machine

/-! ## Streams and their windows -/

/-- The first bit of a window is its top bit: the window of one bit more, read from both ends. -/
theorem two_mul_window (w : Nat) (bits : Stream' Bit) :
    2 * window w bits + (bits.get w).toNat = bits.head.toNat * 2 ^ w + window w bits.tail := by
  induction w with
  | zero => simp [window]
  | succ w ih =>
    have hnext : window (w + 1) bits.tail = 2 * window w bits.tail + (bits.get (w + 1)).toNat := rfl
    rw [window, hnext, Nat.pow_succ, ← Nat.mul_assoc]
    omega

/-- The bits an encoder emits in place of `bits` when one more E3 step precedes them: a bit of the opposite polarity
after the first one (R182). -/
def deferred (bits : Stream' Bit) : Stream' Bit := Stream'.cons bits.head (Stream'.cons (!bits.head) bits.tail)

theorem iterate_deferred (p : Nat) (bits : Stream' Bit) :
    deferred^[p] bits = Stream'.cons bits.head (List.replicate p (!bits.head) ++ₛ bits.tail) := by
  induction p with
  | zero => exact (Stream'.eta bits).symm
  | succ p ih => rw [Function.iterate_succ_apply', ih]; rfl

theorem deferred_drop {w : Nat} (hw : 2 ≤ w) (bits : Stream' Bit) : (deferred bits).drop w = bits.drop (w - 1) := by
  obtain ⟨n, rfl⟩ : ∃ n, w = n + 2 := ⟨w - 2, by omega⟩
  rfl

theorem two_mul_window_deferred {w : Nat} (hw : 2 ≤ w) (bits : Stream' Bit) :
    2 * window w (deferred bits) + (bits.get (w - 1)).toNat = window w bits + halfRange w := by
  obtain ⟨n, rfl⟩ : ∃ n, w = n + 1 := ⟨w - 1, by omega⟩
  have hget : (deferred bits).get (n + 1) = bits.get n := by
    obtain ⟨m, rfl⟩ : ∃ m, n = m + 1 := ⟨n - 1, by omega⟩
    rfl
  have hfirst : _ = bits.head.toNat * 2 ^ (n + 1) + _ := two_mul_window (n + 1) (deferred bits)
  have hsecond : window (n + 1) (deferred bits).tail = (!bits.head).toNat * 2 ^ n + window n bits.tail :=
    two_mul_window n (deferred bits).tail
  have hplain : window (n + 1) bits = bits.head.toNat * 2 ^ n + window n bits.tail := two_mul_window n bits
  have hhalf : halfRange (n + 1) = 2 ^ n := halfRange_eq (by omega)
  rw [hget, hsecond, Nat.pow_succ] at hfirst
  rw [Nat.add_sub_cancel, hplain, hhalf, hfirst]
  cases bits.head <;> simp only [Bool.not_true, Bool.not_false, Bool.toNat_true, Bool.toNat_false] <;> omega

/-! ## The decoder's hooks on the window -/

theorem or_toNat_of_even {n : Nat} (h : n % 2 = 0) (b : Bit) : n ||| b.toNat = n + b.toNat := by
  cases b with
  | false => exact Nat.or_zero n
  | true => exact or_one_of_even h

theorem codeShift_eq {w : Nat} (hw : 1 ≤ w) (code : Nat) (b : Bit) :
    codeShift w code b = 2 * code % fullRange w + b.toNat := by
  have heven : 2 * code % fullRange w % 2 = 0 := by
    rw [fullRange_eq_two_half hw, Nat.mod_mul_right_mod, Nat.mul_mod_right]
  have hmod : (code <<< 1) &&& mask w = 2 * code % fullRange w := by
    rw [mask, fullRange, Nat.and_two_pow_sub_one_eq_mod, Nat.shiftLeft_eq, Nat.pow_one, Nat.mul_comm]
  rw [codeShift, hmod, or_toNat_of_even heven]

/-- An E1/E2 step drops the first bit of the window. -/
theorem codeShift_window {w : Nat} (hw : 1 ≤ w) (bits : Stream' Bit) :
    codeShift w (window w bits) (bits.get w) = window w bits.tail := by
  have hf := fullRange_eq_two_half hw
  have hstep := two_mul_window w bits
  have hlt : window w bits.tail < fullRange w := window_lt w bits.tail
  have hb := Bool.toNat_lt (bits.get w)
  rw [codeShift_eq hw]
  rw [← fullRange] at hstep
  cases hhead : bits.head with
  | false =>
    rw [hhead, Bool.toNat_false] at hstep
    rw [Nat.mod_eq_of_lt (by omega)]
    omega
  | true =>
    rw [hhead, Bool.toNat_true] at hstep
    rw [Nat.mod_eq_sub_mod (by omega), Nat.mod_eq_of_lt (by omega)]
    omega

/-- A CODE in the middle half loses its second bit (R222). -/
theorem codeUnderflow_spec {w code : Nat} (hw : 2 ≤ w) (hlow : quarterRange w ≤ code)
    (hhigh : code < halfRange w + quarterRange w) (b : Bit) :
    codeUnderflow w code b + halfRange w = 2 * code + b.toNat := by
  have h2 := halfRange_eq_two_quarter hw
  have hf := fullRange_eq_two_half (w := w) (by omega)
  have hpow : halfRange w = 2 ^ (w - 1) := halfRange_eq (by omega)
  have htop : code &&& halfRange w = (decide (halfRange w ≤ code)).toNat * halfRange w := by
    rw [← testBit_top (by omega) (by omega), hpow, Nat.and_two_pow]
  have hrest : (code <<< 1) &&& (mask w >>> 1) = 2 * code % halfRange w := by
    rw [mask_shiftRight_one (by omega), Nat.and_two_pow_sub_one_eq_mod, Nat.shiftLeft_eq, Nat.pow_one, Nat.mul_comm,
      hpow]
  have hlt : 2 * code % halfRange w < 2 ^ (w - 1) := by rw [← hpow]; exact Nat.mod_lt _ (by omega)
  have hmod : 2 * code % halfRange w % 2 = 0 := by rw [h2, Nat.mod_mul_right_mod, Nat.mul_mod_right]
  rw [codeUnderflow, htop, hrest]
  by_cases h : halfRange w ≤ code
  · have hor := Nat.two_pow_add_eq_or_of_lt hlt 1
    have hval : 2 * code % halfRange w = 2 * code - fullRange w := by
      rw [Nat.mod_eq_sub_mod (by omega), Nat.mod_eq_sub_mod (by omega), Nat.mod_eq_of_lt (by omega)]
      omega
    rw [Nat.mul_one, ← hpow] at hor
    rw [decide_eq_true h, Bool.toNat_true, Nat.one_mul, ← hor, or_toNat_of_even (by omega)]
    omega
  · have hval : 2 * code % halfRange w = 2 * code - halfRange w := by
      rw [Nat.mod_eq_sub_mod (by omega), Nat.mod_eq_of_lt (by omega)]
    rw [decide_eq_false h, Bool.toNat_false, Nat.zero_mul, Nat.zero_or, or_toNat_of_even hmod]
    omega

/-- An E3 step drops the second bit of the window. -/
theorem codeUnderflow_window {w : Nat} (hw : 2 ≤ w) (bits : Stream' Bit) :
    codeUnderflow w (window w (deferred bits)) (bits.get (w - 1)) = window w bits := by
  have h2 := halfRange_eq_two_quarter hw
  have hf := fullRange_eq_two_half (w := w) (by omega)
  have hstep := two_mul_window_deferred hw bits
  have hlt : window w bits < fullRange w := window_lt w bits
  have hb := Bool.toNat_lt (bits.get (w - 1))
  have hspec := codeUnderflow_spec hw (code := window w (deferred bits)) (by omega) (by omega) (bits.get (w - 1))
  omega

theorem foldl_codeShift_window {w : Nat} (hw : 1 ≤ w) (k : Nat) (bits : Stream' Bit) :
    ((bits.drop w).take k).foldl (codeShift w) (window w bits) = window w (bits.drop k) := by
  induction k generalizing bits with
  | zero => rfl
  | succ k ih =>
    rw [Stream'.take_succ, List.foldl_cons, Stream'.head_drop, codeShift_window hw, Stream'.tail_drop, ih]
    rfl

theorem foldl_codeUnderflow_window {w : Nat} (hw : 2 ≤ w) (k : Nat) (bits : Stream' Bit) :
    (((deferred^[k] bits).drop w).take k).foldl (codeUnderflow w) (window w (deferred^[k] bits)) = window w bits := by
  induction k with
  | zero => rfl
  | succ k ih =>
    have htail : ((deferred^[k] bits).drop (w - 1)).tail = (deferred^[k] bits).drop w := by
      rw [Stream'.tail_drop', Nat.sub_add_cancel (by omega)]
    rw [Function.iterate_succ_apply', deferred_drop hw, Stream'.take_succ, List.foldl_cons, Stream'.head_drop,
      codeUnderflow_window hw, htail, ih]

end Sys2Proof.Machine

/-! # The steps of one UPDATE, and the bits that spell a message (40_coder_state_machine.md R146 to R153) -/

namespace Sys2Proof.Machine

/-! ## Where the two loops lead -/

/-- The interval straddles the midpoint: the E1/E2 loop has ended (R148). -/
structure Astride (w : Nat) (i : Interval) : Prop where
  low : i.low < halfRange w
  mid : halfRange w ≤ i.high
  high : i.high < fullRange w

/-- The interval is one that UPDATE ends with (R153). -/
structure Settled (w : Nat) (i : Interval) : Prop extends Astride w i where
  quarter : i.low < quarterRange w ∨ halfRange w + quarterRange w ≤ i.high ∨ w = 1

theorem Settled.intervalOk {w : Nat} {i : Interval} (hw : 1 ≤ w) (h : Settled w i) : intervalOk w i = true :=
  intervalOk_of_settled hw h.low h.mid h.high h.quarter

/-- The interval a session starts from is settled. -/
theorem settled_opened {w : Nat} (hw : 1 ≤ w) : Settled w ⟨0, mask w⟩ := by
  have hf := fullRange_eq_two_half hw
  have hpos := fullRange_pos w
  refine ⟨⟨?_, ?_, mask_lt w⟩, ?_⟩
  · show 0 < halfRange w
    omega
  · show halfRange w ≤ fullRange w - 1
    omega
  · rcases Nat.eq_or_lt_of_le hw with rfl | hw2
    · exact .inr (.inr rfl)
    · exact .inl (show 0 < quarterRange w by rw [quarterRange_eq hw2]; exact Nat.two_pow_pos _)

/-- The loops of one UPDATE from the narrowed interval `i`: `k1` E1/E2 steps to `j1`, then `k3` E3 steps to `j3`. -/
structure UpdateRuns (w : Nat) (i : Interval) (k1 : Nat) (j1 : Interval) (k3 : Nat) (j3 : Interval) : Prop where
  ordered : i.low ≤ i.high
  inside : i.high < fullRange w
  renorm : RenormRuns w i k1 j1
  astride : Astride w j1
  underflow : UnderflowRuns w j1 k3 j3
  settled : Settled w j3
  steps : k1 + k3 ≤ w

/-- Each step doubles the range, so the loops end within W steps (R151). -/
theorem updateRuns_exists {w : Nat} (hw : 1 ≤ w ∧ w ≤ 63) {i : Interval} (hle : i.low ≤ i.high)
    (hh : i.high < fullRange w) : ∃ k1 j1 k3 j3, UpdateRuns w i k1 j1 k3 j3 := by
  obtain ⟨k1, j1, hrenorm, hlow1, hmid1, hhigh1, hrange1⟩ := renormRuns_exists hw.1 hle hh
  obtain ⟨k3, j3, hunderflow, hlow3, hmid3, hhigh3, hquarter, hrange3⟩ :=
    underflowRuns_exists hw.1 (by omega) hlow1 hmid1 hhigh1
  have hsteps : 2 ^ (k1 + k3) ≤ 2 ^ w := by
    calc 2 ^ (k1 + k3) ≤ 2 ^ (k1 + k3) * i.range := Nat.le_mul_of_pos_right _ (Nat.succ_pos _)
      _ = j3.range := by rw [hrange3, hrange1, Nat.pow_add, Nat.mul_comm (2 ^ k1), Nat.mul_assoc]
      _ ≤ 2 ^ w := by
        rw [Interval.range]
        exact (Nat.succ_le_succ (Nat.sub_le _ _)).trans hhigh3
  exact ⟨k1, j1, k3, j3, hle, hh, hrenorm, ⟨hlow1, hmid1, hhigh1⟩, hunderflow, ⟨⟨hlow3, hmid3, hhigh3⟩, hquarter⟩,
    (Nat.pow_le_pow_iff_right (by decide)).mp hsteps⟩

theorem underflowRuns_one {i j : Interval} {k : Nat} (h : UnderflowRuns 1 i k j) : k = 0 ∧ j = i := by
  rcases runsTo_inv h with ⟨hk, hj, -⟩ | ⟨_, -, hdue, -⟩
  · exact ⟨hk, hj⟩
  · rw [underflowDue_one] at hdue
    exact absurd hdue (by decide)

/-! ## Back through the loops: where the window of the emitted bits lies -/

/-- A window in the interval after an E1/E2 step, under the bit that step emits, lies in the interval before it. -/
theorem codeOk_of_renormShift {w : Nat} (hw : 1 ≤ w) {i : Interval} (hle : i.low ≤ i.high) (hh : i.high < fullRange w)
    (hdue : renormDue w i = true) {bits : Stream' Bit} (hcode : codeOk (i.renormShift w) (window w bits) = true) :
    codeOk i (window w (Stream'.cons (topBit w i.low) bits)) = true := by
  obtain ⟨hlow, hhigh⟩ := codeOk_iff.mp hcode
  have hstep : _ = (topBit w i.low).toNat * fullRange w + window w bits :=
    two_mul_window w (Stream'.cons (topBit w i.low) bits)
  have hb := Bool.toNat_lt ((Stream'.cons (topBit w i.low) bits).get w)
  rw [topBit_eq hw (by omega)] at hstep hb ⊢
  rw [codeOk_iff]
  rcases renormShift_spec hw hle hh hdue with ⟨hside, hlow', hhigh'⟩ | ⟨hside, hlow', hhigh'⟩
  · rw [decide_eq_false (by omega), Bool.toNat_false] at hstep
    rw [decide_eq_false (by omega)] at hb ⊢
    omega
  · rw [decide_eq_true hside, Bool.toNat_true] at hstep
    rw [decide_eq_true hside] at hb ⊢
    omega

theorem codeOk_of_renormRuns {w k : Nat} (hw : 1 ≤ w) {i j : Interval} (hrun : RenormRuns w i k j)
    (hle : i.low ≤ i.high) (hh : i.high < fullRange w) {bits : Stream' Bit}
    (hcode : codeOk j (window w bits) = true) :
    codeOk i (window w (emittedBits w k i 0 ++ₛ bits)) = true := by
  induction k generalizing i with
  | zero =>
    rcases runsTo_inv hrun with ⟨-, rfl, -⟩ | ⟨_, hk, -⟩
    · exact hcode
    · omega
  | succ k ih =>
    rcases runsTo_inv hrun with ⟨hk, -⟩ | ⟨n, hk, hdue, hrest⟩
    · omega
    · obtain rfl : k = n := by omega
      obtain ⟨hle', hh', -⟩ := renormShift_keeps hw hle hh hdue
      exact codeOk_of_renormShift hw hle hh hdue (ih hrest hle' hh')

/-- The same for an E3 step and the bit that it defers. -/
theorem codeOk_of_underflowShift {w : Nat} (hw : 2 ≤ w ∧ w ≤ 63) {i : Interval} (h : Astride w i)
    (hdue : underflowDue w i = true) {bits : Stream' Bit} (hcode : codeOk (i.underflowShift w) (window w bits) = true) :
    codeOk i (window w (deferred bits)) = true := by
  obtain ⟨hlow, hhigh⟩ := codeOk_iff.mp hcode
  obtain ⟨hlow', hhigh'⟩ := underflowShift_spec hw.1 (by omega) h.low h.mid h.high hdue
  have hstep := two_mul_window_deferred hw.1 bits
  have hb := Bool.toNat_lt (bits.get (w - 1))
  rw [codeOk_iff]
  omega

theorem codeOk_of_underflowRuns {w k : Nat} (hw : 2 ≤ w ∧ w ≤ 63) {i j : Interval} (hrun : UnderflowRuns w i k j)
    (h : Astride w i) {bits : Stream' Bit} (hcode : codeOk j (window w bits) = true) :
    codeOk i (window w (deferred^[k] bits)) = true := by
  induction k generalizing i with
  | zero =>
    rcases runsTo_inv hrun with ⟨-, rfl, -⟩ | ⟨_, hk, -⟩
    · exact hcode
    · omega
  | succ k ih =>
    rcases runsTo_inv hrun with ⟨hk, -⟩ | ⟨n, hk, hdue, hrest⟩
    · omega
    · obtain rfl : k = n := by omega
      obtain ⟨hlow, hmid, hhigh, -⟩ := underflowShift_keeps hw.1 (by omega) h.low h.mid h.high hdue
      rw [Function.iterate_succ_apply']
      exact codeOk_of_underflowShift hw h hdue (ih hrest ⟨hlow, hmid, hhigh⟩)

/-- The bits one UPDATE puts before `later`: the bits of its E1/E2 steps, and those its E3 steps defer. -/
def updateBits (w k1 : Nat) (i : Interval) (k3 : Nat) (later : Stream' Bit) : Stream' Bit :=
  emittedBits w k1 i 0 ++ₛ deferred^[k3] later

theorem UpdateRuns.codeOk_updateBits {w k1 k3 : Nat} {i j1 j3 : Interval} (hw : 1 ≤ w ∧ w ≤ 63)
    (h : UpdateRuns w i k1 j1 k3 j3) {later : Stream' Bit} (hcode : codeOk j3 (window w later) = true) :
    codeOk i (window w (updateBits w k1 i k3 later)) = true := by
  refine codeOk_of_renormRuns hw.1 h.renorm h.ordered h.inside ?_
  rcases Nat.eq_or_lt_of_le hw.1 with rfl | hw2
  · obtain ⟨rfl, rfl⟩ := underflowRuns_one h.underflow
    exact hcode
  · exact codeOk_of_underflowRuns ⟨hw2, hw.2⟩ h.underflow h.astride hcode

/-! ## Forward through the loops: what the decoder makes of these bits -/

theorem length_emittedBits_zero (w k : Nat) (i : Interval) : (emittedBits w k i 0).length = k := by
  induction k generalizing i with
  | zero => rfl
  | succ k ih => exact congrArg Nat.succ (ih _)

theorem updateBits_drop (w k1 : Nat) (i : Interval) (k3 : Nat) (later : Stream' Bit) :
    (updateBits w k1 i k3 later).drop k1 = deferred^[k3] later := by
  have hdrop := Stream'.drop_append_stream (emittedBits w k1 i 0) (deferred^[k3] later)
  rwa [length_emittedBits_zero] at hdrop

theorem iterate_deferred_drop {w : Nat} (hw : 1 ≤ w) (k : Nat) (bits : Stream' Bit) :
    (deferred^[k] bits).drop (w + k) = bits.drop w := by
  induction k with
  | zero => rfl
  | succ k ih => rw [Function.iterate_succ_apply', deferred_drop (by omega)]; exact ih

theorem codeAfter_take (w k1 k3 code : Nat) (bits : Stream' Bit) :
    codeAfter w k1 code (bits.take (k1 + k3))
      = ((bits.drop k1).take k3).foldl (codeUnderflow w) ((bits.take k1).foldl (codeShift w) code) := by
  rw [codeAfter, Stream'.take_add, List.take_left' (Stream'.length_take ..), List.drop_left' (Stream'.length_take ..)]

/-- The steps of UPDATE turn the window of its bits into the window of the later ones (R224). -/
theorem UpdateRuns.codeAfter_updateBits {w k1 k3 : Nat} {i j1 j3 : Interval} (hw : 1 ≤ w)
    (h : UpdateRuns w i k1 j1 k3 j3) (later : Stream' Bit) :
    codeAfter w k1 (window w (updateBits w k1 i k3 later)) (((updateBits w k1 i k3 later).drop w).take (k1 + k3))
      = window w later := by
  have hdrop : ((updateBits w k1 i k3 later).drop w).drop k1 = (deferred^[k3] later).drop w := by
    rw [Stream'.drop_drop, Nat.add_comm w, ← Stream'.drop_drop, updateBits_drop]
  rw [codeAfter_take, foldl_codeShift_window hw, hdrop, updateBits_drop]
  rcases Nat.eq_or_lt_of_le hw with rfl | hw2
  · obtain ⟨rfl, -⟩ := underflowRuns_one h.underflow
    rfl
  · exact foldl_codeUnderflow_window hw2 k3 later

theorem updateBits_drop_all {w : Nat} (hw : 1 ≤ w) (k1 : Nat) (i : Interval) (k3 : Nat) (later : Stream' Bit) :
    ((updateBits w k1 i k3 later).drop w).drop (k1 + k3) = later.drop w := by
  rw [Stream'.drop_drop, Nat.add_left_comm, ← Stream'.drop_drop, updateBits_drop, iterate_deferred_drop hw]

/-! ## The bits the encoder emits, its pending bits among them -/

/-- What `p` pending bits do to the bits of an ENC that takes `k` E1/E2 steps (41_encoder.md R182, R183). -/
theorem emittedBits_append_deferred (w k p : Nat) (i : Interval) (k3 : Nat) (later : Stream' Bit) :
    emittedBits w k i p ++ₛ deferred^[(if k = 0 then p else 0) + k3] later
      = deferred^[p] (updateBits w k i k3 later) := by
  cases k with
  | zero => exact Function.iterate_add_apply deferred p k3 later
  | succ k =>
    rw [if_neg (Nat.succ_ne_zero k), Nat.zero_add, iterate_deferred p, emittedBits, Stream'.cons_append_stream,
      Stream'.append_append_stream]
    rfl

theorem padded_append (out items : List Bit) : padded (out ++ items) = out ++ₛ padded items := by
  induction out with
  | nil => rfl
  | cons b out ih =>
    rw [List.cons_append, Stream'.cons_append_stream, ← ih]
    funext k
    cases k <;> rfl

/-- The bit of FIN, then EOS for ever. -/
def finBits : Stream' Bit := Stream'.cons true (Stream'.const false)

theorem padded_finBit : padded [true] = finBits := by
  funext k
  rcases k with _ | k
  · rfl
  · rfl

/-- Pending bits left at FIN are zeros, as what follows its bit is (41_encoder.md R186). -/
theorem iterate_deferred_finBits (p : Nat) : deferred^[p] finBits = finBits := by
  induction p with
  | zero => rfl
  | succ p ih =>
    rw [Function.iterate_succ_apply', ih]
    exact congrArg (Stream'.cons true) (Stream'.const_eq false).symm

theorem window_const_false (w : Nat) : window w (Stream'.const false) = 0 := by
  induction w with
  | zero => rfl
  | succ w ih => rw [window, ih]; rfl

theorem window_finBits {w : Nat} (hw : 1 ≤ w) : window w finBits = halfRange w := by
  obtain ⟨n, rfl⟩ : ∃ n, w = n + 1 := ⟨w - 1, by omega⟩
  have hfirst : window (n + 1) finBits = 1 * 2 ^ n + window n (Stream'.const false) := two_mul_window n finBits
  rw [hfirst, window_const_false, halfRange_eq hw, Nat.one_mul]
  rfl

/-! ## The bits that spell a message -/

/-- The sub-interval of a symbol (R144). -/
def Interval.select (i : Interval) (t : Table) (symbol : Nat) : Interval :=
  i.narrow t.total.toNat (t.low (symbolIndex symbol)).toNat (t.high (symbolIndex symbol)).toNat

/-- `bits` is what an encoder with nothing pending emits for the message from the interval `i` on, then EOS for ever. -/
def Spells (w : Nat) : List (Table × Nat) → Interval → Stream' Bit → Prop
  | [], _, bits => bits = finBits
  | (t, symbol) :: rest, i, bits => ∃ k1 j1 k3 j3 later, UpdateRuns w (i.select t symbol) k1 j1 k3 j3
      ∧ bits = updateBits w k1 (i.select t symbol) k3 later ∧ Spells w rest j3 later

theorem codable_iff {b : Build} {w : Nat} {t : Table} {symbol : Nat} : codable b w t symbol = true ↔
    t.conforming = true ∧ symbol < t.symbolLimit.toNat ∧ t.total.toNat ≤ maxTotal b w
      ∧ t.low (symbolIndex symbol) ≠ t.high (symbolIndex symbol) := by
  simp only [codable, Table.hasSymbol, totalTooLarge, Bool.and_eq_true, Bool.not_eq_true', decide_eq_true_eq,
    decide_eq_false_iff_not, Nat.not_lt, bne_iff_ne, and_assoc]

/-- The frequency of a codable symbol is not 0, so its total is not either. -/
theorem codable_bounds {b : Build} {w : Nat} {t : Table} {symbol : Nat} (h : codable b w t symbol = true) :
    (t.low (symbolIndex symbol)).toNat < (t.high (symbolIndex symbol)).toNat
      ∧ (t.high (symbolIndex symbol)).toNat ≤ t.total.toNat := by
  obtain ⟨hc, hs, -, hne⟩ := codable_iff.mp h
  obtain ⟨hle, htotal⟩ := Table.conforming_bounds hc hs
  exact ⟨lt_of_le_of_ne hle (mt BitVec.eq_of_toNat_eq hne), htotal⟩

theorem total_le_range {b : Build} {w : Nat} {i : Interval} {t : Table} {symbol : Nat} (hok : intervalOk w i = true)
    (h : codable b w t symbol = true) : t.total.toNat ≤ i.range := by
  obtain ⟨-, -, htotal, -⟩ := codable_iff.mp h
  obtain ⟨-, -, -, hmin, -⟩ := intervalOk_iff.mp hok
  exact htotal.trans ((maxTotal_le_minRange b w).trans hmin)

/-- The sub-interval of a codable symbol is not empty and lies in the interval (R145). -/
theorem select_bounds {b : Build} {w : Nat} {i : Interval} {t : Table} {symbol : Nat} (hok : intervalOk w i = true)
    (h : codable b w t symbol = true) :
    i.low ≤ (i.select t symbol).low ∧ (i.select t symbol).low ≤ (i.select t symbol).high
      ∧ (i.select t symbol).high ≤ i.high := by
  obtain ⟨hlow, hhigh⟩ := codable_bounds h
  exact narrow_bounds (intervalOk_iff.mp hok).1.le hlow hhigh (total_le_range hok h)

/-- The window of the bits that spell a message lies in the interval they are spelled from (R223). -/
theorem Spells.codeOk {b : Build} {w : Nat} (hw : 1 ≤ w ∧ w ≤ 63) {message : List (Table × Nat)} {i : Interval}
    {bits : Stream' Bit} (h : Spells w message i bits) (hi : Settled w i)
    (hm : ∀ m ∈ message, codable b w m.1 m.2 = true) : codeOk i (window w bits) = true := by
  induction message generalizing i bits with
  | nil =>
    obtain rfl : bits = finBits := h
    rw [window_finBits hw.1]
    exact codeOk_iff.mpr ⟨hi.low.le, hi.mid⟩
  | cons m rest ih =>
    obtain ⟨k1, j1, k3, j3, later, hrun, rfl, hrest⟩ := h
    obtain ⟨hm0, hmrest⟩ := List.forall_mem_cons.mp hm
    obtain ⟨hlow, -, hhigh⟩ := select_bounds (hi.intervalOk hw.1) hm0
    obtain ⟨hlow', hhigh'⟩ := codeOk_iff.mp (hrun.codeOk_updateBits hw (ih hrest hrun.settled hmrest))
    exact codeOk_iff.mpr ⟨hlow.trans hlow', hhigh'.trans hhigh⟩

end Sys2Proof.Machine

/-! # ENC and DEC in full, when the partners complete their transfers (41_encoder.md R181, 42_decoder.md R211) -/

namespace Sys2Proof.Machine

/-! ## The loops of UPDATE (40_coder_state_machine.md R146 to R152) -/

theorem State.enterPhase_moved (s : State) (i : Interval) (p c : Nat) (h : Hidden) (src snk : List Bit)
    (es : List PortEvent) (phase : Phase) :
    (s.moved i p c h src snk es).enterPhase phase = s.moved i p c { h with phase := phase } src snk es := rfl

theorem Interval.lt_two_pow_of_inside {w : Nat} (hw : w ≤ 63) {i : Interval} (hle : i.low ≤ i.high)
    (hh : i.high < fullRange w) : i.low < 2 ^ 63 ∧ i.high < 2 ^ 63 := by
  have := fullRange_le hw
  omega

theorem Astride.fits {w : Nat} {i : Interval} (h : Astride w i) (hw : w ≤ 63) : i.low < 2 ^ 63 ∧ i.high < 2 ^ 63 :=
  Interval.lt_two_pow_of_inside hw (h.low.le.trans h.mid) h.high

theorem updateRenorm_enterPhase (s : State) :
    updateRenorm (s.enterPhase .renorm) = renormLoop loopBound (s.enterPhase .renorm) := rfl

/-- The two loops of UPDATE, as stages. -/
def loopStages : List Stage := [⟨.renorm, updateRenorm⟩, ⟨.underflow, updateUnderflow⟩]

theorem runStages_loopStages_of_go {s u : State} (h : renormLoop loopBound (s.enterPhase .renorm) = .go u) :
    runStages loopStages s = underflowLoop loopBound (u.enterPhase .underflow) := by
  rw [loopStages, runStages_of_go ((updateRenorm_enterPhase s).trans h)]
  exact Flow.andThen_id _

section
variable {s : State} {k1 k3 : Nat} {j1 j3 : Interval}

/-- The loops of an ENC: the bits of R182, and PENDING at the end, if it holds that many (R183, R185). -/
theorem encLoops_none (hp : s.partnerLimit = none) (hm : s.regs.mode = .enc) (hw : 1 ≤ s.w ∧ s.w ≤ 63)
    (hpending : s.regs.pending ≤ s.build.pendingMax) (hrun : UpdateRuns s.w s.interval k1 j1 k3 j3) :
    let p := if k1 = 0 then s.regs.pending else 0
    let bits := emittedBits s.w k1 s.interval s.regs.pending
    ∃ h, runStages loopStages s =
      if p + k3 ≤ s.build.pendingMax then .go (s.moved j3 (p + k3) s.code h s.source bits (bits.map .bitOut))
      else .raise .underflowOverflow
        (s.moved ((Interval.underflowShift s.w)^[s.build.pendingMax - p] j1) s.build.pendingMax s.code h s.source bits
          (bits.map .bitOut)) := by
  intro p bits
  have hsteps := hrun.steps
  obtain ⟨h, hrenorm⟩ := encRenorm_none (s := s.enterPhase .renorm) (n := loopBound) hp hm hw.1 hw.2 hrun.ordered
    hrun.inside hrun.renorm (by rw [loopBound]; omega)
  have hloop : renormLoop loopBound (s.enterPhase .renorm)
      = .go (s.moved j1 p s.code h s.source bits (bits.map .bitOut)) := hrenorm
  obtain ⟨hlow, hhigh⟩ := hrun.astride.fits hw.2
  let u := s.moved j1 p s.code { h with phase := .underflow } s.source bits (bits.map .bitOut)
  have hi : u.interval = j1 := State.moved_interval _ _ _ _ _ _ _ hlow hhigh
  have hc : u.code = s.code := State.moved_code _ _ _ _ _ _ _ s.code_lt
  have hfits : p ≤ s.build.pendingMax := by
    simp only [p]
    split
    · exact hpending
    · exact Nat.zero_le _
  have hunderflow := encUnderflow_run (s := u) (n := loopBound) (j := j3) (k := k3) hm hw.1 hw.2
    (hi ▸ hrun.astride.low) (hi ▸ hrun.astride.mid) (hi ▸ hrun.astride.high) (hi ▸ hrun.underflow)
    (by rw [loopBound]; omega) hfits
  rw [runStages_loopStages_of_go hloop, State.enterPhase_moved]
  refine ⟨{ h with phase := .underflow }, hunderflow.trans ?_⟩
  rw [hi, hc]
  simp only [u, State.moved_moved, State.moved_pending, State.moved_build, State.moved_w, State.moved_hidden,
    State.moved_source, List.append_nil]

theorem itemsRead_add (m n : Nat) (items : List Bit) :
    itemsRead (m + n) items = itemsRead m items ++ itemsRead n (items.drop m) := by
  induction m generalizing items with
  | zero => rw [Nat.zero_add]; rfl
  | succ m ih => rw [Nat.add_right_comm, itemsRead_succ, itemsRead_succ, ih, List.cons_append, List.drop_tail]

theorem codeAfter_bitsRead_add (w code : Nat) (items : List Bit) :
    codeAfter w k1 code (bitsRead (k1 + k3) items)
      = (bitsRead k3 (items.drop k1)).foldl (codeUnderflow w) ((bitsRead k1 items).foldl (codeShift w) code) := by
  simp only [bitsRead_eq_take, padded_drop, codeAfter_take]

theorem foldl_codeShift_lt {w code : Nat} (hw : 1 ≤ w ∧ w ≤ 63) (hcode : code < 2 ^ 63) (bits : List Bit) :
    bits.foldl (codeShift w) code < 2 ^ 63 := by
  induction bits generalizing code with
  | nil => exact hcode
  | cons b bits ih => exact ih ((codeShift_lt hw.1 code b).trans_le (fullRange_le hw.2))

/-- The loops of a DEC: one item read and shifted into CODE at each step (42_decoder.md R221, R222). -/
theorem decLoops_none (hp : s.partnerLimit = none) (hm : s.regs.mode = .dec) (hw : 1 ≤ s.w ∧ s.w ≤ 63)
    (hrun : UpdateRuns s.w s.interval k1 j1 k3 j3) :
    runStages loopStages s = .go (s.moved j3 s.regs.pending
      (codeAfter s.w k1 s.code (bitsRead (k1 + k3) s.source)) { s.hidden with phase := .underflow }
      (s.source.drop (k1 + k3)) [] ((itemsRead (k1 + k3) s.source).map .bitIn)) := by
  have hsteps := hrun.steps
  let code1 := (bitsRead k1 s.source).foldl (codeShift s.w) s.code
  have hloop : renormLoop loopBound (s.enterPhase .renorm) = .go (s.moved j1 s.regs.pending code1
      { s.hidden with phase := .renorm } (s.source.drop k1) [] ((itemsRead k1 s.source).map .bitIn)) :=
    decRenorm_none (s := s.enterPhase .renorm) (n := loopBound) hp hm hw.1 hw.2 hrun.ordered hrun.inside hrun.renorm
      (by rw [loopBound]; omega)
  obtain ⟨hlow, hhigh⟩ := hrun.astride.fits hw.2
  let u := s.moved j1 s.regs.pending code1 { s.hidden with phase := .underflow } (s.source.drop k1) []
    ((itemsRead k1 s.source).map .bitIn)
  have hi : u.interval = j1 := State.moved_interval _ _ _ _ _ _ _ hlow hhigh
  have hc : u.code = code1 := State.moved_code _ _ _ _ _ _ _ (foldl_codeShift_lt hw s.code_lt _)
  have hunderflow := decUnderflow_none (s := u) (n := loopBound) (j := j3) (k := k3) hp hm hw.1 hw.2
    (hi ▸ hrun.astride.low) (hi ▸ hrun.astride.mid) (hi ▸ hrun.astride.high) (hi ▸ hrun.underflow)
    (by rw [loopBound]; omega)
  rw [runStages_loopStages_of_go hloop, State.enterPhase_moved]
  refine hunderflow.trans ?_
  rw [hc, codeAfter_bitsRead_add, itemsRead_add, List.map_append]
  simp only [u, State.moved_moved, State.moved_pending, State.moved_w, State.moved_hidden,
    State.moved_source, List.append_nil, List.drop_drop]
  rfl

end

/-! ## UPDATE from its queries on (R142 to R144) -/

theorem updateArguments_go {s : State} (hlarge : s.hidden.total.toNat ≤ maxTotal s.build s.w)
    (hzero : s.hidden.total.toNat ≠ 0) (hne : s.hidden.low ≠ s.hidden.high) : updateArguments s = .go s := by
  have htotal : totalTooLarge s.build s.w s.hidden.total.toNat = false := decide_eq_false hlarge.not_gt
  have hfreq : zeroFrequency s.hidden.total.toNat s.hidden.low.toNat s.hidden.high.toNat = false := by
    rw [zeroFrequency, Bool.or_eq_false_iff, beq_eq_false_iff_ne, beq_eq_false_iff_ne]
    exact ⟨hzero, mt BitVec.eq_of_toNat_eq hne⟩
  rw [updateArguments, htotal, Bool.not_false, check_true, Flow.andThen_go, hfreq, Bool.not_false, check_true]

/-- The three queries of an UPDATE of `x`, with their answers (R142). -/
def updateQueries (t : Table) (x : Word) : List PortEvent :=
  [.query 0 0 t.total, .query 1 x (t.low x), .query 2 x (t.high x)]

/-- A state whose UPDATE of `n` has narrowed the interval (R144). -/
def State.narrowed (s : State) (n : Nat) : State :=
  s.moved (s.interval.select s.table n) s.regs.pending s.code (s.queried (symbolIndex n)).hidden s.source []
    (updateQueries s.table (symbolIndex n))

theorem updateNarrow_queried (s : State) (n : Nat) : updateNarrow (s.queried (symbolIndex n)) = s.narrowed n := by
  simp [updateNarrow, State.narrowed, State.queried, State.latched, State.moved, State.writeInterval, State.withRegs,
    Regs.withInterval, State.code, updateQueries, Interval.select, State.interval]

section
variable {s : State} {n : Nat}

theorem State.narrowed_interval (hw : s.w ≤ 63) (hok : intervalOk s.w s.interval = true)
    (hn : codable s.build s.w s.table n = true) : (s.narrowed n).interval = s.interval.select s.table n := by
  obtain ⟨-, hle, hhigh⟩ := select_bounds hok hn
  obtain ⟨-, -, hmask, -⟩ := intervalOk_iff.mp hok
  obtain ⟨hl, hh⟩ := Interval.lt_two_pow_of_inside hw hle (hhigh.trans_lt (le_mask_iff.mp hmask))
  exact State.moved_interval _ _ _ _ _ _ _ hl hh

/-- UPDATE of a codable symbol passes its checks and narrows; its loops remain. -/
theorem runStages_updateStages_of_codable {symbol : State → Word}
    (hsym : ∀ u : State, u.hidden.symbol = s.hidden.symbol → symbol u = symbolIndex n) (hp : s.partnerLimit = none)
    (hok : intervalOk s.w s.interval = true) (hn : codable s.build s.w s.table n = true) :
    runStages (updateStages symbol) s = runStages loopStages (s.narrowed n) := by
  obtain ⟨hc, hs, htotal, hne⟩ := codable_iff.mp hn
  obtain ⟨hlow, hhigh⟩ := codable_bounds hn
  have hself : symbol s = symbolIndex n := hsym s rfl
  have hindex : (symbol s).toNat < s.table.symbolLimit.toNat := by
    rwa [hself, symbolIndex_toNat (hs.trans s.table.symbolLimit.isLt)]
  have hargs : updateArguments (s.queried (symbolIndex n)) = .go (s.queried (symbolIndex n)) :=
    updateArguments_go htotal (show s.table.total.toNat ≠ 0 by omega) hne
  rw [runStages_updateStages (fun u hu => (hsym u hu).trans hself.symm) hp hok hc hindex, hself, hargs,
    Flow.andThen_go, updateNarrow_queried]
  rfl

end

/-! ## ENC (41_encoder.md R181) -/

/-- An ENC of a codable symbol: it responds OK, or with UNDERFLOW_OVERFLOW if PENDING cannot hold the count (R183). -/
theorem exec_enc_of_codable {s : State} {n k1 k3 : Nat} {j1 j3 : Interval} (hm : s.regs.mode = .enc)
    (hp : s.partnerLimit = none) (hw : 1 ≤ s.w ∧ s.w ≤ 63) (hok : intervalOk s.w s.interval = true)
    (hn : codable s.build s.w s.table n = true) (hpending : s.regs.pending ≤ s.build.pendingMax)
    (hrun : UpdateRuns s.w (s.interval.select s.table n) k1 j1 k3 j3) :
    let p := if k1 = 0 then s.regs.pending else 0
    let bits := emittedBits s.w k1 (s.interval.select s.table n) s.regs.pending
    let events := updateQueries s.table (symbolIndex n) ++ bits.map .bitOut
    ∃ h, exec (.enc n) s =
      if p + k3 ≤ s.build.pendingMax then
        .next (respond .ok 0 ((accept (some (.enc n)) s).moved j3 (p + k3) s.code h s.source bits events))
      else .next (raiseError .underflowOverflow ((accept (some (.enc n)) s).moved
        ((Interval.underflowShift s.w)^[s.build.pendingMax - p] j1) s.build.pendingMax s.code h s.source bits
          events)) := by
  intro p bits events
  let u := (accept (some (.enc n)) s).enterPhase .checking
  have hi : (u.narrowed n).interval = s.interval.select s.table n := State.narrowed_interval (s := u) hw.2 hok hn
  obtain ⟨h, hloops⟩ := encLoops_none (s := u.narrowed n) (j3 := j3) hp hm hw hpending (hi ▸ hrun)
  refine ⟨h, ?_⟩
  have hc : (u.narrowed n).code = s.code := State.moved_code _ _ _ _ _ _ _ s.code_lt
  rw [exec_enc_of_mode hm, runStages_updateStages_of_codable (s := u) (fun _ _ => rfl) hp hok hn, hloops, hi, hc,
    apply_ite (settle noResult), settle_go, settle_raise]
  simp only [State.narrowed, State.moved_moved, List.nil_append]
  rfl

end Sys2Proof.Machine

/-! # DEC: the search for the symbol (42_decoder.md R214 to R219) -/

namespace Sys2Proof.Machine

/-! ## The inverse mapping (R214, R217) -/

/-- The inverse mapping is the adjoint of the narrowing: a bound is at most value exactly when its share of the range is
at most the offset. -/
theorem le_inverseValue_iff {bound offset total range : Nat} (ht : 0 < total) (hr : 0 < range) :
    bound ≤ inverseValue offset total range ↔ bound * range / total ≤ offset := by
  have hpos : 0 < (offset + 1) * total := Nat.mul_pos (Nat.succ_pos _) ht
  rw [inverseValue, Nat.le_div_iff_mul_le hr, Nat.le_sub_one_iff_lt hpos, ← Nat.div_lt_iff_lt_mul ht, Nat.lt_succ_iff]

theorem inverseValue_lt_iff {bound offset total range : Nat} (ht : 0 < total) (hr : 0 < range) :
    inverseValue offset total range < bound ↔ offset < bound * range / total := by
  rw [← Nat.not_le, le_inverseValue_iff ht hr, Nat.not_le]

/-- An offset inside the range maps to a value below the total. -/
theorem inverseValue_lt_total {offset total range : Nat} (ht : 0 < total) (ho : offset < range) :
    inverseValue offset total range < total := by
  rwa [inverseValue_lt_iff ht (Nat.zero_lt_of_lt ho), Nat.mul_div_cancel_left _ ht]

/-- The value that CODE maps to (R214). -/
def State.codeValue (s : State) : Nat :=
  inverseValue (codeOffset s.interval s.code) s.table.total.toNat s.interval.range

/-- CODE lies in the sub-interval of a symbol exactly when value lies in its cumulative range (R217). -/
theorem codeContained_iff {s : State} {n : Nat} (ht : 0 < s.table.total.toNat) :
    codeContained s.interval.range s.table.total.toNat (s.table.low (symbolIndex n)).toNat
        (s.table.high (symbolIndex n)).toNat (codeOffset s.interval s.code) = true
      ↔ (s.table.low (symbolIndex n)).toNat ≤ s.codeValue ∧ s.codeValue < (s.table.high (symbolIndex n)).toNat := by
  have hr : 0 < s.interval.range := Nat.succ_pos _
  rw [State.codeValue, le_inverseValue_iff ht hr, inverseValue_lt_iff ht hr, codeContained, Bool.and_eq_true,
    decide_eq_true_eq, decide_eq_true_eq]

theorem codeOffset_lt_range {i : Interval} {code : Nat} (h : codeOk i code = true) : codeOffset i code < i.range := by
  obtain ⟨hlow, hhigh⟩ := codeOk_iff.mp h
  simp only [codeOffset, Interval.range]
  omega

/-- A CODE in the sub-interval of a codable symbol passes the containment check for it. -/
theorem codeContained_of_codeOk_select {b : Build} {w n code : Nat} {i : Interval} {t : Table}
    (hok : intervalOk w i = true) (hn : codable b w t n = true) (h : codeOk (i.select t n) code = true) :
    codeContained i.range t.total.toNat (t.low (symbolIndex n)).toNat (t.high (symbolIndex n)).toNat
      (codeOffset i code) = true := by
  obtain ⟨hlt, htotal⟩ := codable_bounds hn
  have hshare : t.total.toNat ≤ (t.high (symbolIndex n)).toNat * i.range :=
    (total_le_range hok hn).trans (Nat.le_mul_of_pos_left _ (by omega))
  have hpos : 0 < (t.high (symbolIndex n)).toNat * i.range / t.total.toNat := Nat.div_pos hshare (by omega)
  obtain ⟨hlow, hhigh⟩ := codeOk_iff.mp h
  simp only [Interval.select, Interval.narrow] at hlow hhigh
  rw [codeContained, Bool.and_eq_true, decide_eq_true_eq, decide_eq_true_eq, codeOffset]
  omega

/-- The cumulative ranges of a conforming table do not overlap (20_memory.md R82). -/
theorem Table.symbol_unique {t : Table} (hc : t.conforming = true) {m n value : Nat} (hm : m < t.symbolLimit.toNat)
    (hn : n < t.symbolLimit.toNat) (hmlow : (t.low (symbolIndex m)).toNat ≤ value)
    (hmhigh : value < (t.high (symbolIndex m)).toNat) (hnlow : (t.low (symbolIndex n)).toNat ≤ value)
    (hnhigh : value < (t.high (symbolIndex n)).toNat) : m = n := by
  rcases Nat.lt_trichotomy m n with hlt | heq | hlt
  · exact absurd (Table.conforming_high_le_low hc hlt hn) (Nat.not_le.mpr (hnlow.trans_lt hmhigh))
  · exact heq
  · exact absurd (Table.conforming_high_le_low hc hlt hm) (Nat.not_le.mpr (hmlow.trans_lt hnhigh))

/-! ## The stages of the search, on a state that only asks -/

section
variable {s : State} {h : Hidden} {es : List PortEvent} {rest : List Stage}

theorem State.asked_asked (s : State) (h h' : Hidden) (es es' : List PortEvent) :
    (s.asked h es).asked h' es' = s.asked h' (es ++ es') := by
  simp only [State.asked, List.append_assoc]

theorem State.asked_moved (s : State) (h h' : Hidden) (es es' : List PortEvent) (i : Interval) (p c : Nat)
    (src snk : List Bit) :
    (s.asked h es).moved i p c h' src snk es' = s.moved i p c h' src snk (es ++ es') := by
  simp only [State.asked, State.moved, List.append_assoc]

theorem tableQuery_asked (hp : s.partnerLimit = none) (q : Query) (k : Word → State → Flow) :
    tableQuery q (s.asked h es) k = k (tableAgentStep s.table q.kind q.index)
      (s.asked h (es ++ [.query q.kind q.index (tableAgentStep s.table q.kind q.index)])) := by
  rw [tableQuery_none (by exact hp), ← State.asked_asked]
  rfl

theorem runStages_decLimit (hp : s.partnerLimit = none) :
    runStages (⟨.searchLimit, decLimit⟩ :: rest) (s.asked h es)
      = runStages rest (s.asked { h with phase := .searchLimit, start := 0, stop := s.table.symbolLimit.toNat }
          (es ++ [.query 3 0 s.table.symbolLimit])) :=
  runStages_of_go (tableQuery_asked (h := { h with phase := .searchLimit }) hp _ _)

theorem runStages_decContainLow (hp : s.partnerLimit = none) :
    runStages (⟨.containLow, decContainLow⟩ :: rest) (s.asked h es)
      = runStages rest (s.asked { h with phase := .containLow, low := s.table.low (symbolIndex h.symbol) }
          (es ++ [.query 1 (symbolIndex h.symbol) (s.table.low (symbolIndex h.symbol))])) :=
  runStages_of_go (tableQuery_asked (h := { h with phase := .containLow }) hp _ _)

theorem runStages_decContainHigh (hp : s.partnerLimit = none)
    (hin : codeContained s.interval.range h.total.toNat h.low.toNat (s.table.high (symbolIndex h.symbol)).toNat
      h.offset = true) :
    runStages (⟨.containHigh, decContainHigh⟩ :: rest) (s.asked h es)
      = runStages rest (s.asked { h with phase := .containHigh, high := s.table.high (symbolIndex h.symbol) }
          (es ++ [.query 2 (symbolIndex h.symbol) (s.table.high (symbolIndex h.symbol))])) := by
  have hcheck (u : State) : check (codeContained s.interval.range h.total.toNat h.low.toNat
      (s.table.high (symbolIndex h.symbol)).toNat h.offset) .internalFault u = .go u := by rw [hin, check_true]
  exact runStages_of_go ((tableQuery_asked (h := { h with phase := .containHigh }) hp _ _).trans (hcheck _))

theorem State.searched_asked (s : State) (h : Hidden) (es : List PortEvent) (found mid : Nat) (mids : List Nat) :
    (s.asked h es).searched found mid mids = s.asked { h with start := found, stop := found + 1, mid := mid }
      (es ++ mids.map fun m => .query 1 (symbolIndex m) (s.table.low (symbolIndex m))) := by
  simp only [State.searched, State.asked, List.append_assoc]
  rfl

/-- The search finds the symbol whose cumulative range holds value (R215, R216). -/
theorem runStages_decSearch (hp : s.partnerLimit = none) (hc : s.table.conforming = true)
    (hv : h.value < s.table.total.toNat) (hstart : h.start = 0) (hstop : h.stop = s.table.symbolLimit.toNat) :
    ∃ found mid mids, SearchRuns s.table h.value 0 s.table.symbolLimit.toNat mids found
      ∧ (∀ m ∈ mids, 1 ≤ m ∧ m < s.table.symbolLimit.toNat)
      ∧ found < s.table.symbolLimit.toNat
      ∧ (s.table.low (symbolIndex found)).toNat ≤ h.value ∧ h.value < (s.table.high (symbolIndex found)).toNat
      ∧ runStages (⟨.search, decSearch⟩ :: rest) (s.asked h es)
        = runStages rest (s.asked
            { h with phase := .search, start := found, stop := found + 1, mid := mid, symbol := found }
            (es ++ mids.map fun m => .query 1 (symbolIndex m) (s.table.low (symbolIndex m)))) := by
  have hlimit := (s.table.conforming_iff.mp hc).1
  have h64 := s.table.symbolLimit.isLt
  let u := s.asked { h with phase := .search } es
  have hu0 : u.hidden.start = 0 := hstart
  have hu1 : u.hidden.stop = s.table.symbolLimit.toNat := hstop
  obtain ⟨found, mid, mids, hloop, hsearch, -, hmids, -, hfound, hlow, hhigh⟩ :=
    searchLoop_none (n := searchBound) (s := u) hp (by omega) (by rw [searchBound]; omega)
  rw [hu0, hu1] at hsearch hmids
  rw [hu1] at hfound
  refine ⟨found, mid, mids, hsearch, hmids, hfound, ?_, ?_, ?_⟩
  · rcases hlow with rfl | hlow
    · rw [hu0, symbolIndex, Table.conforming_low_zero hc]
      exact Nat.zero_le _
    · exact hlow
  · rw [hu1] at hhigh
    rcases hhigh with hlast | hnext
    · rw [symbolIndex, Table.conforming_last hc hlast]
      exact hv
    · rcases Nat.lt_or_ge (found + 1) s.table.symbolLimit.toNat with hlt | hge
      · rw [symbolIndex, Table.conforming_next hc hlt]
        exact hnext
      · rw [symbolIndex, Table.conforming_last hc (by omega)]
        exact hv
  · have hcheck : (found + 1 == found + 1) = true := beq_self_eq_true _
    refine runStages_of_go ?_
    show decSearch u = _
    rw [decSearch, hloop, State.searched_asked, Flow.andThen_go]
    show (check (found + 1 == found + 1) _ _).andThen _ = _
    rw [hcheck, check_true, Flow.andThen_go]
    rfl

end

/-! ## DEC in full (R211, R218, R219) -/

theorem decInverse_asked {s : State} {h : Hidden} {es : List PortEvent} (ht : h.total = s.table.total)
    (hv : s.codeValue < s.table.total.toNat) :
    decInverse (s.asked h es)
      = .go (s.asked { h with offset := codeOffset s.interval s.code, value := s.codeValue } es) := by
  have hvalue : decInverse (s.asked h es) = check (inverseValue (codeOffset s.interval s.code) h.total.toNat
      s.interval.range < h.total.toNat) .internalFault (s.asked { h with
        offset := codeOffset s.interval s.code
        value := inverseValue (codeOffset s.interval s.code) h.total.toNat s.interval.range } es) := rfl
  rw [hvalue, ht]
  exact (congrArg (check · _ _) (decide_eq_true hv)).trans (check_true _ _)

/-- The queries of a DEC before its UPDATE (R213, R215, R217). -/
def searchQueries (t : Table) (mids : List Nat) (found : Nat) : List PortEvent :=
  [.query 0 0 t.total, .query 3 0 t.symbolLimit]
    ++ mids.map (fun m => .query 1 (symbolIndex m) (t.low (symbolIndex m)))
    ++ [.query 1 (symbolIndex found) (t.low (symbolIndex found)),
        .query 2 (symbolIndex found) (t.high (symbolIndex found))]

/-- The symbol that the search visits `mids` to find: the one whose cumulative range holds value (R215). -/
structure Finds (s : State) (mids : List Nat) (found : Nat) : Prop where
  search : SearchRuns s.table s.codeValue 0 s.table.symbolLimit.toNat mids found
  inside : ∀ m ∈ mids, 1 ≤ m ∧ m < s.table.symbolLimit.toNat
  hasSymbol : found < s.table.symbolLimit.toNat
  low : (s.table.low (symbolIndex found)).toNat ≤ s.codeValue
  high : s.codeValue < (s.table.high (symbolIndex found)).toNat

section
variable {s : State}

/-- A DEC whose checks pass finds its symbol; its UPDATE and its post-check remain. -/
theorem exec_dec_finds (hm : s.regs.mode = .dec) (hok : intervalOk s.w s.interval = true)
    (hcode : codeOk s.interval s.code = true) (hp : s.partnerLimit = none) (hc : s.table.conforming = true)
    (hlarge : s.table.total.toNat ≤ maxTotal s.build s.w) (hzero : s.table.total.toNat ≠ 0) :
    ∃ mids found h, Finds s mids found ∧ h.symbol = found
      ∧ exec .dec s = settle decodedIndex (runStages (updateStages decodedIndex ++ [⟨.responding, decPostCheck⟩])
          ((accept (some .dec) s).asked h (searchQueries s.table mids found))) := by
  let a := accept (some .dec) s
  have hpa : a.partnerLimit = none := hp
  have hv : s.codeValue < s.table.total.toNat :=
    inverseValue_lt_total (Nat.pos_of_ne_zero hzero) (codeOffset_lt_range hcode)
  let h0 : Hidden := { a.hidden with phase := .decTotal, total := s.table.total }
  let h1 : Hidden := { h0 with offset := codeOffset s.interval s.code, value := s.codeValue }
  let h2 : Hidden := { h1 with phase := .searchLimit, start := 0, stop := s.table.symbolLimit.toNat }
  have hinverse : decInverse (a.asked h0 [.query 0 0 s.table.total]) = .go (a.asked h1 [.query 0 0 s.table.total]) :=
    decInverse_asked (s := a) rfl hv
  have hchecks : decTotalChecks (a.enterPhase .checking).totalAsked = .go (a.asked h0 [.query 0 0 s.table.total]) :=
    decTotalChecks_go hlarge hzero
  obtain ⟨found, mid, mids, hsearch, hmids, hfound, hlow, hhigh, hrun⟩ := runStages_decSearch (s := a) (h := h2)
    (es := [.query 0 0 s.table.total, .query 3 0 s.table.symbolLimit]) (rest := decStages.drop 4) hp hc hv rfl rfl
  have hin : codeContained s.interval.range s.table.total.toNat (s.table.low (symbolIndex found)).toNat
      (s.table.high (symbolIndex found)).toNat (codeOffset s.interval s.code) = true :=
    (codeContained_iff (Nat.pos_of_ne_zero hzero)).mpr ⟨hlow, hhigh⟩
  have hstages : decStages.tail.tail = ⟨.searchLimit, decLimit⟩ :: ⟨.search, decSearch⟩ :: decStages.drop 4 := rfl
  have hrest : decStages.drop 4 = ⟨.containLow, decContainLow⟩ :: ⟨.containHigh, decContainHigh⟩
      :: (updateStages decodedIndex ++ [⟨.responding, decPostCheck⟩]) := rfl
  let h3 : Hidden := { h2 with phase := .search, start := found, stop := found + 1, mid := mid, symbol := found }
  let h4 : Hidden := { h3 with
    phase := .containHigh
    low := s.table.low (symbolIndex found)
    high := s.table.high (symbolIndex found) }
  refine ⟨mids, found, h4, ⟨hsearch, hmids, hfound, hlow, hhigh⟩, rfl, ?_⟩
  rw [exec_dec_totalAsked hm hok hcode hp hc, hchecks, Flow.andThen_go, hinverse, Flow.andThen_go, hstages,
    runStages_decLimit hpa]
  refine congrArg (settle decodedIndex) (hrun.trans ?_)
  rw [hrest, runStages_decContainLow hpa, runStages_decContainHigh hpa (by exact hin)]
  simp only [searchQueries, List.append_assoc]
  rfl

theorem decPostCheck_go {s : State} (h : codeOk s.interval s.code = true) : decPostCheck s = .go s := by
  rw [decPostCheck, h, check_true]

theorem decodedIndex_eq {n : Nat} (h : s.hidden.symbol = n) : decodedIndex s = symbolIndex n :=
  congrArg symbolIndex h

/-- UPDATE of the symbol found and the post-check, when UPDATE leaves CODE in its interval (R218, R219). -/
theorem runStages_decUpdate {n k1 k3 : Nat} {j1 j3 : Interval} (hsymbol : s.hidden.symbol = n)
    (hw : 1 ≤ s.w ∧ s.w ≤ 63) (hm : s.regs.mode = .dec) (hp : s.partnerLimit = none)
    (hok : intervalOk s.w s.interval = true) (hn : codable s.build s.w s.table n = true)
    (hrun : UpdateRuns s.w (s.interval.select s.table n) k1 j1 k3 j3)
    (hpost : codeOk j3 (codeAfter s.w k1 s.code (bitsRead (k1 + k3) s.source)) = true) :
    runStages (updateStages decodedIndex ++ [⟨.responding, decPostCheck⟩]) s
      = .go (s.moved j3 s.regs.pending (codeAfter s.w k1 s.code (bitsRead (k1 + k3) s.source))
          { (s.narrowed n).hidden with phase := .responding } (s.source.drop (k1 + k3)) []
          (updateQueries s.table (symbolIndex n) ++ (itemsRead (k1 + k3) s.source).map .bitIn)) := by
  let code := codeAfter s.w k1 s.code (bitsRead (k1 + k3) s.source)
  let u := s.moved j3 s.regs.pending code { (s.narrowed n).hidden with phase := .underflow } (s.source.drop (k1 + k3))
    [] (updateQueries s.table (symbolIndex n) ++ (itemsRead (k1 + k3) s.source).map .bitIn)
  have hi : (s.narrowed n).interval = s.interval.select s.table n := State.narrowed_interval hw.2 hok hn
  have hc : (s.narrowed n).code = s.code := State.moved_code _ _ _ _ _ _ _ s.code_lt
  have hloops : runStages loopStages (s.narrowed n) = .go u := by
    rw [decLoops_none (s := s.narrowed n) hp hm hw (hi ▸ hrun), hc]
    simp only [State.narrowed, State.moved_moved]
    rfl
  obtain ⟨hlow, hhigh⟩ := hrun.settled.fits hw.2
  have hend : code ≤ j3.high := (codeOk_iff.mp hpost).2
  have huInterval : (u.enterPhase .responding).interval = j3 := State.moved_interval _ _ _ _ _ _ _ hlow hhigh
  have huCode : (u.enterPhase .responding).code = code := State.moved_code _ _ _ _ _ _ _ (by omega)
  have hcheck : decPostCheck (u.enterPhase .responding) = .go (u.enterPhase .responding) :=
    decPostCheck_go (by rw [huInterval, huCode]; exact hpost)
  rw [runStages_append,
    runStages_updateStages_of_codable (fun v hv => decodedIndex_eq (hv.trans hsymbol)) hp hok hn, hloops,
    Flow.andThen_go, runStages_of_go hcheck, runStages_nil, State.enterPhase_moved]

/-- A DEC whose checks pass, when UPDATE leaves CODE in its interval: it responds with the symbol it finds. -/
theorem exec_dec_of_checks (hw : 1 ≤ s.w ∧ s.w ≤ 63) (hm : s.regs.mode = .dec)
    (hok : intervalOk s.w s.interval = true) (hcode : codeOk s.interval s.code = true) (hp : s.partnerLimit = none)
    (hc : s.table.conforming = true) (hlarge : s.table.total.toNat ≤ maxTotal s.build s.w)
    (hzero : s.table.total.toNat ≠ 0) :
    ∃ mids found h, Finds s mids found ∧ ∀ k1 j1 k3 j3,
      UpdateRuns s.w (s.interval.select s.table found) k1 j1 k3 j3 →
      codeOk j3 (codeAfter s.w k1 s.code (bitsRead (k1 + k3) s.source)) = true →
      exec .dec s = .next (respond .ok (symbolIndex found) ((accept (some .dec) s).moved j3 s.regs.pending
        (codeAfter s.w k1 s.code (bitsRead (k1 + k3) s.source)) h (s.source.drop (k1 + k3)) []
        (searchQueries s.table mids found ++ (updateQueries s.table (symbolIndex found)
          ++ (itemsRead (k1 + k3) s.source).map .bitIn)))) := by
  obtain ⟨mids, found, h, hfinds, hsymbol, hexec⟩ := exec_dec_finds hm hok hcode hp hc hlarge hzero
  let v := (accept (some .dec) s).asked h (searchQueries s.table mids found)
  have hn : codable s.build s.w s.table found = true :=
    codable_iff.mpr ⟨hc, hfinds.hasSymbol, hlarge, fun heq =>
      absurd hfinds.high (Nat.not_lt.mpr (heq ▸ hfinds.low))⟩
  refine ⟨mids, found, { (v.narrowed found).hidden with phase := .responding }, hfinds,
    fun k1 j1 k3 j3 hrun hpost => ?_⟩
  rw [hexec, runStages_decUpdate (s := v) hsymbol hw hm hp hok hn hrun hpost, settle_go,
    decodedIndex_eq (n := found) hsymbol, State.asked_moved]
  rfl

end

end Sys2Proof.Machine

/-! # The round trip (42_decoder.md R226) -/

namespace Sys2Proof.Machine

/-! ## One command of a session, its response taken -/

theorem respondsOk_of_respond {i : Instr} {s t : State} {r : Word} (h : exec i s = .next (respond .ok r t)) :
    respondsOk i s = .ok (r, takeResponse (respond .ok r t)) := by
  rw [respondsOk, h]
  rfl

theorem respondsOk_of_raise {i : Instr} {s t : State} {e : Status} (he : e ≠ .ok)
    (h : exec i s = .next (raiseError e t)) : respondsOk i s = .error e := by
  rw [respondsOk, h]
  cases e with
  | ok => exact absurd rfl he
  | _ => rfl

/-- Between two commands of a session whose partners complete every transfer. -/
structure InSession (m : Mode) (b : Build) (w : Nat) (i : Interval) (s : State) : Prop where
  mode : s.regs.mode = m
  build : s.build = b
  width : s.w = w
  interval : s.interval = i
  partners : s.partnerLimit = none

section
variable {m : Mode} {b : Build} {w : Nat} {i j : Interval} {s : State}

theorem InSession.withTable (h : InSession m b w i s) (t : Table) : InSession m b w i (s.withTable t) :=
  ⟨h.mode, h.build, h.width, h.interval, h.partners⟩

theorem InSession.accept (h : InSession m b w i s) (c : Option Instr) : InSession m b w i (accept c s) :=
  ⟨h.mode, h.build, h.width, h.interval, h.partners⟩

theorem InSession.takeResponse (h : InSession m b w i s) (r : Word) :
    InSession m b w i (takeResponse (respond .ok r s)) :=
  ⟨h.mode, h.build, h.width, h.interval, h.partners⟩

theorem InSession.writeMode (h : InSession m b w i s) (m' : Mode) : InSession m' b w i (s.writeMode m') :=
  ⟨rfl, h.build, h.width, h.interval, h.partners⟩

theorem inSession_opened (hw : w ≤ 63) (hp : s.partnerLimit = none) :
    InSession s.regs.mode s.build w ⟨0, mask w⟩ (s.opened w) :=
  ⟨rfl, rfl, Regs.opened_width_toNat s.regs hw, State.opened_interval s hw, hp⟩

theorem InSession.moved (h : InSession m b w i s) (hw : w ≤ 63) (hj : Settled w j) (p code : Nat) (hidden : Hidden)
    (source sink : List Bit) (es : List PortEvent) : InSession m b w j (s.moved j p code hidden source sink es) := by
  obtain ⟨hlow, hhigh⟩ := hj.fits hw
  exact ⟨h.mode, h.build, h.width, State.moved_interval _ _ _ _ _ _ _ hlow hhigh, h.partners⟩

end

/-! ## The encoder session -/

/-- An ENC of a session: its steps, and UNDERFLOW_OVERFLOW or the session after them. -/
theorem respondsOk_enc {b : Build} {w n : Nat} {i : Interval} {s : State} (hw : 1 ≤ w ∧ w ≤ 63)
    (hs : InSession .enc b w i s) (hi : Settled w i) (hpending : s.regs.pending ≤ b.pendingMax)
    (hn : codable b w s.table n = true) :
    ∃ k1 j1 k3 j3, UpdateRuns w (i.select s.table n) k1 j1 k3 j3
      ∧ (respondsOk (.enc n) s = .error .underflowOverflow
        ∨ ∃ u, respondsOk (.enc n) s = .ok (0, u) ∧ InSession .enc b w j3 u ∧ u.regs.pending ≤ b.pendingMax
            ∧ u.regs.pending = (if k1 = 0 then s.regs.pending else 0) + k3
            ∧ u.sink = s.sink ++ emittedBits w k1 (i.select s.table n) s.regs.pending) := by
  have ⟨hmode, hbuild, hwidth, hinterval, hp⟩ := hs
  obtain ⟨-, hle, hhigh⟩ := select_bounds (hi.intervalOk hw.1) hn
  obtain ⟨k1, j1, k3, j3, hrun⟩ := updateRuns_exists hw hle (hhigh.trans_lt hi.high)
  refine ⟨k1, j1, k3, j3, hrun, ?_⟩
  subst hbuild hwidth hinterval
  obtain ⟨h, hexec⟩ := exec_enc_of_codable hmode hp hw (hi.intervalOk hw.1) hn hpending hrun
  by_cases hroom : (if k1 = 0 then s.regs.pending else 0) + k3 ≤ s.build.pendingMax
  · rw [if_pos hroom] at hexec
    exact .inr ⟨_, respondsOk_of_respond hexec, ((hs.accept _).moved hw.2 hrun.settled ..).takeResponse 0, hroom, rfl,
      rfl⟩
  · rw [if_neg hroom] at hexec
    exact .inl (respondsOk_of_raise (e := .underflowOverflow) (by decide) hexec)

/-- The symbols of a message and FIN: UNDERFLOW_OVERFLOW, or the bits that spell the message, those pending first. -/
theorem encodeSymbols_spells {b : Build} {w : Nat} (hw : 1 ≤ w ∧ w ≤ 63) {message : List (Table × Nat)} {i : Interval}
    {s : State} (hs : InSession .enc b w i s) (hi : Settled w i) (hpending : s.regs.pending ≤ b.pendingMax)
    (hm : ∀ m ∈ message, codable b w m.1 m.2 = true) :
    encodeSymbols message s = .error .underflowOverflow
      ∨ ∃ t out bits, encodeSymbols message s = .ok t ∧ t.sink = s.sink ++ out
          ∧ padded out = deferred^[s.regs.pending] bits ∧ Spells w message i bits := by
  induction message generalizing i s with
  | nil =>
    have hfin := respondsOk_of_respond (exec_fin_of_mode hs.mode (by simp [hs.partners]))
    refine .inr ⟨_, [true], finBits, by rw [encodeSymbols, hfin]; rfl, rfl, ?_, rfl⟩
    rw [padded_finBit, iterate_deferred_finBits]
  | cons m rest ih =>
    obtain ⟨t, symbol⟩ := m
    obtain ⟨hm0, hmrest⟩ := List.forall_mem_cons.mp hm
    obtain ⟨k1, j1, k3, j3, hrun, henc | ⟨u, henc, hu, huPending, hpendingEq, hsink⟩⟩ :=
      respondsOk_enc hw (hs.withTable t) hi hpending hm0
    · exact .inl (by rw [encodeSymbols, henc]; rfl)
    · have hcons : encodeSymbols ((t, symbol) :: rest) s = encodeSymbols rest u := by rw [encodeSymbols, henc]; rfl
      rw [hcons]
      refine (ih hu hrun.settled huPending hmrest).imp_right ?_
      rintro ⟨v, out, later, hv, hout, hpadded, hspells⟩
      refine ⟨v, emittedBits w k1 (i.select t symbol) s.regs.pending ++ out, _, hv, ?_, ?_,
        ⟨k1, j1, k3, j3, later, hrun, rfl, hspells⟩⟩
      · rw [hout, hsink, List.append_assoc]
        rfl
      · rw [padded_append, hpadded, hpendingEq]
        exact emittedBits_append_deferred ..

/-! ## The decoder session -/

/-- A DEC of a session whose CODE and items spell a symbol: it returns that symbol, and the later bits remain. -/
theorem respondsOk_dec {b : Build} {w n k1 k3 : Nat} {i j1 j3 : Interval} {s : State} {later : Stream' Bit}
    (hw : 1 ≤ w ∧ w ≤ 63) (hs : InSession .dec b w i s) (hi : Settled w i) (hn : codable b w s.table n = true)
    (hrun : UpdateRuns w (i.select s.table n) k1 j1 k3 j3) (hlater : codeOk j3 (window w later) = true)
    (hcode : s.code = window w (updateBits w k1 (i.select s.table n) k3 later))
    (hsource : padded s.source = (updateBits w k1 (i.select s.table n) k3 later).drop w) :
    ∃ u, respondsOk .dec s = .ok (symbolIndex n, u) ∧ InSession .dec b w j3 u ∧ u.code = window w later
      ∧ padded u.source = later.drop w := by
  have ⟨hmode, hbuild, hwidth, hinterval, hp⟩ := hs
  obtain ⟨hc, hsymbol, hlarge, -⟩ := codable_iff.mp hn
  obtain ⟨hfreq, htotal⟩ := codable_bounds hn
  obtain ⟨hlow, -, hhigh⟩ := select_bounds (hi.intervalOk hw.1) hn
  have hin := hrun.codeOk_updateBits hw hlater
  have hafter := hrun.codeAfter_updateBits hw.1 later
  rw [← hcode] at hin hafter
  rw [← hsource, ← bitsRead_eq_take] at hafter
  obtain ⟨hinLow, hinHigh⟩ := codeOk_iff.mp hin
  have hok : codeOk i s.code = true := codeOk_iff.mpr ⟨hlow.trans hinLow, hinHigh.trans hhigh⟩
  subst hbuild hwidth hinterval
  obtain ⟨mids, found, h, hfinds, hexec⟩ :=
    exec_dec_of_checks hw hmode (hi.intervalOk hw.1) hok hp hc hlarge (by omega)
  have hvalue := (codeContained_iff (by omega)).mp (codeContained_of_codeOk_select (hi.intervalOk hw.1) hn hin)
  obtain rfl : found = n :=
    Table.symbol_unique hc hfinds.hasSymbol hsymbol hfinds.low hfinds.high hvalue.1 hvalue.2
  have hdec := hexec k1 j1 k3 j3 hrun (by rwa [hafter])
  refine ⟨_, respondsOk_of_respond hdec, ((hs.accept _).moved hw.2 hrun.settled ..).takeResponse _, ?_, ?_⟩
  · rw [hafter]
    exact window_toNat hw.2 later
  · exact (padded_drop s.source (k1 + k3)).trans (by rw [hsource, updateBits_drop_all hw.1])

/-- The symbols of a message come back from CODE and the items that spell it. -/
theorem decodeSymbols_spells {b : Build} {w : Nat} (hw : 1 ≤ w ∧ w ≤ 63) {message : List (Table × Nat)} {i : Interval}
    {s : State} {bits : Stream' Bit} (hs : InSession .dec b w i s) (hi : Settled w i)
    (hm : ∀ m ∈ message, codable b w m.1 m.2 = true) (hspells : Spells w message i bits)
    (hcode : s.code = window w bits) (hsource : padded s.source = bits.drop w) :
    decodeSymbols (message.map Prod.fst) s = .ok (message.map Prod.snd) := by
  induction message generalizing i s bits with
  | nil => rfl
  | cons m rest ih =>
    obtain ⟨t, symbol⟩ := m
    obtain ⟨hm0, hmrest⟩ := List.forall_mem_cons.mp hm
    obtain ⟨k1, j1, k3, j3, later, hrun, rfl, hrest⟩ := hspells
    obtain ⟨u, hdec, hu, hucode, husource⟩ := respondsOk_dec (s := s.withTable t) hw (hs.withTable t) hi hm0 hrun
      (hrest.codeOk hw hrun.settled hmrest) hcode hsource
    have hindex : (symbolIndex symbol).toNat = symbol :=
      symbolIndex_toNat ((codable_iff.mp hm0).2.1.trans t.symbolLimit.isLt)
    rw [List.map_cons, List.map_cons, decodeSymbols, hdec]
    show (decodeSymbols (rest.map Prod.fst) u).map _ = _
    rw [ih hu hrun.settled hmrest hrest hucode husource, hindex]
    rfl

/-! ## The two sessions -/

theorem respondsOk_initEnc {w : Nat} (hw : 1 ≤ w ∧ w ≤ 63) {s : State} (hp : s.partnerLimit = none) :
    ∃ u, respondsOk (.initEnc w) s = .ok (0, u) ∧ InSession .enc s.build w ⟨0, mask w⟩ u ∧ u.regs.pending = 0
      ∧ u.sink = s.sink := by
  let a := (accept (some (.initEnc w)) s).enterPhase .checking
  have hopened := inSession_opened (s := a) hw.2 hp
  exact ⟨_, respondsOk_of_respond (exec_initEnc_of_legal (legalWidth_iff.mpr hw) s),
    (hopened.writeMode .enc).takeResponse 0, rfl, rfl⟩

theorem respondsOk_initDec {w : Nat} (hw : 1 ≤ w ∧ w ≤ 63) {s : State} (hp : s.partnerLimit = none) :
    ∃ u, respondsOk (.initDec w) s = .ok (0, u) ∧ InSession .dec s.build w ⟨0, mask w⟩ u
      ∧ u.code = window w (padded s.source) ∧ padded u.source = (padded s.source).drop w := by
  obtain ⟨h, hexec⟩ := exec_initDec_of_legal hw hp
  have hopened := inSession_opened (s := accept (some (.initDec w)) s) hw.2 hp
  have hread := hopened.moved hw.2 (settled_opened hw.1) 0 (window w (padded s.source)) h (s.source.drop w) []
    ((itemsRead w s.source).map .bitIn)
  exact ⟨_, respondsOk_of_respond hexec, (hread.writeMode .dec).takeResponse 0,
    window_toNat hw.2 (padded s.source), padded_drop ..⟩

/-- Settles O51: the decoder's CODE and items spell, from its interval on, what the encoder has still to emit. -/
theorem roundTrip : Obligations.RoundTrip := by
  intro w message e d hlegal hbuild he hd hm hne
  have hw := legalWidth_iff.mp hlegal
  obtain ⟨u, hinitEnc, hu, hupending, husink⟩ := respondsOk_initEnc hw (s := e.withSink []) he
  have henc : encodeSession w message e = (encodeSymbols message u).map State.sink := by
    rw [encodeSession, hinitEnc]
    rfl
  rcases encodeSymbols_spells hw hu (settled_opened hw.1) (hupending ▸ Nat.zero_le _) hm with
    hfail | ⟨t, out, bits, hsymbols, hout, hpadded, hspells⟩
  · exact absurd (by rw [henc, hfail]; rfl) hne
  · rw [hupending] at hpadded
    obtain ⟨v, hinitDec, hv, hvcode, hvsource⟩ := respondsOk_initDec hw (s := d.withSource out) hd
    have hsink : t.sink = out := hout.trans (congrArg (· ++ out) husink)
    have hdec := decodeSymbols_spells hw (hbuild ▸ hv) (settled_opened hw.1) hm hspells
      (hvcode.trans (congrArg (window w) hpadded)) (hvsource.trans (congrArg (Stream'.drop w) hpadded))
    refine ⟨out, by rw [henc, hsymbols, ← hsink]; rfl, ?_⟩
    rw [decodeSession, hinitDec]
    exact hdec

end Sys2Proof.Machine

/-! # The commands that touch the session only: NOP and CLOSE (43_session_control.md R250, R251) -/

namespace Sys2Proof.Machine

theorem respond_responded (e : Status) (result : Word) {s : State} (hb : s.regs.busy = true) :
    Responded e result (respond e result s) :=
  ⟨rfl, rfl, hb, rfl⟩

/-- NOP has no stage: its response follows its acceptance. -/
theorem exec_nop (s : State) : exec .nop s = .next (respond .ok 0 (accept (some .nop) s)) := by
  rw [exec_eq, stagesOf, nopStages, runStages_nil, settle_go, resultOf, noResult]

/-- CLOSE has one stage, which checks nothing and writes MODE. -/
theorem exec_close (s : State) :
    exec .close s = .next (respond .ok 0 (((accept (some .close) s).enterPhase .responding).writeMode .idle)) := by
  let u := (accept (some .close) s).enterPhase .responding
  have hclose : closeSession u = .go (u.writeMode .idle) := rfl
  rw [exec_eq, stagesOf, closeStages, runStages_of_go hclose, runStages_nil, settle_go, resultOf, noResult]

/-- Settles O24: acceptance and response are all that NOP does, so BUSY and LAST_STATUS are all that it writes. -/
theorem nopRespondsAndChangesNothing : Obligations.NopRespondsAndChangesNothing := by
  refine ⟨fun arg => decode_of_toNat_eq (by decide) rfl decode_of_opField_nop, fun s => ?_⟩
  exact ⟨_, exec_nop s, respond_responded .ok 0 rfl, rfl, ⟨rfl, rfl, rfl, rfl, rfl, rfl⟩, ⟨rfl, rfl, rfl, rfl⟩⟩

/-- Settles O25: CLOSE adds to acceptance and response the write of MODE, in every mode. -/
theorem closeEndsTheSession : Obligations.CloseEndsTheSession := by
  refine ⟨fun arg => decode_of_toNat_eq (by decide) rfl decode_of_opField_close, fun s => ?_⟩
  exact ⟨_, exec_close s, respond_responded .ok 0 rfl, rfl, ⟨rfl, rfl, rfl, rfl, rfl, rfl⟩, ⟨rfl, rfl, rfl, rfl⟩⟩

end Sys2Proof.Machine

/-! # Exceptions: what raises each error and what it leaves (60_exceptions.md) -/

namespace Sys2Proof.Machine

/-! ## UNDERFLOW_OVERFLOW (R275) -/

/-- The end of a loop and its number of steps are determined by where it starts. -/
theorem runsTo_unique {due : Interval → Bool} {shift : Interval → Interval} {i j j' : Interval} {k k' : Nat}
    (h : RunsTo due shift i k j) (h' : RunsTo due shift i k' j') : k = k' ∧ j = j' := by
  obtain ⟨rfl, hdue, hend⟩ := h
  obtain ⟨rfl, hdue', hend'⟩ := h'
  rcases Nat.lt_trichotomy k k' with hlt | rfl | hlt
  · exact absurd (hdue' k hlt) (Bool.eq_false_iff.mp hend)
  · exact ⟨rfl, rfl⟩
  · exact absurd (hdue k' hlt) (Bool.eq_false_iff.mp hend')

/-- Runs of the two loops one after the other are the runs of an UPDATE: each is determined by where it starts. -/
theorem updateRuns_of_runs {w k1 k3 : Nat} {i j1 j3 : Interval} (hw : 1 ≤ w ∧ w ≤ 63) (hle : i.low ≤ i.high)
    (hh : i.high < fullRange w) (hrenorm : RenormRuns w i k1 j1) (hunderflow : UnderflowRuns w j1 k3 j3) :
    UpdateRuns w i k1 j1 k3 j3 := by
  obtain ⟨m1, l1, m3, l3, hrun⟩ := updateRuns_exists hw hle hh
  obtain ⟨rfl, rfl⟩ := runsTo_unique hrun.renorm hrenorm
  obtain ⟨rfl, rfl⟩ := runsTo_unique hrun.underflow hunderflow
  exact hrun

/-- A due E3 step leaves the interval astride the midpoint (40_coder_state_machine.md R151). -/
theorem Astride.underflowShift {w : Nat} (hw : 1 ≤ w ∧ w ≤ 63) {i : Interval} (h : Astride w i)
    (hdue : underflowDue w i = true) : Astride w (i.underflowShift w) := by
  have hne : w ≠ 1 := by
    rintro rfl
    exact absurd hdue (Bool.eq_false_iff.mp (underflowDue_one i))
  obtain ⟨hlow, hmid, hhigh, -⟩ := underflowShift_keeps (by omega) (by omega) h.low h.mid h.high hdue
  exact ⟨hlow, hmid, hhigh⟩

/-- So every interval that the E3 loop passes through is astride the midpoint. -/
theorem Astride.iterate_underflowShift {w k : Nat} (hw : 1 ≤ w ∧ w ≤ 63) {i j : Interval} (h : Astride w i)
    (hrun : UnderflowRuns w i k j) {m : Nat} (hm : m ≤ k) : Astride w ((Interval.underflowShift w)^[m] i) := by
  obtain ⟨-, hdue, -⟩ := hrun
  induction m with
  | zero => exact h
  | succ m ih =>
    rw [Function.iterate_succ_apply']
    exact (ih (Nat.le_of_succ_le hm)).underflowShift hw (hdue m hm)

theorem one_le_of_intervalOk {w : Nat} {i : Interval} (h : intervalOk w i = true) : 1 ≤ w := by
  obtain ⟨hlt, -, hmask, -⟩ := intervalOk_iff.mp h
  rcases Nat.eq_zero_or_pos w with rfl | hpos
  · exact absurd (hlt.trans_le hmask) (Nat.not_lt_zero _)
  · exact hpos

theorem State.ofNat_code (s : State) : BitVec.ofNat 63 s.code = s.regs.code :=
  (BitVec.ofNat_toNat ..).trans (BitVec.setWidth_eq _)

/-- Settles O42: the steps of the statement are those of the ENC, and the ENC stops at the E3 step that has no room. -/
theorem encodeOverflowAborts : Obligations.EncodeOverflowAborts := by
  intro n s hm hw63 hok hp hn hpending k1 j1 k3 j3 hrenorm hunderflow hover
  have hw : 1 ≤ s.w ∧ s.w ≤ 63 := ⟨one_le_of_intervalOk hok, hw63⟩
  obtain ⟨-, hle, hhigh⟩ := select_bounds hok hn
  obtain ⟨-, -, hmask, -⟩ := intervalOk_iff.mp hok
  have hrun : UpdateRuns s.w (s.interval.select s.table n) k1 j1 k3 j3 :=
    updateRuns_of_runs hw hle (hhigh.trans_lt (le_mask_iff.mp hmask)) hrenorm hunderflow
  obtain ⟨h, hexec⟩ := exec_enc_of_codable hm hp hw hok hn hpending hrun
  rw [if_neg hover.not_ge] at hexec
  have hsteps : s.build.pendingMax - (if k1 = 0 then s.regs.pending else 0) ≤ k3 :=
    Nat.sub_le_iff_le_add'.mpr hover.le
  obtain ⟨hlow63, hhigh63⟩ := (hrun.astride.iterate_underflowShift hw hrun.underflow hsteps).fits hw63
  exact ⟨_, hexec, raiseError_responded rfl, ⟨rfl, rfl, rfl, rfl, rfl, rfl⟩, rfl, rfl,
    (raiseError_interval ..).trans (State.moved_interval _ _ _ _ _ _ _ hlow63 hhigh63), rfl, s.ofNat_code, rfl, rfl⟩

/-! ## ILLEGAL_COMMAND (R276) -/

theorem runTransfer_of_reject {c : Command} {e : DecodeReject} (h : decode c.cmd c.arg = .error e) (s : State) :
    runTransfer c s = .next (illegalCommand s) := by
  rw [runTransfer, h]

theorem illegalCommand_responded (s : State) : Responded .illegalCommand 0 (illegalCommand s) :=
  raiseError_responded rfl

/-- Settles O12: decoding comes before every check of the mode, so the refusal is the same in all of them. -/
theorem illegalWordsRespondIllegalCommand : Obligations.IllegalWordsRespondIllegalCommand := by
  intro s c rest e hu hn hc hr hd
  have hstep : step s = .next (illegalCommand (acceptTransfer c rest s.afterTurn)) := by
    rw [step_present hu hn, presentCommand_of_ready (s := s.afterTurn) hc hr, runTransfer_of_reject hd]
  exact ⟨_, hstep, illegalCommand_responded _, rfl, rfl, rfl, rfl, rfl, rfl, rfl, rfl, hu⟩

/-! ## SEQUENCE_ERROR and SESSION_ABORTED (R277, R278) -/

/-- The mode that a coding command runs in (43_session_control.md R252). -/
inductive NeedsMode : Instr → Mode → Prop
  | enc (symbol : Nat) : NeedsMode (.enc symbol) .enc
  | dec : NeedsMode .dec .dec
  | fin : NeedsMode .fin .enc

theorem needsMode_exists_iff {i : Instr} :
    (∃ m, NeedsMode i m) ↔ (∃ symbol, i = .enc symbol) ∨ i = .dec ∨ i = .fin := by
  constructor
  · rintro ⟨m, symbol | _ | _⟩
    · exact .inl ⟨symbol, rfl⟩
    · exact .inr (.inl rfl)
    · exact .inr (.inr rfl)
  · rintro (⟨symbol, rfl⟩ | rfl | rfl)
    · exact ⟨.enc, .enc symbol⟩
    · exact ⟨.dec, .dec⟩
    · exact ⟨.enc, .fin⟩

theorem NeedsMode.ne_idle {i : Instr} {m : Mode} (h : NeedsMode i m) : m ≠ .idle := by
  cases h <;> decide

/-- The mode check is the first thing a coding command does: where it raises, the command ends. -/
theorem NeedsMode.exec_of_raise {i : Instr} {m : Mode} (h : NeedsMode i m) (s : State) (e : Status) :
    let u := (accept (some i) s).enterPhase .checking
    requireMode m u = .raise e u → exec i s = .next (raiseError e u) := by
  intro u hraise
  cases h with
  | enc symbol => rw [exec_eq, stagesOf, encStages, runStages_of_raise hraise, settle_raise]
  | dec =>
    have hcheck : decCheck u = .raise e u := by rw [decCheck, hraise, Flow.andThen_raise]
    rw [exec_eq, stagesOf, decStages, List.append_assoc, List.cons_append, runStages_of_raise hcheck, settle_raise]
  | fin => rw [exec_eq, stagesOf, finStages, runStages_of_raise hraise, settle_raise]

theorem requireMode_sessionAborted {m : Mode} {s : State} (ha : s.regs.mode = .aborted) :
    requireMode m s = .raise .sessionAborted s := by
  rw [requireMode, if_pos ha]

/-- A coding command in another mode than its own: the error and nothing else (R277). -/
theorem NeedsMode.sequenceError {i : Instr} {m : Mode} (h : NeedsMode i m) {s : State} (ha : s.regs.mode ≠ .aborted)
    (hm : s.regs.mode ≠ m) :
    ∃ t, exec i s = .next t ∧ Responded .sequenceError 0 t ∧ t.regs = s.regs.during .sequenceError
      ∧ SameSurroundings s t ∧ NoPortEvent s t :=
  ⟨_, h.exec_of_raise s _ (requireMode_sequenceError (by exact ha) (by exact hm)), raiseError_of_accepted ..⟩

/-- Settles O30: the three commands share one mode check. -/
theorem wrongModeIsSequenceError : Obligations.WrongModeIsSequenceError := by
  rintro i s ha (⟨⟨symbol, rfl⟩, hm⟩ | ⟨rfl, hm⟩ | ⟨rfl, hm⟩)
  · exact (NeedsMode.enc symbol).sequenceError ha hm
  · exact NeedsMode.dec.sequenceError ha hm
  · exact NeedsMode.fin.sequenceError ha hm

/-- Settles O31: the mode check asks for ABORTED before it asks for the mode that the command needs. -/
theorem abortedSessionRefusesCoding : Obligations.AbortedSessionRefusesCoding := by
  intro i s ha hi
  obtain ⟨m, hneeds⟩ := needsMode_exists_iff.mpr hi
  exact ⟨_, hneeds.exec_of_raise s _ (requireMode_sessionAborted (by exact ha)), raiseError_of_accepted ..⟩

/-! ## DOMAIN_ERROR (R271) -/

/-- The two INITs have the same width check. -/
theorem exec_init_of_illegal {w : Nat} {i : Instr} (hi : i = .initEnc w ∨ i = .initDec w)
    (hw : legalWidth w = false) (s : State) :
    exec i s = .next (raiseError .domainError ((accept (some i) s).enterPhase .checking)) := by
  rcases hi with rfl | rfl
  · exact exec_initEnc_of_illegal hw s
  · exact exec_initDec_of_illegal hw s

/-- Settles O28: the error leaves IDLE, which is the mode of no coding command. -/
theorem illegalWidthIsDomainError : Obligations.IllegalWidthIsDomainError := by
  intro w i s hw hi
  obtain ⟨hresponded, hregs, hsame, hquiet⟩ := raiseError_of_accepted .domainError i s .checking
  refine ⟨_, exec_init_of_illegal hi (legalWidth_eq_false (by omega)) s, hresponded, hregs, hsame, hquiet,
    fun j hj => ?_⟩
  obtain ⟨m, hneeds⟩ := needsMode_exists_iff.mpr hj
  have hidle : (takeResponse (raiseError .domainError ((accept (some i) s).enterPhase .checking))).regs.mode = .idle :=
    rfl
  obtain ⟨u, hexec, hrefused, hkept, -, -⟩ :=
    hneeds.sequenceError (hidle ▸ by decide) (hidle ▸ hneeds.ne_idle.symm)
  exact ⟨u, hexec, hrefused, (congrArg Regs.mode hkept).trans hidle⟩

end Sys2Proof.Machine

/-! # The reset input (70_reset_and_hazards.md R310, R311) -/

namespace Sys2Proof.Machine

theorem step_reset {s : State} {asserted : Bool} (hu : s.undefinedTable = false)
    (hn : s.nextTurn = .reset asserted) : step s = .next (driveReset asserted s.afterTurn) := by
  rw [step_eq_takeTurn hu, hn, takeTurn]

/-- Settles O8: asserting the reset writes the core alone, and what has moved stands outside it. -/
theorem assertedResetAbandonsTheCommand : Obligations.AssertedResetAbandonsTheCommand := by
  intro s hu hn
  exact ⟨_, step_reset hu hn, rfl, rfl, rfl, rfl, rfl, rfl, rfl, rfl, rfl, hu⟩

/-- The core holds its reset values: no command runs and no response stands. -/
structure AtReset (s : State) : Prop where
  regs : s.regs = Regs.reset
  current : s.current = none
  response : s.response = none

theorem AtReset.ready_eq {s : State} (h : AtReset s) : s.ready = !s.resetAsserted := by
  rw [State.ready, h.regs]
  rfl

/-- The part of the invariant that speaks of an asserted reset. -/
theorem atReset_of_invariantHolds {s : State} (hi : invariantHolds s = true) (hu : s.undefinedTable = false)
    (ha : s.resetAsserted = true) : AtReset s := by
  have hports : portsOk s = true := by
    simp only [invariantHolds, hu, Bool.false_or, Bool.and_eq_true] at hi
    obtain ⟨⟨-, hports⟩, -⟩ := hi
    exact hports
  simp only [portsOk, ha, Bool.and_eq_true, Bool.not_true, Bool.false_or] at hports
  obtain ⟨-, ⟨hregs, hcurrent⟩, hresponse⟩ := hports
  exact ⟨by simpa using hregs, by simpa using hcurrent, by simpa using hresponse⟩

/-- `t` is where the move `turn` leads from `s` under an asserted reset: the core holds its reset values, the host
keeps its commands, only a read of the observation port is logged, and a stream changes only when another is connected
(R310). -/
structure HeldAtReset (turn : Turn) (s t : State) : Prop where
  atReset : AtReset t
  commands : t.commands = s.commands
  trace : t.trace = s.trace ∨ ∃ index data, t.trace = s.trace ++ [.observe index data]
  sink : t.sink = s.sink ∨ ∃ held, turn = .sink held ∧ t.sink = held
  source : t.source = s.source ∨ ∃ items, turn = .source items ∧ t.source = items
  resetAsserted : t.resetAsserted = true ∨ turn = .reset false

/-- The moves that neither read, nor release the reset, nor connect a stream. -/
theorem HeldAtReset.of_unmoved {turn : Turn} {s t : State} (h : AtReset t) (hcommands : t.commands = s.commands)
    (htrace : t.trace = s.trace) (hsink : t.sink = s.sink) (hsource : t.source = s.source)
    (ha : t.resetAsserted = true) : HeldAtReset turn s t :=
  ⟨h, hcommands, .inl htrace, .inl hsink, .inl hsource, .inl ha⟩

theorem changeTable_of_not_querying {s : State} (h : s.queryingNow = false) (t : Table) :
    changeTable t s = s.withTable t := by
  rcases changeTable_cases t s with ht | ⟨-, hq, -⟩
  · exact ht
  · simp [h] at hq

theorem State.queryingNow_of_current_none {s : State} (h : s.current = none) : s.queryingNow = false := by
  simp [State.queryingNow, h]

/-- A core under reset is not ready, has no response to give and no command to resume, so every move passes it by. -/
theorem AtReset.takeTurn_held {s : State} (h : AtReset s) (ha : s.resetAsserted = true) (turn : Turn) :
    ∃ t, takeTurn turn s = .next t ∧ HeldAtReset turn s t := by
  have hready : s.ready = false := by simp [h.ready_eq, ha]
  have hsame : HeldAtReset turn s s := .of_unmoved h rfl rfl rfl rfl ha
  obtain ⟨hregs, hcurrent, hresponse⟩ := h
  cases turn with
  | present => exact ⟨s, presentCommand_of_not_ready hready, hsame⟩
  | take => exact ⟨s, congrArg Host.Outcome.next (takeResponse_none hresponse), hsame⟩
  | observe index =>
    exact ⟨_, rfl, ⟨hregs, hcurrent, hresponse⟩, rfl, .inr ⟨index, _, rfl⟩, .inl rfl, .inl rfl, .inl ha⟩
  | reset asserted =>
    cases asserted with
    | true => exact ⟨_, rfl, .of_unmoved ⟨rfl, rfl, rfl⟩ rfl rfl rfl rfl rfl⟩
    | false => exact ⟨_, rfl, ⟨hregs, hcurrent, hresponse⟩, rfl, .inl rfl, .inl rfl, .inl rfl, .inr rfl⟩
  | table table =>
    have hchange := changeTable_of_not_querying (State.queryingNow_of_current_none hcurrent) table
    exact ⟨_, congrArg Host.Outcome.next hchange, .of_unmoved ⟨hregs, hcurrent, hresponse⟩ rfl rfl rfl rfl ha⟩
  | partners limit =>
    exact ⟨_, resumeCommand_none (s := s.withLimit limit) hcurrent,
      .of_unmoved ⟨hregs, hcurrent, hresponse⟩ rfl rfl rfl rfl ha⟩
  | source items =>
    exact ⟨_, rfl, ⟨hregs, hcurrent, hresponse⟩, rfl, .inl rfl, .inl rfl, .inr ⟨items, rfl, rfl⟩, .inl ha⟩
  | sink held =>
    exact ⟨_, rfl, ⟨hregs, hcurrent, hresponse⟩, rfl, .inl rfl, .inr ⟨held, rfl, rfl⟩, .inl rfl, .inl ha⟩

/-- Settles O9: every move passes by a core that holds the reset values, and they are those of a ready core as soon as
the reset is released. -/
theorem assertedResetHoldsTheCore : Obligations.AssertedResetHoldsTheCore := by
  refine ⟨fun s hu hn => ⟨_, step_reset hu hn, rfl, rfl⟩, fun s hi hu ha => ?_⟩
  obtain ⟨hregs, hcurrent, hresponse⟩ := atReset_of_invariantHolds hi hu ha
  have hafter : AtReset s.afterTurn := ⟨hregs, hcurrent, hresponse⟩
  obtain ⟨t, hstep, held⟩ := hafter.takeTurn_held ha s.nextTurn
  have hreset := held.atReset
  refine ⟨t, (step_eq_takeTurn hu).trans hstep, hreset.regs, hreset.response, hreset.current, held.commands,
    held.trace, held.sink, held.source, held.resetAsserted, fun hreleased => ⟨?_, ?_, ?_⟩⟩
  · rw [hreset.regs]; rfl
  · rw [hreset.regs]; rfl
  · simp [hreset.ready_eq, hreleased]

end Sys2Proof.Machine

/-! # The encoding both ways, and the codes at the ports (30_encoding.md) -/

namespace Sys2Proof

/-! ## Decoding what was encoded (R111 to R115) -/

/-- The word of a command is that of its OP and WIDTH fields, the reserved bits 0. -/
theorem cmdOf_eq_ofNat {op w : Nat} (hop : op < 16) (hw : w < 256) : cmdOf op w = BitVec.ofNat 32 (w * 2 ^ 8 + op) := by
  refine BitVec.eq_of_toNat_eq ?_
  rw [cmdOf_toNat hop hw, BitVec.toNat_ofNat, Nat.mod_eq_of_lt (by omega)]
  omega

/-- The word of a command without a width is its OP. -/
theorem cmdOf_zero_toNat {op : Nat} (hop : op < 16) : (cmdOf op 0).toNat = op := by
  rw [cmdOf_toNat hop (by decide), Nat.mul_zero, Nat.zero_add]

/-- Settles O2: each command's word has the OP of the command and no reserved bit, and its operand fits its field. -/
theorem encodedCommandDecodesToItself : Obligations.EncodedCommandDecodesToItself := by
  intro i hi
  cases i with
  | nop => exact decode_of_toNat_eq (by decide) (cmdOf_zero_toNat (by decide)) decode_of_opField_nop
  | initEnc w =>
    have hw : w < 256 := of_decide_eq_true hi
    rw [encode, cmdOf_eq_ofNat (by decide) hw]
    exact Machine.decode_initEnc_word hw 0
  | initDec w =>
    have hw : w < 256 := of_decide_eq_true hi
    rw [encode, cmdOf_eq_ofNat (by decide) hw]
    exact Machine.decode_initDec_word hw 0
  | enc symbol =>
    have hs : symbol < 2 ^ 64 := of_decide_eq_true hi
    have harg : (BitVec.ofNat 64 symbol).toNat = symbol := Machine.symbolIndex_toNat hs
    refine decode_of_toNat_eq (by decide) (cmdOf_zero_toNat (by decide)) fun h => ?_
    rw [decode_of_opField_enc h]
    exact congrArg (fun n => ifReservedZero _ (.enc n)) harg
  | dec => exact decode_of_toNat_eq (by decide) (cmdOf_zero_toNat (by decide)) decode_of_opField_dec
  | fin => exact decode_of_toNat_eq (by decide) (cmdOf_zero_toNat (by decide)) decode_of_opField_fin
  | close => exact decode_of_toNat_eq (by decide) (cmdOf_zero_toNat (by decide)) decode_of_opField_close

/-! ## Encoding what was decoded (R112, R116) -/

section
variable {cmd : CmdWord}

/-- A word of format C0 or CS holds nothing but its OP. -/
theorem cmdOf_of_formatC0 {op : Nat} (hop : op < 16) (h : opField cmd = op) (hz : formatC0 cmd = true) :
    cmdOf op 0 = cmd := by
  rw [formatC0_iff] at hz
  rw [opField_eq] at h
  refine BitVec.eq_of_toNat_eq ?_
  rw [cmdOf_zero_toNat hop]
  omega

/-- A word of format CW holds nothing but its OP and its WIDTH. -/
theorem cmdOf_of_formatCW {op : Nat} (hop : op < 16) (h : opField cmd = op) (hz : formatCW cmd = true) :
    cmdOf op (widthField cmd) = cmd := by
  rw [formatCW_iff] at hz
  rw [opField_eq] at h
  refine BitVec.eq_of_toNat_eq ?_
  rw [cmdOf_toNat hop (BitVec.isLt _), widthField_eq]
  omega

theorem widthFits_widthField (cmd : CmdWord) : Instr.widthFits (widthField cmd) = true := decide_eq_true (BitVec.isLt _)

end

/-- Settles O3: the format of each OP leaves its operand the only freedom. -/
theorem decodedWordsAreTheEncoding : Obligations.DecodedWordsAreTheEncoding := by
  intro cmd arg i h
  unfold decode at h
  split at h
  case h_8 => cases h
  all_goals
    rename_i hop
    obtain ⟨hz, rfl⟩ := ifReservedZero_ok.mp h
  case h_1 => exact ⟨rfl, cmdOf_of_formatC0 (by decide) hop hz, nofun⟩
  case h_2 => exact ⟨widthFits_widthField cmd, cmdOf_of_formatCW (by decide) hop hz, nofun⟩
  case h_3 => exact ⟨widthFits_widthField cmd, cmdOf_of_formatCW (by decide) hop hz, nofun⟩
  case h_4 =>
    refine ⟨decide_eq_true arg.isLt, cmdOf_of_formatC0 (by decide) hop hz, fun symbol hs => ?_⟩
    cases hs
    exact (BitVec.ofNat_toNat 64 arg).trans (BitVec.setWidth_eq arg)
  case h_5 => exact ⟨rfl, cmdOf_of_formatC0 (by decide) hop hz, nofun⟩
  case h_6 => exact ⟨rfl, cmdOf_of_formatC0 (by decide) hop hz, nofun⟩
  case h_7 => exact ⟨rfl, cmdOf_of_formatC0 (by decide) hop hz, nofun⟩

/-! ## Words and codes written out -/

/-- Settles O1: seven words have the OP of their command and no reserved bit; the two others fail one check each. -/
theorem sampleWordsDecode : Obligations.SampleWordsDecode :=
  ⟨decode_of_toNat_eq (by decide) rfl decode_of_opField_nop, Machine.decode_initEnc_word (w := 32) (by decide) 0,
    Machine.decode_initDec_word (w := 63) (by decide) 0, decode_of_toNat_eq (by decide) rfl decode_of_opField_enc,
    decode_of_toNat_eq (by decide) rfl decode_of_opField_dec, decode_of_toNat_eq (by decide) rfl decode_of_opField_fin,
    decode_of_toNat_eq (by decide) rfl decode_of_opField_close, decode_reservedOpcode (by decide),
    decode_reservedBits_of_formatC0 (by decide) (by decide)⟩

/-- Settles O5: the codes are the model's tables, and the core's reading of {E, D} inverts the source's writing. -/
theorem portCodesAreAsTabled : Obligations.PortCodesAreAsTabled := by
  refine ⟨by decide, by decide, fun _ => rfl, fun _ => rfl, ⟨false, rfl⟩, by decide, fun d => ?_, fun d => ?_⟩
  · cases d <;> rfl
  · cases d <;> rfl

end Sys2Proof

/-! # The moves of the agents, one step each (10_state.md sections 3 and 4, 60_exceptions.md R285) -/

namespace Sys2Proof.Machine

/-! ## Reset values (10_state.md R59) -/

/-- Settles O7: the state right after reset is written out. -/
theorem resetStateHoldsResetValues : Obligations.ResetStateHoldsResetValues :=
  ⟨rfl, rfl, rfl, rfl, rfl, rfl, rfl, rfl, rfl⟩

/-- Settles O21: nothing is recorded, no command runs, and IDLE asks nothing of the session. -/
theorem resetStateMeetsInvariant : Obligations.ResetStateMeetsInvariant := by
  have hfit : regsFit State.reset.build State.reset.regs = true := by decide
  have hports : portsOk State.reset = true := by decide
  have hsession : sessionOk State.reset = true := by decide
  show (State.reset.undefinedTable || (regsFit _ _ && portsOk _ && sessionOk State.reset)) = true
  rw [hfit, hports, hsession]
  rfl

/-! ## The command transfer (10_state.md R53) -/

theorem runTransfer_of_decode {c : Command} {i : Instr} (h : decode c.cmd c.arg = .ok i) (s : State) :
    runTransfer c s = exec i s := by
  rw [runTransfer, h]

/-- Settles O10: a ready core accepts, and what it runs is what the words decode to. -/
theorem stepRunsDecodedCommand : Obligations.StepRunsDecodedCommand := by
  intro s c rest i hu hn hc hr hd
  rw [step_present hu hn, presentCommand_of_ready (s := s.afterTurn) hc hr, runTransfer_of_decode hd]
  rfl

theorem decodeTableWord_eq_some {nbits w : Nat} {i : Instr} (h : decodeTableWord nbits w = some i) :
    decode (tableCmd nbits w) (tableArg nbits w) = .ok i := by
  unfold decodeTableWord at h
  split at h
  · next heq =>
    cases h
    exact heq
  · cases h

/-- Settles O11: the state with the fetch word is ready, and its next turn presents that word's command. -/
theorem fetchWordIsWhatTheNextStepRuns : Obligations.FetchWordIsWhatTheNextStepRuns := by
  intro s nbits w i h
  have hstep := stepRunsDecodedCommand (s.withFetchWord nbits w) _ s.commands i rfl rfl rfl rfl
    (decodeTableWord_eq_some h)
  exact ⟨_, hstep, rfl, rfl, rfl, rfl, rfl, rfl, rfl, rfl⟩

/-! ## The response and the observation port (R43, R49, R51, R54) -/

/-- Settles O14: the turn is the host's taking of the response and nothing else. -/
theorem takingTheResponseClearsBusy : Obligations.TakingTheResponseClearsBusy := by
  intro s r hu hn hr
  rw [step_eq_takeTurn hu, hn, takeTurn, takeResponse_some (s := s.afterTurn) hr]
  rfl

theorem State.observe_of_busy {s : State} (h : s.regs.busy = true) (index : BitVec 3) :
    s.observe index = observeBusy s.draws index := by
  rw [State.observe, if_pos h]

theorem observeBusy_reserved (draw : Nat) {index : BitVec 3} (h : 5 ≤ index.toNat) : observeBusy draw index = 0 := by
  have hindex : index.toNat = 5 ∨ index.toNat = 6 ∨ index.toNat = 7 := by omega
  rcases hindex with h | h | h <;> simp [observeBusy, h]

/-- CFG while BUSY = 1: bit 3 is BUSY, and no reserved bit is set (R51). -/
theorem observeBusy_cfg (draw : Nat) :
    (observeBusy draw 0).getLsbD 3 = true ∧ (observeBusy draw 0).toNat < 2 ^ 16 := by
  obtain ⟨width, status, mode, hcfg⟩ : ∃ (width : BitVec 8) (status : BitVec 4) (mode : BitVec 3),
      observeBusy draw 0 = cfgWord width status true mode := ⟨_, _, _, rfl⟩
  have hvalue := cfgWord_toNat width status true mode
  have hwidth := width.isLt
  have hstatus := status.isLt
  have hmode := mode.isLt
  rw [Bool.toNat_true] at hvalue
  refine hcfg ▸ ⟨?_, by omega⟩
  rw [← BitVec.testBit_toNat, Nat.testBit_eq_decide_div_mod_eq, decide_eq_true_eq]
  omega

/-- Settles O16: a busy read answers with free values around BUSY, and only logs itself. -/
theorem busyObservationMarksBusyChangesNothing : Obligations.BusyObservationMarksBusyChangesNothing := by
  intro s index hu hn hb
  have hstep : step s = .next (readObservation index s.afterTurn) := by rw [step_eq_takeTurn hu, hn, takeTurn]
  have hdata : s.afterTurn.observe index = observeBusy s.draws index := State.observe_of_busy hb index
  refine ⟨_, observeBusy s.draws index, hstep, by rw [← hdata]; rfl, ?_, observeBusy_reserved s.draws,
    readObservation_keeps index s.afterTurn⟩
  rintro rfl
  exact observeBusy_cfg s.draws

/-! ## Another table (70_reset_and_hazards.md R316) -/

theorem step_table {s : State} {table : Table} (hu : s.undefinedTable = false) (hn : s.nextTurn = .table table) :
    step s = .next (changeTable table s.afterTurn) := by
  rw [step_eq_takeTurn hu, hn, takeTurn]

theorem queriesTable_iff {i : Instr} : queriesTable i = true ↔ (∃ symbol, i = .enc symbol) ∨ i = .dec := by
  cases i <;> simp [queriesTable]

theorem State.queryingNow_of_current {s : State} {i : Instr} (h : s.current = some i) :
    s.queryingNow = queriesTable i := by
  simp [State.queryingNow, h]

theorem changeTable_self (s : State) : changeTable s.table s = s := by
  rcases changeTable_cases s.table s with h | ⟨-, -, hne⟩
  · exact h
  · exact absurd rfl hne

theorem changeTable_of_querying {s : State} {t : Table} (hq : s.queryingNow = true) (ht : t ≠ s.table) :
    changeTable t s = (s.withTable t).forget := by
  rw [changeTable, hq, decide_eq_true ht, Bool.and_self, if_pos rfl]

/-- Settles O17: only a command that queries the table is disturbed, and only by another one. -/
theorem tableChangesBetweenCommandsOnly : Obligations.TableChangesBetweenCommandsOnly := by
  intro s table hu hn
  rw [step_table hu hn]
  refine ⟨fun hc => ?_, fun i hc henc hdec => ?_, fun ht => ?_, fun i hc hi ht => ?_⟩
  · rw [changeTable_of_not_querying (State.queryingNow_of_current_none (s := s.afterTurn) hc)]
    rfl
  · have hquiet : queriesTable i = false := by
      rw [Bool.eq_false_iff, Ne, queriesTable_iff]
      exact fun h => h.elim (fun ⟨symbol, h⟩ => henc symbol h) hdec
    rw [changeTable_of_not_querying ((State.queryingNow_of_current (s := s.afterTurn) hc).trans hquiet)]
    rfl
  · subst ht
    exact congrArg Host.Outcome.next (changeTable_self s.afterTurn)
  · have hquerying : s.afterTurn.queryingNow = true :=
      (State.queryingNow_of_current (s := s.afterTurn) hc).trans (queriesTable_iff.mpr hi.symm)
    exact ⟨_, rfl, by rw [changeTable_of_querying hquerying ht]; rfl⟩

/-! ## What no step undoes: the record, the build, the trace -/

/-- Settles O18: forgetting is what a step does then, and it records. -/
theorem recordedUndefinedTableStays : Obligations.RecordedUndefinedTableStays :=
  fun _ h => ⟨_, step_recorded h, State.forget_undefinedTable _⟩

/-- `t` may come after `s` in some run: the same build, and the port events of `s` stand (20_memory.md R92). -/
structure Follows (s t : State) : Prop where
  build : t.build = s.build
  trace : s.trace <+: t.trace

theorem Follows.refl (s : State) : Follows s s := ⟨rfl, List.prefix_rfl⟩

theorem Follows.trans {s t u : State} (h : Follows s t) (k : Follows t u) : Follows s u :=
  ⟨k.build.trans h.build, h.trace.trans k.trace⟩

theorem Continues.follows {s t : State} (h : Continues s t) : Follows s t := ⟨h.build, h.trace⟩

theorem Follows.log (s : State) (e : PortEvent) : Follows s (s.log e) := ⟨rfl, List.prefix_append _ _⟩

theorem Follows.forget (s : State) : Follows s s.forget := ⟨rfl, List.prefix_append _ _⟩

theorem exec_follows {i : Instr} {s t : State} (h : exec i s = .next t) : Follows s t := by
  rcases exec_next h with ⟨u, hk, -, rfl⟩ | ⟨e, u, hk, -, rfl⟩ | ⟨hk, -⟩ | ⟨u, hk, -, rfl⟩
  · exact ⟨hk.build, hk.trace⟩
  · exact ⟨hk.build, hk.trace⟩
  · exact ⟨hk.build, hk.trace⟩
  · exact Follows.trans (t := u) ⟨hk.build, hk.trace⟩ (.forget u)

theorem resumeCommand_follows {s t : State} (h : resumeCommand s = .next t) : Follows s t := by
  cases hc : s.current with
  | none =>
    rw [resumeCommand_none hc] at h
    cases h
    exact .refl s
  | some i =>
    rcases resumeCommand_next hc h with ⟨u, hk, -, rfl⟩ | ⟨e, u, hk, -, rfl⟩ | ⟨hk, -⟩ | ⟨u, hk, -, rfl⟩
    · exact ⟨hk.build, hk.trace⟩
    · exact ⟨hk.build, hk.trace⟩
    · exact hk.follows
    · exact hk.follows.trans (.forget u)

theorem presentCommand_follows {s t : State} (h : presentCommand s = .next t) : Follows s t := by
  rcases presentCommand_cases s with ⟨hp, -⟩ | ⟨c, rest, -, -, hp⟩ <;> rw [hp] at h
  · cases h
    exact .refl s
  · have haccepted : Follows s (acceptTransfer c rest s) := ⟨rfl, List.prefix_append _ _⟩
    rcases runTransfer_cases c (acceptTransfer c rest s) with ⟨i, -, hr⟩ | ⟨e, -, hr⟩ <;> rw [hr] at h
    · exact haccepted.trans (exec_follows h)
    · cases h
      exact haccepted.trans ⟨rfl, List.prefix_rfl⟩

theorem takeResponse_follows (s : State) : Follows s (takeResponse s) := by
  cases hr : s.response with
  | none => rw [takeResponse_none hr]; exact .refl s
  | some r => rw [takeResponse_some hr]; exact ⟨rfl, List.prefix_append _ _⟩

theorem driveReset_follows (asserted : Bool) (s : State) : Follows s (driveReset asserted s) := by
  cases asserted <;> exact ⟨rfl, List.prefix_rfl⟩

theorem changeTable_follows (t : Table) (s : State) : Follows s (changeTable t s) := by
  rcases changeTable_cases t s with h | ⟨h, -⟩ <;> rw [h]
  · exact ⟨rfl, List.prefix_rfl⟩
  · exact Follows.trans (t := s.withTable t) ⟨rfl, List.prefix_rfl⟩ (.forget _)

theorem takeTurn_follows {turn : Turn} {s t : State} (h : takeTurn turn s = .next t) : Follows s t := by
  cases turn with
  | present => exact presentCommand_follows h
  | take => cases h; exact takeResponse_follows s
  | observe index => cases h; exact ⟨rfl, List.prefix_append _ _⟩
  | reset asserted => cases h; exact driveReset_follows asserted s
  | table table => cases h; exact changeTable_follows table s
  | partners limit => exact Follows.trans (t := s.withLimit limit) ⟨rfl, List.prefix_rfl⟩ (resumeCommand_follows h)
  | source items => cases h; exact ⟨rfl, List.prefix_rfl⟩
  | sink held => cases h; exact ⟨rfl, List.prefix_rfl⟩

theorem step_follows {s t : State} (h : step s = .next t) : Follows s t := by
  cases hu : s.undefinedTable with
  | true =>
    rw [step_recorded hu] at h
    cases h
    obtain ⟨hbuild, htrace, -⟩ := unclaimedTurn_keeps s.nextTurn s.afterTurn
    exact Follows.trans (t := unclaimedTurn s.nextTurn s.afterTurn) ⟨hbuild, htrace ▸ List.prefix_rfl⟩ (.forget _)
  | false =>
    rw [step_eq_takeTurn hu] at h
    exact Follows.trans (t := s.afterTurn) ⟨rfl, List.prefix_rfl⟩ (takeTurn_follows h)

/-- Settles O19: no agent's move and no part of a command writes the build. -/
theorem noStepWritesTheBuild : Obligations.NoStepWritesTheBuild := fun _ _ h => (step_follows h).build

/-- Settles O20: whatever is logged is logged behind what stands. -/
theorem portEventsOnlyAccumulate : Obligations.PortEventsOnlyAccumulate := fun _ _ h => (step_follows h).trace

end Sys2Proof.Machine

/-! # What a command may do on its way: O32, O34, O35 read off its actions -/

namespace Sys2Proof.Machine

/-! ## The rights of a command (41_encoder.md, 42_decoder.md, 43_session_control.md) -/

/-- The commands that hand bits to the sink. -/
def emitsBits : Instr → Bool
  | .enc _ => true
  | .fin => true
  | _ => false

/-- The commands that read items of the source into CODE. -/
def readsItems : Instr → Bool
  | .initDec _ => true
  | .dec => true
  | _ => false

/-- The commands that can be at a port transfer: the others never wait. -/
def usesPorts (i : Instr) : Bool := emitsBits i || readsItems i

/-- The mode that a command writes when it is done (10_state.md R41). -/
inductive WritesMode : Instr → Mode → Prop
  | initEnc {w : Nat} (hw : legalWidth w = true) : WritesMode (.initEnc w) .enc
  | initDec {w : Nat} (hw : legalWidth w = true) : WritesMode (.initDec w) .dec
  | fin : WritesMode .fin .encFin
  | close : WritesMode .close .idle

/-- The errors that a command raises itself (30_encoding.md R120). -/
def errorsOf : Instr → List Status
  | .nop => []
  | .initEnc w => if legalWidth w then [] else [.domainError]
  | .initDec w => if legalWidth w then [] else [.domainError]
  | .enc _ =>
    [.sessionAborted, .sequenceError, .internalFault, .totalTooLarge, .zeroFrequency, .underflowOverflow]
  | .dec => [.sessionAborted, .sequenceError, .internalFault, .totalTooLarge, .zeroFrequency]
  | .fin => [.sessionAborted, .sequenceError]
  | .close => []

/-- One action of the command `i`: what it does to the state between two decisions. -/
inductive Act (i : Instr) (s : State) : State → Prop
  | note (h : Hidden) : Act i s (s.withHidden h)
  | spend {n : Nat} (hi : usesPorts i = true) (hn : s.partnerLimit = some (n + 1)) : Act i s (s.withLimit (some n))
  | ask (hi : queriesTable i = true) (q : Query) (answer : Word) : Act i s (s.log (.query q.kind q.index answer))
  | narrow (hi : queriesTable i = true) (j : Interval) : Act i s (s.writeInterval j)
  | emit (hi : emitsBits i = true) (b : Bit) : Act i s ((s.withSink (bitSinkStep s.sink b)).log (.bitOut b))
  | read (hi : readsItems i = true) (item : BitVec 2) :
      Act i s ((s.withSource (bitSourceStep s.source).2).log (.bitIn item))
  | count {symbol : Nat} (hi : i = .enc symbol) (n : Nat) : Act i s (s.writePending n)
  | code (hi : readsItems i = true) (n : Nat) : Act i s (s.writeCode n)
  | opens {w : Nat} (hi : i = .initEnc w ∨ i = .initDec w) : Act i s (s.withRegs (s.regs.opened w))
  | mode {m : Mode} (hi : WritesMode i m) : Act i s (s.writeMode m)

/-- Any number of actions of the command `i`. -/
def Acts (i : Instr) : State → State → Prop := Relation.ReflTransGen (Act i)

theorem Act.acts {i : Instr} {s t : State} (h : Act i s t) : Acts i s t := .single h

theorem Acts.refl (i : Instr) (s : State) : Acts i s s := Relation.ReflTransGen.refl

theorem Acts.trans {i : Instr} {s t u : State} (h : Acts i s t) (k : Acts i t u) : Acts i s u :=
  Relation.ReflTransGen.trans h k

/-- What every action keeps, any number of them keep. -/
theorem Acts.keeps {i : Instr} {α : Type} {f : State → α} (hact : ∀ {s t}, Act i s t → f t = f s) {s t : State}
    (h : Acts i s t) : f t = f s := by
  induction h with
  | refl => rfl
  | tail _ hlast ih => exact (hact hlast).trans ih

/-! ## What the actions leave alone -/

section
variable {i : Instr} {s t : State}

/-- ENC and DEC never write MODE. -/
theorem Acts.mode_eq (hi : ∀ m, ¬ WritesMode i m) (h : Acts i s t) : t.regs.mode = s.regs.mode :=
  h.keeps (f := fun u => u.regs.mode) fun ha => by
    cases ha with
    | mode hm => exact absurd hm (hi _)
    | _ => rfl

theorem Acts.width_eq (hi : (∀ w, i ≠ .initEnc w) ∧ ∀ w, i ≠ .initDec w) (h : Acts i s t) :
    t.regs.width = s.regs.width :=
  h.keeps (f := fun u => u.regs.width) fun ha => by
    cases ha with
    | opens hw => exact (hw.elim (hi.1 _) (hi.2 _)).elim
    | _ => rfl

theorem Acts.interval_eq (hi : (∀ w, i ≠ .initEnc w) ∧ ∀ w, i ≠ .initDec w) (hq : queriesTable i = false)
    (h : Acts i s t) : t.regs.low = s.regs.low ∧ t.regs.high = s.regs.high := by
  have hpair := h.keeps (f := fun u => (u.regs.low, u.regs.high)) fun ha => by
    cases ha with
    | opens hw => exact (hw.elim (hi.1 _) (hi.2 _)).elim
    | narrow hn => exact absurd hn (by simp [hq])
    | _ => rfl
  exact Prod.mk.inj hpair

theorem Acts.pending_eq (hi : (∀ w, i ≠ .initEnc w) ∧ ∀ w, i ≠ .initDec w) (henc : ∀ symbol, i ≠ .enc symbol)
    (h : Acts i s t) : t.regs.pending = s.regs.pending :=
  h.keeps (f := fun u => u.regs.pending) fun ha => by
    cases ha with
    | opens hw => exact (hw.elim (hi.1 _) (hi.2 _)).elim
    | count hc => exact absurd hc (henc _)
    | _ => rfl

theorem Acts.code_eq (hi : (∀ w, i ≠ .initEnc w) ∧ ∀ w, i ≠ .initDec w) (hr : readsItems i = false)
    (h : Acts i s t) : t.regs.code = s.regs.code :=
  h.keeps (f := fun u => u.regs.code) fun ha => by
    cases ha with
    | opens hw => exact (hw.elim (hi.1 _) (hi.2 _)).elim
    | code hc => exact absurd hc (by simp [hr])
    | _ => rfl

theorem Acts.sink_eq (he : emitsBits i = false) (h : Acts i s t) : t.sink = s.sink :=
  h.keeps fun ha => by
    cases ha with
    | emit hb => exact absurd hb (by simp [he])
    | _ => rfl

theorem Acts.source_eq (hr : readsItems i = false) (h : Acts i s t) : t.source = s.source :=
  h.keeps fun ha => by
    cases ha with
    | read hb => exact absurd hb (by simp [hr])
    | _ => rfl

theorem queriesIn_append (es es' : List PortEvent) : queriesIn (es ++ es') = queriesIn es ++ queriesIn es' :=
  List.filterMap_append

theorem Acts.queriesIn_eq (hq : queriesTable i = false) (h : Acts i s t) : queriesIn t.trace = queriesIn s.trace :=
  h.keeps (f := fun u => queriesIn u.trace) fun ha => by
    cases ha with
    | ask hb => exact absurd hb (by simp [hq])
    | emit => exact (queriesIn_append _ _).trans (List.append_nil _)
    | read => exact (queriesIn_append _ _).trans (List.append_nil _)
    | _ => rfl

/-- NOP, INIT.ENC and CLOSE have no right to a port. -/
theorem Acts.noPortEvent (hq : queriesTable i = false) (hp : usesPorts i = false) (h : Acts i s t) :
    NoPortEvent s t := by
  obtain ⟨he, hr⟩ := Bool.or_eq_false_iff.mp hp
  refine ⟨h.source_eq hr, h.sink_eq he, ?_, ?_⟩
  · exact h.keeps fun ha => by
      cases ha with
      | spend hb => exact absurd hb (by simp [hp])
      | _ => rfl
  · exact h.keeps fun ha => by
      cases ha with
      | ask hb => exact absurd hb (by simp [hq])
      | emit hb => exact absurd hb (by simp [he])
      | read hb => exact absurd hb (by simp [hr])
      | _ => rfl

/-- Partners that complete every transfer go on doing so (70_reset_and_hazards.md R321). -/
theorem Acts.partnerLimit_none (h : Acts i s t) (hs : s.partnerLimit = none) : t.partnerLimit = none := by
  induction h with
  | refl => exact hs
  | tail _ hlast ih =>
    cases hlast with
    | spend _ hn => rw [ih] at hn; cases hn
    | _ => exact ih

end

/-! ## Parts of a command, by their actions -/

/-- The part `f` of the command `i` performs actions of `i` from `s` on, raises no error but one of `i`'s, waits only at
a transfer its partner does not complete, and breaks the contract only if `judges` allows it. -/
def Performs (i : Instr) (judges : Prop) (s : State) (f : Flow) : Prop :=
  f.Sat { go := Acts i s
          raise := fun e u => Acts i s u ∧ e ∈ errorsOf i
          wait := fun u => Acts i s u ∧ u.partnerLimit = some 0
          broken := fun u => Acts i s u ∧ judges
          endless := Acts i s }

section
variable {i : Instr} {judges : Prop} {s t : State} {f : Flow}

theorem Performs.after (h : Acts i s t) (hf : Performs i judges t f) : Performs i judges s f :=
  Flow.Sat.mono hf (fun _ => h.trans) (fun _ _ hr => ⟨h.trans hr.1, hr.2⟩) (fun _ hr => ⟨h.trans hr.1, hr.2⟩)
    (fun _ hr => ⟨h.trans hr.1, hr.2⟩) (fun _ => h.trans)

theorem Performs.andThen {k : State → Flow} (hf : Performs i judges s f)
    (hk : ∀ u, Acts i s u → Performs i judges u (k u)) : Performs i judges s (f.andThen k) := by
  cases f with
  | go u => exact .after hf (hk u hf)
  | raise e u => exact hf
  | wait u => exact hf
  | broken u => exact hf
  | endless u => exact hf

theorem Performs.go (h : Acts i s t) : Performs i judges s (.go t) := h

theorem check_performs {b : Bool} {e : Status} (he : e ∈ errorsOf i) : Performs i judges s (check b e s) := by
  rcases check_cases b e s with ⟨-, h⟩ | ⟨-, h⟩ <;> rw [h]
  · exact .refl i s
  · exact ⟨.refl i s, he⟩

theorem judgeContract_performs {b : Bool} (hb : b = false → judges) : Performs i judges s (judgeContract b s) := by
  rcases judgeContract_cases b s with ⟨-, h⟩ | ⟨hfalse, h⟩ <;> rw [h]
  · exact .refl i s
  · exact ⟨.refl i s, hb hfalse⟩

/-- A transfer is made, by actions of the command, or waited for. -/
theorem transfer_performs {k : State → Flow} (hi : usesPorts i = true)
    (hk : ∀ u, Acts i s u → Performs i judges s (k u)) : Performs i judges s (transfer s k) := by
  rcases transfer_cases s k with ⟨hzero, h⟩ | ⟨-, h⟩ | ⟨n, hn, h⟩ <;> rw [h]
  · exact ⟨.refl i s, hzero⟩
  · exact hk s (.refl i s)
  · exact hk _ (Act.spend hi hn).acts

theorem bitOut_performs (hi : emitsBits i = true) (b : Bit) : Performs i judges s (bitOut b s) :=
  transfer_performs (by rw [usesPorts, hi, Bool.true_or]) fun u hu => .go (hu.trans (Act.emit hi b).acts)

theorem readCodeBit_performs {k : Bit → State → Flow} (hi : readsItems i = true)
    (hk : ∀ b u, Acts i s u → Performs i judges u (k b u)) : Performs i judges s (readCodeBit s k) :=
  transfer_performs (by rw [usesPorts, hi, Bool.or_true]) fun u hu =>
    have hread := hu.trans (Act.read hi (bitSourceStep u.source).1).acts
    .after hread (hk _ _ hread)

end

/-! ## ENC and DEC -/

/-- The mode in which ENC and DEC run their UPDATE (43_session_control.md R252). -/
inductive CodesIn : Instr → Mode → Prop
  | enc (symbol : Nat) : CodesIn (.enc symbol) .enc
  | dec : CodesIn .dec .dec

section
variable {i : Instr} {judges : Prop} {s t : State}

theorem CodesIn.queriesTable_eq {m : Mode} (h : CodesIn i m) : queriesTable i = true := by cases h <;> rfl

theorem CodesIn.usesPorts_eq {m : Mode} (h : CodesIn i m) : usesPorts i = true := by cases h <;> rfl

theorem CodesIn.mem_errorsOf {m : Mode} (h : CodesIn i m) {e : Status}
    (he : e ∈ [Status.internalFault, .totalTooLarge, .zeroFrequency]) : e ∈ errorsOf i := by
  have hdec : ∀ e ∈ [Status.internalFault, .totalTooLarge, .zeroFrequency], e ∈ errorsOf .dec := by decide
  cases h with
  | enc symbol => exact List.mem_append_left [.underflowOverflow] (hdec e he)
  | dec => exact hdec e he

theorem CodesIn.acts (h : CodesIn i s.regs.mode) (ha : Acts i s t) : CodesIn i t.regs.mode := by
  have hmode : t.regs.mode = s.regs.mode := ha.mode_eq fun m hm => by cases hm <;> cases h
  rwa [hmode]

theorem tableQuery_performs {q : Query} {k : Word → State → Flow} (hi : CodesIn i s.regs.mode)
    (hk : ∀ a u, CodesIn i u.regs.mode → Performs i judges u (k a u)) : Performs i judges s (tableQuery q s k) :=
  transfer_performs hi.usesPorts_eq fun u hu =>
    have hask := hu.trans (Act.ask hi.queriesTable_eq q (tableAgentStep u.table q.kind q.index)).acts
    .after hask (hk _ _ (hi.acts hask))

theorem updateArguments_performs (hi : CodesIn i s.regs.mode) : Performs i judges s (updateArguments s) :=
  (check_performs (hi.mem_errorsOf (by decide))).andThen fun _ _ => check_performs (hi.mem_errorsOf (by decide))

theorem updateNarrow_acts (hi : CodesIn i s.regs.mode) : Acts i s (updateNarrow s) :=
  (Act.narrow hi.queriesTable_eq _).acts

theorem emitPending_performs (hi : emitsBits i = true) (n : Nat) (b : Bit) :
    ∀ s, Performs i judges s (emitPending n b s) := by
  induction n with
  | zero => exact fun s => .refl i s
  | succ n ih =>
    intro s
    exact (Performs.after (Act.note _).acts (bitOut_performs hi b)).andThen fun u _ => ih u

theorem encEmission_performs (symbol n : Nat) (s : State) :
    Performs (.enc symbol) judges s (encEmission n s) :=
  (Performs.after (Act.note _).acts (emitPending_performs rfl _ _ _)).andThen fun _ _ =>
    .go ((Act.count rfl 0).acts.trans (Act.note _).acts)

theorem shiftHook_performs (hi : CodesIn i s.regs.mode) : Performs i judges s (shiftHook s) := by
  unfold shiftHook
  generalize s.regs.mode = m at hi
  cases hi with
  | enc symbol => exact (bitOut_performs rfl _).andThen fun u _ => encEmission_performs symbol _ u
  | dec => exact readCodeBit_performs rfl fun _ _ _ => .go (Act.code rfl _).acts

theorem underflowHook_performs (hi : CodesIn i s.regs.mode) : Performs i judges s (underflowHook s) := by
  unfold underflowHook
  generalize s.regs.mode = m at hi
  cases hi with
  | enc symbol =>
    exact (check_performs (by simp [errorsOf])).andThen fun _ _ => .go (Act.count rfl _).acts
  | dec => exact readCodeBit_performs rfl fun _ _ _ => .go (Act.code rfl _).acts

theorem renormLoop_performs (n : Nat) : ∀ {s}, CodesIn i s.regs.mode → Performs i judges s (renormLoop n s) := by
  induction n with
  | zero => intro s _; unfold renormLoop; split <;> exact .refl i s
  | succ n ih =>
    intro s hi
    unfold renormLoop
    split
    · exact (shiftHook_performs hi).andThen fun u hu =>
        have hshift : Acts i u (renormShift u) := (Act.narrow hi.queriesTable_eq _).acts
        .after hshift (ih (hi.acts (hu.trans hshift)))
    · exact .refl i s

theorem underflowLoop_performs (n : Nat) :
    ∀ {s}, CodesIn i s.regs.mode → Performs i judges s (underflowLoop n s) := by
  induction n with
  | zero => intro s _; unfold underflowLoop; split <;> exact .refl i s
  | succ n ih =>
    intro s hi
    unfold underflowLoop
    split
    · exact (underflowHook_performs hi).andThen fun u hu =>
        have hshift : Acts i u (underflowShift u) := (Act.narrow hi.queriesTable_eq _).acts
        .after hshift (ih (hi.acts (hu.trans hshift)))
    · exact .refl i s

/-- The E1/E2 loop as it is entered by ENC and DEC, or resumed in the pending bits of an ENC. -/
theorem updateRenorm_performs (hi : CodesIn i s.regs.mode)
    (hp : s.hidden.phase = .pendingEmission → s.regs.mode = .enc) :
    Performs i judges s (updateRenorm s) := by
  unfold updateRenorm
  split
  · next hphase =>
    have hi' := hi
    rw [hp hphase] at hi
    cases hi with
    | enc symbol =>
      exact (encEmission_performs symbol _ s).andThen fun u hu =>
        have hshift : Acts (.enc symbol) u (renormShift u) := (Act.narrow rfl _).acts
        .after hshift (renormLoop_performs _ (hi'.acts (hu.trans hshift)))
  · exact renormLoop_performs _ hi

theorem searchLoop_performs (n : Nat) : ∀ {s}, CodesIn i s.regs.mode → Performs i judges s (searchLoop n s) := by
  induction n with
  | zero => intro s _; unfold searchLoop; split <;> exact .refl i s
  | succ n ih =>
    intro s hi
    unfold searchLoop
    split
    · exact .after (Act.note _).acts (tableQuery_performs hi fun _ _ hu => .after (Act.note _).acts (ih hu))
    · exact .refl i s

theorem Acts.enterPhase (i : Instr) (s : State) (p : Phase) : Acts i s (s.enterPhase p) := (Act.note _).acts

/-- A stage of ENC or DEC performs the command's actions when it is run in its phase and in the command's mode. -/
def StagePerforms (i : Instr) (judges : Prop) (g : Stage) : Prop :=
  ∀ s, CodesIn i s.regs.mode → s.hidden.phase = g.phase → Performs i judges s (g.run s)

theorem runStages_performs {stages : List Stage} (h : ∀ g ∈ stages, StagePerforms i judges g) :
    ∀ {s}, CodesIn i s.regs.mode → Performs i judges s (runStages stages s) := by
  induction stages with
  | nil => exact fun {s} _ => .refl i s
  | cons g rest ih =>
    intro s hi
    have hg := h g (List.mem_cons_self ..) (s.enterPhase g.phase) hi rfl
    exact (Performs.after (.enterPhase i s g.phase) hg).andThen fun u hu =>
      ih (fun g' hg => h g' (List.mem_cons_of_mem _ hg)) (hi.acts hu)

theorem updateQueryHigh_performs (symbol : State → Word) (hi : CodesIn i s.regs.mode) :
    Performs i judges s (updateQueryHigh symbol s) := by
  refine tableQuery_performs hi fun h u hu => ?_
  let v := u.withHidden { u.hidden with high := h }
  exact .after (t := v) (Act.note _).acts ((updateArguments_performs (s := v) hu).andThen fun _ hargs =>
    .go (updateNarrow_acts (CodesIn.acts (s := v) hu hargs)))

/-- UPDATE after its entry check judges no contract. -/
theorem updateStages_tail_performs (symbol : State → Word) :
    ∀ g ∈ (updateStages symbol).tail, StagePerforms i judges g := by
  intro g hg s hi hphase
  simp only [updateStages, List.tail_cons, List.mem_cons, List.not_mem_nil, or_false] at hg
  rcases hg with rfl | rfl | rfl | rfl | rfl
  · exact tableQuery_performs hi fun _ _ _ => .go (Act.note _).acts
  · exact tableQuery_performs hi fun _ _ _ => .go (Act.note _).acts
  · exact updateQueryHigh_performs symbol hi
  · exact updateRenorm_performs hi fun h => absurd (hphase.symm.trans h) (by decide)
  · exact underflowLoop_performs _ hi

theorem updateEntry_performs (symbol : State → Word) (hj : judges) :
    StagePerforms i judges ⟨.updateEntry, updateEntry symbol⟩ :=
  fun _ hi _ => (check_performs (hi.mem_errorsOf (by decide))).andThen fun _ _ => judgeContract_performs fun _ => hj

theorem updateStages_performs (symbol : State → Word) (hj : judges) :
    ∀ g ∈ updateStages symbol, StagePerforms i judges g :=
  List.forall_mem_cons.mpr ⟨updateEntry_performs symbol hj, updateStages_tail_performs symbol⟩

/-- The stages of DEC between its pre-check and its UPDATE (42_decoder.md R213 to R217). -/
def searchStages : List Stage :=
  [ ⟨.decTotal, decTotal⟩,
    ⟨.searchLimit, decLimit⟩,
    ⟨.search, decSearch⟩,
    ⟨.containLow, decContainLow⟩,
    ⟨.containHigh, decContainHigh⟩ ]

theorem decStages_eq : decStages =
    ⟨.checking, decCheck⟩ :: (searchStages ++ (updateStages decodedIndex ++ [⟨.responding, decPostCheck⟩])) := rfl

theorem decTotal_performs (hi : CodesIn .dec s.regs.mode) : Performs .dec judges s (decTotal s) := by
  have hlarge : Status.totalTooLarge ∈ errorsOf .dec := by decide
  have hzero : Status.zeroFrequency ∈ errorsOf .dec := by decide
  have hfault : Status.internalFault ∈ errorsOf .dec := by decide
  refine tableQuery_performs hi fun t u _ => ?_
  exact .after (t := u.withHidden { u.hidden with total := t }) (Act.note _).acts
    (((check_performs hlarge).andThen fun _ _ => check_performs hzero).andThen fun _ _ =>
      .after (Act.note _).acts (check_performs hfault))

theorem searchStages_performs : ∀ g ∈ searchStages, StagePerforms .dec judges g := by
  intro g hg s hi _
  simp only [searchStages, List.mem_cons, List.not_mem_nil, or_false] at hg
  rcases hg with rfl | rfl | rfl | rfl | rfl
  · exact decTotal_performs hi
  · exact tableQuery_performs hi fun _ _ _ => .go (Act.note _).acts
  · exact (searchLoop_performs _ hi).andThen fun _ _ =>
      (check_performs (by decide)).andThen fun _ _ => .go (Act.note _).acts
  · exact tableQuery_performs hi fun _ _ _ => .go (Act.note _).acts
  · exact tableQuery_performs hi fun _ _ _ => .after (Act.note _).acts (check_performs (by decide))

theorem decPostCheck_performs : StagePerforms .dec judges ⟨.responding, decPostCheck⟩ :=
  fun _ _ _ => check_performs (by decide)

theorem requireMode_performs {m : Mode} {s : State} (h1 : Status.sessionAborted ∈ errorsOf i)
    (h2 : Status.sequenceError ∈ errorsOf i) : Performs i judges s (requireMode m s) := by
  rcases requireMode_cases m s with ⟨-, h⟩ | ⟨-, -, h⟩ | ⟨-, -, h⟩ <;> rw [h]
  · exact ⟨.refl i s, h1⟩
  · exact .refl i s
  · exact ⟨.refl i s, h2⟩

/-- After a passed mode check a coding command runs in its mode. -/
theorem requireMode_andThen_performs {m : Mode} {k : State → Flow} (hi : CodesIn i m)
    (hk : s.regs.mode = m → Performs i judges s (k s)) : Performs i judges s ((requireMode m s).andThen k) := by
  have hrefuse : .sessionAborted ∈ errorsOf i ∧ .sequenceError ∈ errorsOf i := by cases hi <;> simp [errorsOf]
  rcases requireMode_cases m s with ⟨-, h⟩ | ⟨-, hm, h⟩ | ⟨-, -, h⟩ <;> rw [h]
  · exact ⟨.refl i s, hrefuse.1⟩
  · exact hk hm
  · exact ⟨.refl i s, hrefuse.2⟩

/-- ENC and DEC after their first stage. -/
theorem exec_tail_performs (hi : CodesIn i s.regs.mode) (hj : judges) :
    Performs i judges s (runStages (stagesOf i).tail s) := by
  generalize hm : s.regs.mode = m at hi
  have hi' : CodesIn i s.regs.mode := hm ▸ hi
  cases hi with
  | enc symbol => exact runStages_performs (updateStages_performs _ hj) hi'
  | dec =>
    refine runStages_performs (List.forall_mem_append.mpr ⟨searchStages_performs, ?_⟩) hi'
    exact List.forall_mem_append.mpr
      ⟨updateStages_performs decodedIndex hj, List.forall_mem_singleton.mpr decPostCheck_performs⟩

end

/-! ## Every command -/

theorem readInitial_performs (w n : Nat) : ∀ s, Performs (.initDec w) judges s (readInitial n s) := by
  induction n with
  | zero => exact fun s => .refl _ s
  | succ n ih =>
    intro s
    exact readCodeBit_performs rfl fun _ u _ =>
      .after ((Act.code rfl _).acts.trans (Act.note _).acts) (ih _)

/-- An INIT goes on after its width check if the width is legal (30_encoding.md R114). -/
theorem legalWidth_andThen_performs {i : Instr} {w : Nat} {s : State} {k : State → Flow}
    (hi : i = .initEnc w ∨ i = .initDec w) (hk : legalWidth w = true → Performs i judges s (k s)) :
    Performs i judges s ((check (legalWidth w) .domainError s).andThen k) := by
  rcases check_cases (legalWidth w) .domainError s with ⟨hw, h⟩ | ⟨hw, h⟩ <;> rw [h]
  · exact hk hw
  · exact ⟨.refl i s, by rcases hi with rfl | rfl <;> simp [errorsOf, hw]⟩

/-- Every command performs its own actions, from its acceptance on; ENC and DEC alone judge the contract. -/
theorem runStages_stagesOf_performs (i : Instr) (s : State) (hj : queriesTable i = true → judges) :
    Performs i judges s (runStages (stagesOf i) s) := by
  have hentry (p : Phase) : Acts i s (s.enterPhase p) := .enterPhase i s p
  cases i with
  | nop => exact .refl _ s
  | initEnc w =>
    refine .after (hentry .checking) (.andThen (legalWidth_andThen_performs (.inl rfl) fun hw => ?_)
      fun u _ => .refl _ u)
    exact .go (.trans (Act.opens (w := w) (.inl rfl)).acts (Act.mode (.initEnc hw)).acts)
  | initDec w =>
    refine .after (hentry .checking) ?_
    show Performs _ _ _ ((Flow.andThen _ _).andThen _)
    rw [Flow.andThen_assoc]
    refine legalWidth_andThen_performs (.inr rfl) fun hw => ?_
    let u := s.enterPhase .checking
    let v := (u.withRegs (u.regs.opened w)).withHidden { u.hidden with initBits := 0 }
    have hread : Performs (.initDec w) judges (v.enterPhase .initialRead) (initDecRead w (v.enterPhase .initialRead)) :=
      readInitial_performs w _ _
    have hrest : Performs (.initDec w) judges v (runStages (initDecStages w).tail v) :=
      .after (.enterPhase _ v .initialRead) (hread.andThen fun x _ =>
        .go (.trans (.enterPhase _ x .responding) (Act.mode (.initDec hw)).acts))
    exact .after (t := v) (.trans (Act.opens (w := w) (.inr rfl)).acts (Act.note _).acts) hrest
  | enc symbol =>
    refine .after (hentry .checking) (requireMode_andThen_performs (.enc symbol) fun hm => ?_)
    exact exec_tail_performs (s := s.enterPhase .checking) (i := .enc symbol) (hm ▸ .enc symbol) (hj rfl)
  | dec =>
    refine .after (hentry .checking) ?_
    show Performs _ _ _ (((requireMode .dec (s.enterPhase .checking)).andThen _).andThen _)
    rw [Flow.andThen_assoc]
    refine (requireMode_andThen_performs .dec fun hm => ?_)
    refine .andThen (.andThen (check_performs (by decide)) fun u _ => judgeContract_performs fun _ => hj rfl)
      fun u hu => ?_
    exact exec_tail_performs (i := .dec) (CodesIn.acts (s := s.enterPhase .checking) (hm ▸ .dec) hu) (hj rfl)
  | fin =>
    refine .after (hentry .checking) (.andThen (requireMode_performs (by simp [errorsOf]) (by simp [errorsOf]))
      fun u _ => .after (.enterPhase _ u .finalBit) (.andThen (bitOut_performs rfl true) fun v _ => ?_))
    exact .go (.trans (.enterPhase _ v .responding) (Act.mode .fin).acts)
  | close => exact .go (.trans (hentry .responding) (Act.mode .close).acts)

/-- How a command ends when no UNDEFINED_TABLE is recorded: after actions of its own it has responded, OK or with an
error of its own, or it waits at a transfer that its partner does not complete. -/
theorem exec_acts {i : Instr} {s t : State} (h : exec i s = .next t) (hu : t.undefinedTable = false) :
    (∃ u, Acts i (accept (some i) s) u ∧ t = respond .ok (resultOf i u) u)
      ∨ (∃ e u, Acts i (accept (some i) s) u ∧ e ∈ errorsOf i ∧ t = raiseError e u)
      ∨ (Acts i (accept (some i) s) t ∧ t.partnerLimit = some 0) := by
  have hp := runStages_stagesOf_performs (judges := True) i (accept (some i) s) fun _ => trivial
  rcases exec_next h with ⟨u, -, hf, rfl⟩ | ⟨e, u, -, hf, rfl⟩ | ⟨-, hf⟩ | ⟨u, -, -, rfl⟩
  · rw [hf] at hp
    exact .inl ⟨u, hp, rfl⟩
  · rw [hf] at hp
    exact .inr (.inl ⟨e, u, hp.1, hp.2, rfl⟩)
  · rw [hf] at hp
    exact .inr (.inr hp)
  · exact absurd hu (by simp)

/-! ## O34: one response, or a wait -/

section
variable {i : Instr} {s t : State}

theorem Acts.ports_eq (h : Acts i s t) :
    t.regs.busy = s.regs.busy ∧ t.current = s.current ∧ t.response = s.response := by
  have htriple := h.keeps (f := fun u => (u.regs.busy, u.current, u.response)) fun ha => by cases ha <;> rfl
  simpa only [Prod.mk.injEq] using htriple

/-- Which commands raise which error (60_exceptions.md R271 to R278). -/
theorem errorsOf_commands {e : Status} (he : e ∈ errorsOf i) :
    (e = .domainError → ∃ w, i = .initEnc w ∨ i = .initDec w)
      ∧ (e = .totalTooLarge ∨ e = .zeroFrequency ∨ e = .internalFault → (∃ symbol, i = .enc symbol) ∨ i = .dec)
      ∧ (e = .underflowOverflow → ∃ symbol, i = .enc symbol) ∧ e ≠ .illegalCommand
      ∧ (e = .sequenceError ∨ e = .sessionAborted → (∃ symbol, i = .enc symbol) ∨ i = .dec ∨ i = .fin) := by
  cases i with
  | nop => cases he
  | close => cases he
  | initEnc w => cases hw : legalWidth w <;> simp_all [errorsOf]
  | initDec w => cases hw : legalWidth w <;> simp_all [errorsOf]
  | enc symbol => cases e <;> simp_all [errorsOf]
  | dec => cases e <;> simp_all [errorsOf]
  | fin => cases e <;> simp_all [errorsOf]

theorem resultOf_eq_zero (hi : i ≠ .dec) (u : State) : resultOf i u = 0 := by
  cases i with
  | dec => exact absurd rfl hi
  | _ => rfl

end

/-- Settles O34: a command ends by `respond`, by `raiseError` with one of its errors, or at a transfer. -/
theorem commandRespondsOnceOrWaits : Obligations.CommandRespondsOnceOrWaits := by
  intro i s t hr h hu
  rcases exec_acts h hu with ⟨u, ha, rfl⟩ | ⟨e, u, ha, he, rfl⟩ | ⟨ha, hp⟩
  · refine .inl ⟨.ok, resultOf i u, respond_responded _ _ ha.ports_eq.1, fun hi => ?_, nofun, nofun, nofun, nofun,
      nofun⟩
    exact resultOf_eq_zero (hi.resolve_left (absurd rfl)) u
  · exact .inl ⟨e, 0, raiseError_responded ha.ports_eq.1, fun _ => rfl, errorsOf_commands he⟩
  · obtain ⟨hbusy, hcurrent, hresponse⟩ := ha.ports_eq
    exact .inr ⟨⟨hcurrent, hresponse.trans hr, hbusy⟩, hp⟩

/-! ## O35: what is left alone -/

/-- The end of a command writes MODE and LAST_STATUS of the coding registers, and moves nothing. -/
structure Closes (u t : State) : Prop where
  width : t.regs.width = u.regs.width
  low : t.regs.low = u.regs.low
  high : t.regs.high = u.regs.high
  pending : t.regs.pending = u.regs.pending
  code : t.regs.code = u.regs.code
  source : t.source = u.source
  sink : t.sink = u.sink
  partnerLimit : t.partnerLimit = u.partnerLimit
  trace : t.trace = u.trace

theorem exec_closes {i : Instr} {s t : State} (h : exec i s = .next t) (hu : t.undefinedTable = false) :
    ∃ u, Acts i (accept (some i) s) u ∧ Closes u t := by
  rcases exec_acts h hu with ⟨u, ha, rfl⟩ | ⟨e, u, ha, -, rfl⟩ | ⟨ha, -⟩
  · exact ⟨u, ha, rfl, rfl, rfl, rfl, rfl, rfl, rfl, rfl, rfl⟩
  · exact ⟨u, ha, rfl, rfl, rfl, rfl, rfl, rfl, rfl, rfl, rfl⟩
  · exact ⟨t, ha, rfl, rfl, rfl, rfl, rfl, rfl, rfl, rfl, rfl⟩

/-- The surroundings, and the direction in which the streams and the trace go. -/
theorem exec_surroundings {i : Instr} {s t : State} (h : exec i s = .next t) (hu : t.undefinedTable = false) :
    SameSurroundings s t ∧ s.sink <+: t.sink ∧ t.source <:+ s.source ∧ s.trace <+: t.trace := by
  rcases exec_next h with ⟨u, hk, -, rfl⟩ | ⟨e, u, hk, -, rfl⟩ | ⟨hk, -⟩ | ⟨u, -, -, rfl⟩
  · exact ⟨⟨hk.build, hk.resetAsserted, hk.table, hk.commands, hk.schedule, hk.undefinedTable⟩, hk.sink, hk.source,
      hk.trace⟩
  · exact ⟨⟨hk.build, hk.resetAsserted, hk.table, hk.commands, hk.schedule, hk.undefinedTable⟩, hk.sink, hk.source,
      hk.trace⟩
  · exact ⟨⟨hk.build, hk.resetAsserted, hk.table, hk.commands, hk.schedule, hk.undefinedTable⟩, hk.sink, hk.source,
      hk.trace⟩
  · exact absurd hu (by simp)

/-- Settles O35: each clause names rights that the command does not have. -/
theorem commandsLeaveTheRestAlone : Obligations.CommandsLeaveTheRestAlone := by
  intro i s t h hu
  obtain ⟨u, ha, hc⟩ := exec_closes h hu
  obtain ⟨hsame, hsink, hsource, htrace⟩ := exec_surroundings h hu
  refine ⟨hsame, hsink, hsource, htrace, fun he hd => ?width, fun hi => ?quiet, fun hi => ?encCode,
    fun hi => ?decPending, fun he hf => ?sink, fun hd hdec => ?source, fun he hdec => ?queries, fun hi => ?noPort⟩
  case width =>
    have hwidth := ha.width_eq ⟨he, hd⟩
    exact hc.width.trans hwidth
  case quiet =>
    have hinit : (∀ w, i ≠ .initEnc w) ∧ ∀ w, i ≠ .initDec w := by
      rcases hi with rfl | rfl | rfl <;> exact ⟨nofun, nofun⟩
    have hrights : queriesTable i = false ∧ readsItems i = false ∧ ∀ symbol, i ≠ .enc symbol := by
      rcases hi with rfl | rfl | rfl <;> exact ⟨rfl, rfl, nofun⟩
    obtain ⟨hq, hr, henc⟩ := hrights
    obtain ⟨hlow, hhigh⟩ := ha.interval_eq hinit hq
    have hpending := ha.pending_eq hinit henc
    have hcode := ha.code_eq hinit hr
    exact ⟨hc.low.trans hlow, hc.high.trans hhigh, hc.pending.trans hpending, hc.code.trans hcode⟩
  case encCode =>
    obtain ⟨symbol, rfl⟩ := hi
    have hcode := ha.code_eq (i := .enc symbol) ⟨nofun, nofun⟩ rfl
    exact hc.code.trans hcode
  case decPending =>
    subst hi
    have hpending := ha.pending_eq (i := .dec) ⟨nofun, nofun⟩ nofun
    exact hc.pending.trans hpending
  case sink =>
    have hright : emitsBits i = false := by
      cases i with
      | enc symbol => exact absurd rfl (he symbol)
      | fin => exact absurd rfl hf
      | _ => rfl
    have hsame := ha.sink_eq hright
    exact hc.sink.trans hsame
  case source =>
    have hright : readsItems i = false := by
      cases i with
      | initDec w => exact absurd rfl (hd w)
      | dec => exact absurd rfl hdec
      | _ => rfl
    have hsame := ha.source_eq hright
    exact hc.source.trans hsame
  case queries =>
    have hright : queriesTable i = false := by
      rw [Bool.eq_false_iff, Ne, queriesTable_iff]
      exact fun h => h.elim (fun ⟨symbol, h⟩ => he symbol h) hdec
    have hsame := ha.queriesIn_eq hright
    exact (congrArg queriesIn hc.trace).trans hsame
  case noPort =>
    have hrights : queriesTable i = false ∧ usesPorts i = false := by
      rcases hi with rfl | rfl | ⟨w, rfl⟩ <;> exact ⟨rfl, rfl⟩
    have hnone := ha.noPortEvent hrights.1 hrights.2
    exact ⟨hc.source.trans hnone.source, hc.sink.trans hnone.sink, hc.partnerLimit.trans hnone.partnerLimit,
      hc.trace.trans hnone.trace⟩

/-! ## O32: the moves of MODE -/

/-- On its way a command writes MODE at most as its rule says. -/
theorem Acts.mode_cases {i : Instr} {s t : State} (h : Acts i s t) :
    t.regs.mode = s.regs.mode ∨ WritesMode i t.regs.mode := by
  induction h with
  | refl => exact .inl rfl
  | tail _ hlast ih =>
    cases hlast with
    | mode hm => exact .inr hm
    | _ => exact ih

/-- A coding command in another mode than its own is refused, and MODE stays (60_exceptions.md R277, R278). -/
theorem NeedsMode.mode_of_refused {i : Instr} {m : Mode} (hi : NeedsMode i m) {s t : State} (hm : s.regs.mode ≠ m)
    (h : exec i s = .next t) : t.regs.mode = s.regs.mode := by
  by_cases ha : s.regs.mode = .aborted
  · rw [hi.exec_of_raise s _ (requireMode_sessionAborted (by exact ha))] at h
    cases h
    rfl
  · rw [hi.exec_of_raise s _ (requireMode_sequenceError (by exact ha) (by exact hm))] at h
    cases h
    rfl

theorem legalWidth_of_domainError {i : Instr} {w : Nat} (hi : i = .initEnc w ∨ i = .initDec w)
    (he : .domainError ∈ errorsOf i) : legalWidth w = false := by
  rcases hi with rfl | rfl <;> cases hw : legalWidth w <;> simp_all [errorsOf]

/-- MODE at the end of a command: as it was, as the command's rule writes it, or as its error does (R270). -/
theorem exec_mode_cases {i : Instr} {s t : State} (h : exec i s = .next t) (hu : t.undefinedTable = false) :
    t.regs.mode = s.regs.mode ∨ WritesMode i t.regs.mode
      ∨ ∃ e ∈ errorsOf i, t.regs.lastStatus = e ∧ (e = .domainError ∧ t.regs.mode = .idle
          ∨ (e = .internalFault ∨ e = .underflowOverflow) ∧ t.regs.mode = .aborted) := by
  rcases exec_acts h hu with ⟨u, ha, rfl⟩ | ⟨e, u, ha, he, rfl⟩ | ⟨ha, -⟩
  · exact ha.mode_cases.imp_right .inl
  · cases e with
    | domainError => exact .inr (.inr ⟨_, he, rfl, .inl ⟨rfl, rfl⟩⟩)
    | internalFault => exact .inr (.inr ⟨_, he, rfl, .inr ⟨.inl rfl, rfl⟩⟩)
    | underflowOverflow => exact .inr (.inr ⟨_, he, rfl, .inr ⟨.inr rfl, rfl⟩⟩)
    | _ => exact ha.mode_cases.imp_right .inl
  · exact ha.mode_cases.imp_right .inl

/-- Settles O32: a coding command that is not refused is in its mode, and MODE moves by the action of the command or by
its error. -/
theorem modeMovesOnlyAsTabled : Obligations.ModeMovesOnlyAsTabled := by
  intro i s t h hu
  by_cases hrefused : ∃ m, NeedsMode i m ∧ s.regs.mode ≠ m
  · obtain ⟨m, hi, hm⟩ := hrefused
    exact .inl (hi.mode_of_refused hm h)
  have hmode {m : Mode} (hi : NeedsMode i m) : s.regs.mode = m := by
    by_contra hm
    exact hrefused ⟨m, hi, hm⟩
  rcases exec_mode_cases h hu with hsame | hwrites | ⟨e, he, hlast, ⟨rfl, hidle⟩ | ⟨hfatal, haborted⟩⟩
  · exact .inl hsame
  · generalize t.regs.mode = m at hwrites
    cases hwrites with
    | initEnc hw => exact .inr (.inl ⟨_, rfl, (if_pos hw).symm⟩)
    | initDec hw => exact .inr (.inr (.inl ⟨_, rfl, (if_pos hw).symm⟩))
    | close => exact .inr (.inr (.inr (.inl ⟨rfl, rfl⟩)))
    | fin => exact .inr (.inr (.inr (.inr (.inl ⟨rfl, hmode .fin, rfl⟩))))
  · obtain ⟨w, hi⟩ := (errorsOf_commands he).1 rfl
    have hw {m : Mode} : t.regs.mode = if legalWidth w then m else .idle :=
      hidle.trans (if_neg (Bool.eq_false_iff.mp (legalWidth_of_domainError hi he))).symm
    exact .inr (hi.imp (fun hi => ⟨w, hi, hw⟩) fun hi => .inl ⟨w, hi, hw⟩)
  · obtain ⟨-, hcoding, hoverflow, -⟩ := errorsOf_commands he
    have hi : (∃ symbol, i = .enc symbol) ∨ i = .dec ∧ e = .internalFault := by
      rcases hfatal with rfl | rfl
      · exact (hcoding (.inr (.inr rfl))).imp_right fun hi => ⟨hi, rfl⟩
      · exact .inl (hoverflow rfl)
    rcases hi with ⟨symbol, rfl⟩ | ⟨rfl, rfl⟩
    · exact .inr (.inr (.inr (.inr (.inr (.inl ⟨⟨symbol, rfl⟩, hmode (.enc symbol), haborted, hlast ▸ hfatal⟩)))))
    · exact .inr (.inr (.inr (.inr (.inr (.inr ⟨rfl, hmode .dec, haborted, hlast⟩)))))

end Sys2Proof.Machine

/-! # ENC and DEC whose partners complete every transfer: O40, O41, O43, O46 -/

namespace Sys2Proof.Machine

/-! ## How an ENC ends (41_encoder.md R181, 40_coder_state_machine.md R141, R143) -/

section
variable {s : State} {symbol : Nat}

theorem runStages_of_broken {p : Phase} {run : State → Flow} {rest : List Stage} {s u : State}
    (h : run (s.enterPhase p) = .broken u) : runStages (⟨p, run⟩ :: rest) s = .broken u :=
  congrArg (Flow.andThen · (runStages rest)) h

theorem updateEntry_broken {symbol : State → Word} {s : State} (hok : intervalOk s.w s.interval = true)
    (h : (s.table.conforming && s.table.hasSymbol (symbol s).toNat) = false) : updateEntry symbol s = .broken s := by
  rw [updateEntry, hok, check_true, Flow.andThen_go, h]
  rfl

/-- An ENC that reaches its first query under a broken contract (20_memory.md R83). -/
theorem exec_enc_of_broken_contract (hm : s.regs.mode = .enc) (hok : intervalOk s.w s.interval = true)
    (h : (s.table.conforming && s.table.hasSymbol (symbolIndex symbol).toNat) = false) :
    exec (.enc symbol) s
      = .next (((accept (some (.enc symbol)) s).enterPhase .checking).enterPhase .updateEntry).forget := by
  rw [exec_enc_of_mode hm, updateStages, runStages_of_broken (updateEntry_broken (by exact hok) (by exact h)),
    settle_broken]

/-- The argument of the index queries names the same symbol again, below 2^64. -/
theorem symbolIndex_toNat_self (x : Word) : symbolIndex x.toNat = x :=
  (BitVec.ofNat_toNat ..).trans (BitVec.setWidth_eq _)

/-- Everything an ENC in mode ENC can meet before its loops: a broken interval, a broken contract, arguments that its
checks refuse, or a symbol that can be coded. -/
theorem exec_enc_cases (hm : s.regs.mode = .enc) (hp : s.partnerLimit = none) :
    let a := accept (some (.enc symbol)) s
    exec (.enc symbol) s = .next (raiseError .internalFault (a.enterPhase .updateEntry))
      ∨ (∃ u, exec (.enc symbol) s = .next (State.forget u))
      ∨ (∃ e, e ≠ .ok ∧ exec (.enc symbol) s
          = .next (raiseError e ((a.enterPhase .checking).queried (symbolIndex symbol))))
      ∨ (intervalOk s.w s.interval = true
          ∧ codable s.build s.w s.table (symbolIndex symbol).toNat = true) := by
  intro a
  cases hok : intervalOk s.w s.interval with
  | false => exact .inl (exec_enc_of_broken_interval hm hok)
  | true =>
    refine .inr ?_
    cases hcontract : s.table.conforming && s.table.hasSymbol (symbolIndex symbol).toNat with
    | false => exact .inl ⟨_, exec_enc_of_broken_contract hm hok hcontract⟩
    | true =>
      refine .inr ?_
      obtain ⟨hc, hhas⟩ := Bool.and_eq_true_iff.mp hcontract
      have hs : (symbolIndex symbol).toNat < s.table.symbolLimit.toNat := of_decide_eq_true hhas
      have raised {e : Status} (h : updateArguments ((a.enterPhase .checking).queried (symbolIndex symbol))
          = .raise e ((a.enterPhase .checking).queried (symbolIndex symbol))) :
          exec (.enc symbol) s = .next (raiseError e ((a.enterPhase .checking).queried (symbolIndex symbol))) := by
        rw [exec_enc_of_mode hm]
        refine (congrArg (settle noResult) (runStages_updateStages
          (symbol := fun _ => symbolIndex symbol) (s := a.enterPhase .checking) (fun _ _ => rfl) hp hok hc hs)).trans ?_
        rw [h, Flow.andThen_raise, settle_raise]
      by_cases hlarge : s.table.total.toNat ≤ maxTotal s.build s.w
      · by_cases hzero : s.table.total.toNat = 0 ∨ s.table.low (symbolIndex symbol) = s.table.high (symbolIndex symbol)
        · exact .inl ⟨.zeroFrequency, nofun, raised (updateArguments_raise (.inr ⟨rfl, hlarge, hzero⟩))⟩
        · refine .inr ⟨rfl, codable_iff.mpr ⟨hc, hs, hlarge, ?_⟩⟩
          rw [symbolIndex_toNat_self]
          exact fun h => hzero (.inr h)
      · exact .inl ⟨.totalTooLarge, nofun, raised (updateArguments_raise (.inl ⟨rfl, Nat.lt_of_not_le hlarge⟩))⟩

/-- An ENC of a symbol that can be coded, whatever number above its index stands in the command: `exec_enc_of_codable`
with the symbol and its index apart. -/
theorem exec_enc_of_codable_index {n k1 k3 : Nat} {j1 j3 : Interval} (hx : symbolIndex symbol = symbolIndex n)
    (hm : s.regs.mode = .enc) (hp : s.partnerLimit = none) (hw : 1 ≤ s.w ∧ s.w ≤ 63)
    (hok : intervalOk s.w s.interval = true) (hn : codable s.build s.w s.table n = true)
    (hpending : s.regs.pending ≤ s.build.pendingMax)
    (hrun : UpdateRuns s.w (s.interval.select s.table n) k1 j1 k3 j3) :
    let p := if k1 = 0 then s.regs.pending else 0
    let bits := emittedBits s.w k1 (s.interval.select s.table n) s.regs.pending
    let events := updateQueries s.table (symbolIndex n) ++ bits.map .bitOut
    ∃ h, exec (.enc symbol) s =
      if p + k3 ≤ s.build.pendingMax then
        .next (respond .ok 0 ((accept (some (.enc symbol)) s).moved j3 (p + k3) s.code h s.source bits events))
      else .next (raiseError .underflowOverflow ((accept (some (.enc symbol)) s).moved
        ((Interval.underflowShift s.w)^[s.build.pendingMax - p] j1) s.build.pendingMax s.code h s.source bits
          events)) := by
  intro p bits events
  let u := (accept (some (.enc symbol)) s).enterPhase .checking
  have hi : (u.narrowed n).interval = s.interval.select s.table n := State.narrowed_interval (s := u) hw.2 hok hn
  have hc : (u.narrowed n).code = s.code := State.moved_code _ _ _ _ _ _ _ s.code_lt
  obtain ⟨h, hloops⟩ := encLoops_none (s := u.narrowed n) (j3 := j3) hp hm hw hpending (hi ▸ hrun)
  refine ⟨h, ?_⟩
  rw [exec_enc_of_mode hm, runStages_updateStages_of_codable (s := u) (fun _ _ => hx) hp hok hn, hloops, hi, hc,
    apply_ite (settle noResult), settle_go, settle_raise]
  simp only [State.narrowed, State.moved_moved, List.nil_append]
  rfl

end

/-- The steps of the UPDATE of a codable symbol. -/
theorem updateRuns_of_codable {b : Build} {w : Nat} {i : Interval} {t : Table} {n : Nat} (hw : 1 ≤ w ∧ w ≤ 63)
    (hok : intervalOk w i = true) (hn : codable b w t n = true) :
    ∃ k1 j1 k3 j3, UpdateRuns w (i.select t n) k1 j1 k3 j3 := by
  obtain ⟨-, hle, hhigh⟩ := select_bounds hok hn
  obtain ⟨-, -, hmask, -⟩ := intervalOk_iff.mp hok
  exact updateRuns_exists hw hle (hhigh.trans_lt (le_mask_iff.mp hmask))

/-- Settles O40: the steps are those of the narrowed interval, and the ENC is `exec_enc_of_codable` with room. -/
theorem encodeRunsItsSteps : Obligations.EncodeRunsItsSteps := by
  intro n s hm hw63 hok hp hn hpending T L H
  have hw : 1 ≤ s.w ∧ s.w ≤ 63 := ⟨one_le_of_intervalOk hok, hw63⟩
  obtain ⟨k1, j1, k3, j3, hrun⟩ := updateRuns_of_codable hw hok hn
  obtain ⟨hlow, hhigh⟩ := hrun.settled.fits hw63
  refine ⟨k1, j1, k3, j3, hrun.renorm, hrun.underflow, hrun.steps, hrun.settled.low, hrun.settled.mid,
    hrun.settled.intervalOk hw.1, fun hroom => ?_⟩
  obtain ⟨h, hexec⟩ := exec_enc_of_codable hm hp hw hok hn hpending hrun
  rw [if_pos hroom] at hexec
  exact ⟨_, hexec, respond_responded _ _ rfl, ⟨rfl, rfl, rfl, rfl, rfl, rfl⟩, hm,
    (respond_interval ..).trans (State.moved_interval _ _ _ _ _ _ _ hlow hhigh), rfl, rfl, s.ofNat_code, rfl, rfl,
    (List.append_assoc ..).symm⟩

/-- Settles O41: at most W steps count PENDING up, so there is room for them. -/
theorem encodeCompletes : Obligations.EncodeCompletes := by
  intro n s hm hw63 hok hp hn hpending
  obtain ⟨k1, j1, k3, j3, -, -, hsteps, -, -, hok3, hexec⟩ :=
    encodeRunsItsSteps n s hm hw63 hok hp hn ((Nat.le_add_right _ _).trans hpending)
  have hcount : (if k1 = 0 then s.regs.pending else 0) + k3 ≤ s.regs.pending + s.w := by split <;> omega
  obtain ⟨t, hexec, hresponded, hsame, hmode, hinterval, hpend, hwidth, hcode, hsource, hsink, -⟩ :=
    hexec (hcount.trans hpending)
  exact ⟨t, hexec, hresponded, hsame, hmode, hwidth, hcode, hsource, hsink ▸ List.prefix_append _ _,
    hinterval ▸ hok3, hpend ▸ hcount⟩

/-- One bit a step, and the pending bits at the first of them (41_encoder.md R185). -/
theorem length_emittedBits (w k : Nat) (i : Interval) (p : Nat) :
    (emittedBits w k i p).length = if k = 0 then 0 else k + p := by
  cases k with
  | zero => rfl
  | succ k =>
    rw [emittedBits, List.length_cons, List.length_append, List.length_replicate, length_emittedBits_zero,
      if_neg (Nat.succ_ne_zero k)]
    omega

/-- Settles O43: an ENC that responds OK has passed every check, and its bits are those of its steps. -/
theorem encodeBitCount : Obligations.EncodeBitCount := by
  intro symbol s t hm hw63 hp hpending h hu hlast
  rcases exec_enc_cases (symbol := symbol) hm hp with hcase | ⟨u, hcase⟩ | ⟨e, he, hcase⟩ | ⟨hok, hn⟩
  · rw [hcase] at h
    cases h
    cases hlast
  · rw [hcase] at h
    cases h
    exact absurd hu (by simp)
  · rw [hcase] at h
    cases h
    exact absurd hlast he
  · have hw : 1 ≤ s.w ∧ s.w ≤ 63 := ⟨one_le_of_intervalOk hok, hw63⟩
    have hx := symbolIndex_toNat_self (symbolIndex symbol)
    obtain ⟨k1, j1, k3, j3, hrun⟩ := updateRuns_of_codable hw hok hn
    obtain ⟨hidden, hexec⟩ := exec_enc_of_codable_index hx.symm hm hp hw hok hn hpending hrun
    rw [h] at hexec
    by_cases hroom : (if k1 = 0 then s.regs.pending else 0) + k3 ≤ s.build.pendingMax
    · rw [if_pos hroom] at hexec
      cases hexec
      obtain ⟨hlow, hhigh⟩ := hrun.settled.fits hw63
      have hend := State.moved_interval (accept (some (.enc symbol)) s)
        ((if k1 = 0 then s.regs.pending else 0) + k3) s.code hidden s.source
        (emittedBits s.w k1 (s.interval.select s.table (symbolIndex symbol).toNat) s.regs.pending)
        (updateQueries s.table (symbolIndex (symbolIndex symbol).toNat)
          ++ (emittedBits s.w k1 (s.interval.select s.table (symbolIndex symbol).toNat) s.regs.pending).map .bitOut)
        hlow hhigh
      have hrenorm := hrun.renorm
      rw [Interval.select, hx] at hrenorm
      have hlength := length_emittedBits s.w k1 (s.interval.select s.table (symbolIndex symbol).toNat) s.regs.pending
      refine ⟨k1, j1, k3, _, hrenorm, ?_, hrun.steps, rfl, fun hk => ⟨?_, ?_⟩, fun hk => ⟨?_, ?_⟩⟩
      · rw [respond_interval, hend]
        exact hrun.underflow
      · subst hk
        rfl
      · exact congrArg (· + k3) (if_pos hk)
      · rw [hlength, if_neg (by omega)]
      · exact (congrArg (· + k3) (if_neg (by omega))).trans (Nat.zero_add k3)
    · rw [if_neg hroom] at hexec
      cases hexec
      cases hlast

/-! ## CODE stays in the interval (42_decoder.md R223) -/

/-- An E1/E2 step takes a CODE in the interval into the interval after it, whatever bit it reads. -/
theorem codeOk_codeShift {w : Nat} (hw : 1 ≤ w) {i : Interval} (hle : i.low ≤ i.high) (hh : i.high < fullRange w)
    (hdue : renormDue w i = true) {code : Nat} (hcode : codeOk i code = true) (b : Bit) :
    codeOk (i.renormShift w) (codeShift w code b) = true := by
  have hf := fullRange_eq_two_half hw
  have hb := Bool.toNat_lt b
  obtain ⟨hlow, hhigh⟩ := codeOk_iff.mp hcode
  rw [codeOk_iff, codeShift_eq hw]
  rcases renormShift_spec hw hle hh hdue with ⟨hside, hlow', hhigh'⟩ | ⟨hside, hlow', hhigh'⟩
  · rw [Nat.mod_eq_of_lt (by omega)]
    omega
  · rw [Nat.mod_eq_sub_mod (by omega), Nat.mod_eq_of_lt (by omega)]
    omega

/-- The same for an E3 step. -/
theorem codeOk_codeUnderflow {w : Nat} (hw : 1 ≤ w ∧ w ≤ 63) {i : Interval} (h : Astride w i)
    (hdue : underflowDue w i = true) {code : Nat} (hcode : codeOk i code = true) (b : Bit) :
    codeOk (i.underflowShift w) (codeUnderflow w code b) = true := by
  have hw2 : 2 ≤ w := by
    by_contra hlt
    obtain rfl : w = 1 := by omega
    exact absurd hdue (Bool.eq_false_iff.mp (underflowDue_one i))
  have hb := Bool.toNat_lt b
  obtain ⟨hlow, hhigh⟩ := codeOk_iff.mp hcode
  obtain ⟨hql, hqh⟩ := (underflowDue_iff hw2 (by omega) h.low h.mid h.high).mp hdue
  obtain ⟨hlow', hhigh'⟩ := underflowShift_spec hw2 (by omega) h.low h.mid h.high hdue
  have hspec := codeUnderflow_spec hw2 (hql.trans hlow) (hhigh.trans_lt hqh) b
  rw [codeOk_iff]
  omega

theorem RenormRuns.codeOk_foldl {w k : Nat} (hw : 1 ≤ w) {i j : Interval} (hrun : RenormRuns w i k j)
    (hle : i.low ≤ i.high) (hh : i.high < fullRange w) {code : Nat} (hcode : codeOk i code = true) {bits : List Bit}
    (hbits : bits.length = k) : codeOk j (bits.foldl (codeShift w) code) = true := by
  induction bits generalizing k i code with
  | nil =>
    rcases runsTo_inv hrun with ⟨-, rfl, -⟩ | ⟨n, hk, -⟩
    · exact hcode
    · rw [hk] at hbits
      cases hbits
  | cons b bits ih =>
    rcases runsTo_inv hrun with ⟨hk, -⟩ | ⟨n, hk, hdue, hrest⟩
    · rw [hk] at hbits
      cases hbits
    · obtain ⟨hle', hh', -⟩ := renormShift_keeps hw hle hh hdue
      exact ih hrest hle' hh' (codeOk_codeShift hw hle hh hdue hcode b) (Nat.succ.inj (hbits.trans hk))

theorem UnderflowRuns.codeOk_foldl {w k : Nat} (hw : 1 ≤ w ∧ w ≤ 63) {i j : Interval} (hrun : UnderflowRuns w i k j)
    (h : Astride w i) {code : Nat} (hcode : codeOk i code = true) {bits : List Bit} (hbits : bits.length = k) :
    codeOk j (bits.foldl (codeUnderflow w) code) = true := by
  induction bits generalizing k i code with
  | nil =>
    rcases runsTo_inv hrun with ⟨-, rfl, -⟩ | ⟨n, hk, -⟩
    · exact hcode
    · rw [hk] at hbits
      cases hbits
  | cons b bits ih =>
    rcases runsTo_inv hrun with ⟨hk, -⟩ | ⟨n, hk, hdue, hrest⟩
    · rw [hk] at hbits
      cases hbits
    · exact ih hrest (h.underflowShift hw hdue) (codeOk_codeUnderflow hw h hdue hcode b)
        (Nat.succ.inj (hbits.trans hk))

/-- UPDATE takes a CODE in the narrowed interval into the interval it ends with, whatever bits it reads. -/
theorem UpdateRuns.codeOk_codeAfter {w k1 k3 : Nat} {i j1 j3 : Interval} (hw : 1 ≤ w ∧ w ≤ 63)
    (h : UpdateRuns w i k1 j1 k3 j3) {code : Nat} (hcode : codeOk i code = true) {bits : List Bit}
    (hbits : bits.length = k1 + k3) : codeOk j3 (codeAfter w k1 code bits) = true := by
  have hfirst := h.renorm.codeOk_foldl hw.1 h.ordered h.inside hcode (bits := bits.take k1)
    (by rw [List.length_take, hbits]; omega)
  exact h.underflow.codeOk_foldl hw h.astride hfirst (by rw [List.length_drop, hbits]; omega)

theorem length_bitsRead (n : Nat) (items : List Bit) : (bitsRead n items).length = n := by
  rw [bitsRead, List.length_map, List.length_range]

/-- Narrowing to the sub-interval of a symbol that holds value keeps CODE inside (R217). -/
theorem codeOk_narrow {i : Interval} {code total symLow symHigh : Nat} (hcode : codeOk i code = true)
    (h : codeContained i.range total symLow symHigh (codeOffset i code) = true) :
    codeOk (i.narrow total symLow symHigh) code = true := by
  obtain ⟨hlow, hhigh⟩ := codeOk_iff.mp hcode
  rw [codeContained, Bool.and_eq_true, decide_eq_true_eq, decide_eq_true_eq, codeOffset] at h
  rw [codeOk_iff, Interval.narrow]
  dsimp only
  omega

/-! ## DEC in full (R211 to R224) -/

/-- Settles O46: the symbol found holds value, so CODE is in its sub-interval, and UPDATE keeps it inside. -/
theorem decodeFindsTheSymbol : Obligations.DecodeFindsTheSymbol := by
  intro s hm hw63 hok hcode hp hc hlarge hzero T value
  have hw : 1 ≤ s.w ∧ s.w ≤ 63 := ⟨one_le_of_intervalOk hok, hw63⟩
  have hpos : 0 < s.table.total.toNat := Nat.pos_of_ne_zero hzero
  have hvalue : value < T.toNat := inverseValue_lt_total hpos (codeOffset_lt_range hcode)
  obtain ⟨mids, found, h, hfinds, hexec⟩ := exec_dec_of_checks hw hm hok hcode hp hc hlarge hzero
  have hn : codable s.build s.w s.table found = true :=
    codable_iff.mpr ⟨hc, hfinds.hasSymbol, hlarge, fun heq => absurd hfinds.high (Nat.not_lt.mpr (heq ▸ hfinds.low))⟩
  obtain ⟨k1, j1, k3, j3, hrun⟩ := updateRuns_of_codable hw hok hn
  have hselect : codeOk (s.interval.select s.table found) s.code = true :=
    codeOk_narrow hcode ((codeContained_iff hpos).mpr ⟨hfinds.low, hfinds.high⟩)
  have hpost := hrun.codeOk_codeAfter hw hselect (length_bitsRead (k1 + k3) s.source)
  obtain ⟨hlow, hhigh⟩ := hrun.settled.fits hw63
  have hend := (codeOk_iff.mp hpost).2
  let a := accept (some .dec) s
  let t := respond .ok (symbolIndex found) (a.moved j3 s.regs.pending
    (codeAfter s.w k1 s.code (bitsRead (k1 + k3) s.source)) h (s.source.drop (k1 + k3)) []
    (searchQueries s.table mids found ++ (updateQueries s.table (symbolIndex found)
      ++ (itemsRead (k1 + k3) s.source).map .bitIn)))
  have htinterval : t.interval = j3 :=
    (respond_interval ..).trans (State.moved_interval _ _ _ _ _ _ _ hlow hhigh)
  have htcode : t.code = codeAfter s.w k1 s.code (bitsRead (k1 + k3) s.source) :=
    (respond_code ..).trans (State.moved_code _ _ _ _ _ _ _ (by omega))
  refine ⟨t, found, k1, k3, j1, j3, mids, hexec k1 j1 k3 j3 hrun hpost, respond_responded _ _ rfl,
    ⟨rfl, rfl, rfl, rfl, rfl, rfl⟩, hvalue, hfinds.hasSymbol, hfinds.low, hfinds.high, hrun.renorm, hrun.underflow,
    hrun.steps, hm, rfl, rfl, htinterval, htcode, hrun.settled.intervalOk hw.1,
    htcode ▸ hpost, rfl, List.append_nil _, hfinds.search, hfinds.inside, ?_⟩
  show s.trace ++ (searchQueries s.table mids found ++ (updateQueries s.table (symbolIndex found)
    ++ (itemsRead (k1 + k3) s.source).map .bitIn)) = _
  simp only [searchQueries, updateQueries, List.append_assoc, List.cons_append, List.nil_append]
  rfl

end Sys2Proof.Machine

/-! # UPDATE keeps what the invariant asks, wherever it waits (40_coder_state_machine.md R153, 42_decoder.md R223) -/

namespace Sys2Proof.Machine

/-! ## The shared operations, by the conditions on how they end -/

section
variable {s : State} {p : Post}

theorem check_sat {b : Bool} {e : Status} (hgo : b = true → p.go s) (hraise : b = false → p.raise e s) :
    (check b e s).Sat p := by
  rcases check_cases b e s with ⟨hb, h⟩ | ⟨hb, h⟩ <;> rw [h]
  · exact hgo hb
  · exact hraise hb

theorem judgeContract_sat {b : Bool} (hgo : b = true → p.go s) (hbroken : b = false → p.broken s) :
    (judgeContract b s).Sat p := by
  rcases judgeContract_cases b s with ⟨hb, h⟩ | ⟨hb, h⟩ <;> rw [h]
  · exact hgo hb
  · exact hbroken hb

/-- A transfer waits with nothing changed or goes on, the partners' limit alone changed (R321). -/
theorem transfer_sat {k : State → Flow} (hwait : p.wait s) (hgo : ∀ l, (k (s.withLimit l)).Sat p) :
    (transfer s k).Sat p := by
  rcases transfer_cases s k with ⟨-, h⟩ | ⟨-, h⟩ | ⟨n, -, h⟩ <;> rw [h]
  · exact hwait
  · exact hgo s.partnerLimit
  · exact hgo (some n)

theorem tableQuery_sat {q : Query} {k : Word → State → Flow} (hwait : p.wait s)
    (hgo : ∀ l e, (k (tableAgentStep s.table q.kind q.index) ((s.withLimit l).log e)).Sat p) :
    (tableQuery q s k).Sat p :=
  transfer_sat hwait fun l => hgo l _

theorem bitOut_sat {b : Bit} (hwait : p.wait s) (hgo : ∀ l held e, p.go (((s.withLimit l).withSink held).log e)) :
    (bitOut b s).Sat p :=
  transfer_sat hwait fun l => hgo l _ _

theorem readCodeBit_sat {k : Bit → State → Flow} (hwait : p.wait s)
    (hgo : ∀ b l items e, (k b (((s.withLimit l).withSource items).log e)).Sat p) : (readCodeBit s k).Sat p :=
  transfer_sat hwait fun l => hgo _ l _ _

end

/-! ## The registers of a command that codes -/

/-- The registers hold values their width allows: `regsFit` field by field. -/
structure Fits (b : Build) (r : Regs) : Prop where
  width : r.width.toNat ≤ 63
  opened : r.mode = .idle ∨ 1 ≤ r.width.toNat
  low : r.low.toNat ≤ mask r.width.toNat
  high : r.high.toNat ≤ mask r.width.toNat
  code : r.code.toNat ≤ mask r.width.toNat
  pending : r.pending ≤ b.pendingMax

theorem regsFit_iff {b : Build} {r : Regs} : regsFit b r = true ↔ Fits b r := by
  simp only [regsFit, Bool.and_eq_true, Bool.or_eq_true, decide_eq_true_eq, beq_iff_eq]
  exact ⟨fun ⟨⟨⟨⟨⟨h1, h2⟩, h3⟩, h4⟩, h5⟩, h6⟩ => ⟨h1, h2, h3, h4, h5, h6⟩,
    fun ⟨h1, h2, h3, h4, h5, h6⟩ => ⟨⟨⟨⟨⟨h1, h2⟩, h3⟩, h4⟩, h5⟩, h6⟩⟩

/-- The registers of an ENC or a DEC at work: they fit, MODE is its own, and what the other direction uses is 0. -/
structure Coding (m : Mode) (b : Build) (r : Regs) : Prop where
  fits : Fits b r
  mode : r.mode = m
  direction : m = .enc ∧ r.code.toNat = 0 ∨ m = .dec ∧ r.pending = 0

section
variable {m : Mode} {b : Build} {r : Regs}

theorem Coding.width (h : Coding m b r) : 1 ≤ r.width.toNat ∧ r.width.toNat ≤ 63 := by
  refine ⟨h.fits.opened.resolve_left fun hidle => ?_, h.fits.width⟩
  have hm := h.mode.symm.trans hidle
  rcases h.direction with ⟨rfl, -⟩ | ⟨rfl, -⟩ <;> cases hm

theorem Coding.withInterval (h : Coding m b r) {j : Interval} (hle : j.low ≤ j.high)
    (hh : j.high < fullRange r.width.toNat) : Coding m b (r.withInterval j) := by
  have ⟨hlow, hhigh⟩ := Interval.lt_two_pow_of_inside h.width.2 hle hh
  refine ⟨⟨h.fits.width, h.fits.opened, ?_, ?_, h.fits.code, h.fits.pending⟩, h.mode, h.direction⟩
  · rw [Regs.withInterval_low, BitVec.toNat_ofNat, Nat.mod_eq_of_lt hlow]
    exact le_mask_iff.mpr (hle.trans_lt hh)
  · rw [Regs.withInterval_high, BitVec.toNat_ofNat, Nat.mod_eq_of_lt hhigh]
    exact le_mask_iff.mpr hh

theorem Coding.withPending (h : Coding .enc b r) {n : Nat} (hn : n ≤ b.pendingMax) :
    Coding .enc b { r with pending := n } := by
  refine ⟨⟨h.fits.width, h.fits.opened, h.fits.low, h.fits.high, h.fits.code, hn⟩, h.mode, ?_⟩
  exact h.direction.imp_right fun ⟨hm, _⟩ => nomatch hm

theorem Coding.withCode (h : Coding .dec b r) {n : Nat} (hn : n < fullRange r.width.toNat) :
    Coding .dec b { r with code := BitVec.ofNat 63 n } := by
  refine ⟨⟨h.fits.width, h.fits.opened, h.fits.low, h.fits.high, ?_, h.fits.pending⟩, h.mode, ?_⟩
  · exact (BitVec.toNat_ofNat .. ▸ Nat.mod_le ..).trans (le_mask_iff.mpr hn)
  · exact h.direction.imp_left fun ⟨hm, _⟩ => nomatch hm

end

/-- After the error `e` the registers fit, and the session is as it should be. -/
def Recovers (e : Status) (u : State) : Prop :=
  regsFit u.build (raiseError e u).regs = true ∧ sessionOk (raiseError e u) = true

/-- A fatal error leaves no session that could be wrong (60_exceptions.md R280). -/
theorem Coding.recovers {m : Mode} {u : State} {e : Status} (h : Coding m u.build u.regs)
    (he : e = .internalFault ∨ e = .underflowOverflow) : Recovers e u := by
  have haborted : (raiseError e u).regs = { u.regs with mode := .aborted, lastStatus := e } := by
    rcases he with rfl | rfl <;> rfl
  refine ⟨?_, ?_⟩
  · rw [haborted]
    exact regsFit_iff.mpr ⟨h.fits.width, .inr h.width.1, h.fits.low, h.fits.high, h.fits.code, h.fits.pending⟩
  · rw [sessionOk, haborted]
    rfl

/-- An error that writes no coding register leaves the session as it was. -/
theorem recovers_of_unchanged {u : State} {e : Status} (hfit : regsFit u.build u.regs = true)
    (hsession : sessionOk u = true) (he : e.modeAfter u.regs.mode = u.regs.mode) : Recovers e u := by
  have hregs : (raiseError e u).regs = { u.regs with lastStatus := e } := by
    rw [raiseError_regs, he]
  refine ⟨by rw [hregs]; exact hfit, ?_⟩
  rw [sessionOk, State.w, State.interval, State.code, hregs]
  exact hsession

/-! ## What holds at each point of UPDATE -/

/-- What UPDATE and its waits read of the core is the same in both states. -/
structure Alike (s t : State) : Prop where
  build : t.build = s.build
  regs : t.regs = s.regs
  table : t.table = s.table
  symbol : t.hidden.symbol = s.hidden.symbol

/-- UPDATE of `symbol` in the mode `m`, on a contract that is honoured. -/
structure Updating (m : Mode) (symbol : State → Word) (s : State) : Prop where
  coding : Coding m s.build s.regs
  conforming : s.table.conforming = true
  hasSymbol : s.table.hasSymbol (symbol s).toNat = true

/-- UPDATE before its narrowing: the session's invariants hold, and a DEC knows its symbol (R141, 42_decoder.md
R217). -/
structure Asking (m : Mode) (symbol : State → Word) (s : State) : Prop extends Updating m symbol s where
  intervalOk : intervalOk s.w s.interval = true
  inSymbol : m = .dec → codeInSymbol s (symbol s) = true

/-- UPDATE in its loops: the interval is in order, and holds CODE in a DEC (R145, R223). -/
structure Narrowed (m : Mode) (symbol : State → Word) (s : State) : Prop extends Updating m symbol s where
  ordered : s.interval.low ≤ s.interval.high
  code : m = .dec → codeOk s.interval s.code = true

/-- How UPDATE may end: with the session's invariants, with an error after which the session is as it should be, or at
a transfer with what its phase needs; the contract holds, and no loop goes on for ever. -/
def updatePost (m : Mode) (symbol : State → Word) : Post where
  go u := Coding m u.build u.regs ∧ intervalOk u.w u.interval = true
    ∧ (m = .dec → codeOk u.interval u.code = true)
  raise := Recovers
  wait u := Coding m u.build u.regs ∧ updateWaits (symbol u) u = true
  broken _ := False
  endless _ := False

section
variable {m : Mode} {symbol : State → Word} {s t : State}

theorem Alike.refl (s : State) : Alike s s := ⟨rfl, rfl, rfl, rfl⟩

theorem Updating.inside (h : Updating m symbol s) : s.interval.high < fullRange s.w :=
  le_mask_iff.mp h.coding.fits.high

/-- The symbol of an UPDATE is the operand of ENC, or what the search of DEC has found. -/
def FixedSymbol (symbol : State → Word) : Prop := ∀ s t : State, t.hidden.symbol = s.hidden.symbol → symbol t = symbol s

theorem fixedSymbol_operand (n : Nat) : FixedSymbol fun _ => symbolIndex n := fun _ _ _ => rfl

theorem fixedSymbol_decoded : FixedSymbol decodedIndex := fun _ _ h => congrArg symbolIndex h

theorem Updating.width (h : Updating m symbol s) : 1 ≤ s.w ∧ s.w ≤ 63 := h.coding.width

theorem Updating.hasSymbol_of_eq (hsym : FixedSymbol symbol) (h : Updating m symbol s) (htable : t.table = s.table)
    (hsymbol : t.hidden.symbol = s.hidden.symbol) : t.table.hasSymbol (symbol t).toNat = true := by
  rw [htable, hsym s t hsymbol]
  exact h.hasSymbol

theorem Updating.alike (hsym : FixedSymbol symbol) (h : Updating m symbol s) (ha : Alike s t) :
    Updating m symbol t := by
  obtain ⟨hbuild, hregs, htable, hsymbol⟩ := ha
  refine ⟨?_, ?_, h.hasSymbol_of_eq hsym htable hsymbol⟩
  · rw [hbuild, hregs]
    exact h.coding
  · rw [htable]
    exact h.conforming

theorem Alike.interval_eq (ha : Alike s t) : t.interval = s.interval := by rw [State.interval, ha.regs]; rfl
theorem Alike.w_eq (ha : Alike s t) : t.w = s.w := by rw [State.w, ha.regs]; rfl
theorem Alike.code_eq (ha : Alike s t) : t.code = s.code := by rw [State.code, ha.regs]; rfl

theorem Alike.codeInSymbol_eq (ha : Alike s t) (x : Word) : codeInSymbol t x = codeInSymbol s x := by
  simp only [codeInSymbol, tableAccepted, ha.interval_eq, ha.w_eq, ha.code_eq, ha.build, ha.table]

theorem Asking.alike (hsym : FixedSymbol symbol) (h : Asking m symbol s) (ha : Alike s t) : Asking m symbol t := by
  refine ⟨h.toUpdating.alike hsym ha, ?_, fun hm => ?_⟩
  · rw [ha.interval_eq, ha.w_eq]
    exact h.intervalOk
  · rw [ha.codeInSymbol_eq, hsym s t ha.symbol]
    exact h.inSymbol hm

theorem Narrowed.alike (hsym : FixedSymbol symbol) (h : Narrowed m symbol s) (ha : Alike s t) :
    Narrowed m symbol t := by
  refine ⟨h.toUpdating.alike hsym ha, ?_, fun hm => ?_⟩
  · rw [ha.interval_eq]
    exact h.ordered
  · rw [ha.interval_eq, ha.code_eq]
    exact h.code hm

/-! ## The waits, phase by phase -/

theorem Asking.mode_clause (h : Asking m symbol s) :
    (s.regs.mode != .dec || codeInSymbol s (symbol s)) = true := by
  by_cases hm : s.regs.mode = .dec
  · rw [h.inSymbol (h.coding.mode.symm.trans hm), Bool.or_true]
  · rw [bne_iff_ne.mpr hm, Bool.true_or]

theorem Narrowed.mode_clause (h : Narrowed m symbol s) :
    (s.regs.mode != .dec || codeOk s.interval s.code) = true := by
  by_cases hm : s.regs.mode = .dec
  · rw [h.code (h.coding.mode.symm.trans hm), Bool.or_true]
  · rw [bne_iff_ne.mpr hm, Bool.true_or]

theorem Asking.waits_queryTotal (h : Asking m symbol s) (hp : s.hidden.phase = .queryTotal) :
    (updatePost m symbol).wait s := by
  refine ⟨h.coding, ?_⟩
  simp only [updateWaits, hp, h.conforming, h.hasSymbol, h.intervalOk, h.mode_clause, Bool.and_self]

theorem Asking.waits_queryLow (h : Asking m symbol s) (hp : s.hidden.phase = .queryLow)
    (htotal : s.hidden.total = s.table.total) : (updatePost m symbol).wait s := by
  refine ⟨h.coding, ?_⟩
  simp only [updateWaits, hp, h.conforming, h.hasSymbol, h.intervalOk, h.mode_clause, htotal, beq_self_eq_true,
    Bool.and_self]

theorem Asking.waits_queryHigh (h : Asking m symbol s) (hp : s.hidden.phase = .queryHigh)
    (htotal : s.hidden.total = s.table.total) (hlow : s.hidden.low = s.table.low (symbol s)) :
    (updatePost m symbol).wait s := by
  refine ⟨h.coding, ?_⟩
  simp only [updateWaits, hp, h.conforming, h.hasSymbol, h.intervalOk, h.mode_clause, htotal, hlow, beq_self_eq_true,
    Bool.and_self]

theorem Narrowed.waits_renorm (h : Narrowed m symbol s) (hp : s.hidden.phase = .renorm)
    (hdue : renormDue s.w s.interval = true) : (updatePost m symbol).wait s := by
  refine ⟨h.coding, ?_⟩
  simp only [updateWaits, hp, h.conforming, h.hasSymbol, h.mode_clause, hdue, decide_eq_true h.ordered, Bool.and_self]

theorem Narrowed.waits_pendingEmission (h : Narrowed .enc symbol s) (hp : s.hidden.phase = .pendingEmission)
    (hdue : renormDue s.w s.interval = true) (hpos : 1 ≤ s.hidden.pendingLeft)
    (hle : s.hidden.pendingLeft ≤ s.regs.pending) : (updatePost .enc symbol).wait s := by
  refine ⟨h.coding, ?_⟩
  simp only [updateWaits, hp, h.conforming, h.hasSymbol, h.coding.mode, hdue, decide_eq_true h.ordered,
    decide_eq_true hpos, decide_eq_true hle, beq_self_eq_true, Bool.and_self]

theorem Narrowed.waits_underflow (h : Narrowed .dec symbol s) (hp : s.hidden.phase = .underflow)
    (hnot : renormDue s.w s.interval = false) (hdue : underflowDue s.w s.interval = true) :
    (updatePost .dec symbol).wait s := by
  refine ⟨h.coding, ?_⟩
  simp only [updateWaits, hp, h.conforming, h.hasSymbol, h.coding.mode, hnot, hdue, decide_eq_true h.ordered,
    h.code rfl, beq_self_eq_true, Bool.not_false, Bool.and_self]

/-! ## The E1/E2 loop (R146, R147) -/

/-- The bounds that a step of a loop writes. -/
theorem Updating.writeInterval (hsym : FixedSymbol symbol) (h : Updating m symbol s) {j : Interval}
    (hle : j.low ≤ j.high) (hh : j.high < fullRange s.w) :
    Updating m symbol (s.writeInterval j) ∧ (s.writeInterval j).interval = j := by
  have ⟨hlow, hhigh⟩ := Interval.lt_two_pow_of_inside h.width.2 hle hh
  exact ⟨⟨h.coding.withInterval hle hh, h.conforming, h.hasSymbol_of_eq hsym rfl rfl⟩,
    s.writeInterval_interval hlow hhigh⟩

/-- After the hook of an E1/E2 step from `s`: the shift that follows doubles the range and keeps UPDATE in its loops. -/
def renormHookPost (m : Mode) (symbol : State → Word) (s : State) : Post :=
  { updatePost m symbol with
    go := fun u => u.hidden.phase = .renorm ∧ Narrowed m symbol (renormShift u) ∧ (renormShift u).w = s.w
      ∧ (renormShift u).interval = s.interval.renormShift s.w }

/-- The shift after a hook that has written no bound. -/
theorem Narrowed.renormShift (hsym : FixedSymbol symbol) (h : Narrowed m symbol s)
    (hdue : renormDue s.w s.interval = true) {u : State} (hu : Updating m symbol u) (hw : u.w = s.w)
    (hi : u.interval = s.interval)
    (hcode : m = .dec → codeOk (s.interval.renormShift s.w) u.code = true) :
    Narrowed m symbol (renormShift u) ∧ (Machine.renormShift u).w = s.w
      ∧ (Machine.renormShift u).interval = s.interval.renormShift s.w := by
  obtain ⟨hle, hh, -⟩ := renormShift_keeps h.width.1 h.ordered h.inside hdue
  have hshift : Machine.renormShift u = u.writeInterval (s.interval.renormShift s.w) := by
    rw [Machine.renormShift, hi, hw]
  obtain ⟨hupdating, hinterval⟩ := hu.writeInterval hsym hle (hw.symm ▸ hh)
  rw [hshift]
  refine ⟨⟨hupdating, ?_, fun hm => ?_⟩, hw, hinterval⟩
  · rw [hinterval]
    exact hle
  · rw [hinterval]
    exact hcode hm

/-- The pending bits of an encoder step, at whatever transfer they wait (41_encoder.md R182). -/
theorem emitPending_sat (hsym : FixedSymbol symbol) (h : Narrowed .enc symbol s)
    (hdue : renormDue s.w s.interval = true) (b : Bit) : ∀ {n : Nat} {u : State}, Alike s u →
    u.hidden.phase = .pendingEmission → n ≤ s.regs.pending →
    (emitPending n b u).Sat { updatePost .enc symbol with go := Alike s } := by
  intro n
  induction n with
  | zero => exact fun {u} hu _ _ => hu
  | succ n ih =>
    intro u hu hp hn
    have hcount : Alike s (u.withHidden { u.hidden with pendingLeft := n + 1 }) :=
      ⟨hu.build, hu.regs, hu.table, hu.symbol⟩
    refine Flow.sat_andThen (bitOut_sat ?_ fun l held e => ?_)
    · refine (h.alike hsym hcount).waits_pendingEmission hp ?_ (Nat.succ_pos n) ?_
      · rw [hcount.w_eq, hcount.interval_eq]
        exact hdue
      · rw [hcount.regs]
        exact hn
    · exact ih ⟨hu.build, hu.regs, hu.table, hu.symbol⟩ hp (Nat.le_of_succ_le hn)

/-- The emission of an encoder step, from its start or from where it waited. -/
theorem encEmission_sat (hsym : FixedSymbol symbol) (h : Narrowed .enc symbol s)
    (hdue : renormDue s.w s.interval = true) {n : Nat} {u : State} (hu : Alike s u) (hn : n ≤ s.regs.pending) :
    (encEmission n u).Sat (renormHookPost .enc symbol s) := by
  have hentry : Alike s (u.enterPhase .pendingEmission) := ⟨hu.build, hu.regs, hu.table, hu.symbol⟩
  refine Flow.sat_andThen ((emitPending_sat hsym h hdue _ hentry rfl hn).mono (fun v hv => ?_) (fun _ _ => id)
    (fun _ => id) (fun _ => id) fun _ => id)
  have hcoding := (h.alike hsym hv).toUpdating
  exact ⟨rfl, h.renormShift hsym hdue ⟨hcoding.coding.withPending (Nat.zero_le _), hcoding.conforming,
    hcoding.hasSymbol_of_eq hsym rfl rfl⟩ hv.w_eq hv.interval_eq nofun⟩

theorem shiftHook_sat (hsym : FixedSymbol symbol) (h : Narrowed m symbol s) (hp : s.hidden.phase = .renorm)
    (hdue : renormDue s.w s.interval = true) : (shiftHook s).Sat (renormHookPost m symbol s) := by
  have hwait := h.waits_renorm hp hdue
  unfold shiftHook
  rcases h.coding.direction with ⟨rfl, -⟩ | ⟨rfl, -⟩ <;> rw [h.coding.mode]
  · refine Flow.sat_andThen (bitOut_sat hwait fun l held e => ?_)
    exact encEmission_sat hsym h hdue ⟨rfl, rfl, rfl, rfl⟩ le_rfl
  · refine readCodeBit_sat hwait fun b l items e => ⟨hp, ?_⟩
    let u := ((s.withLimit l).withSource items).log e
    have hlt := codeShift_lt h.width.1 s.code b
    have hcode : (u.writeCode (codeShift s.w s.code b)).code = codeShift s.w s.code b :=
      u.writeCode_code (hlt.trans_le (fullRange_le h.width.2))
    refine h.renormShift hsym hdue (u := u.writeCode (codeShift s.w s.code b))
      ⟨h.coding.withCode hlt, h.conforming, h.hasSymbol_of_eq hsym rfl rfl⟩ rfl rfl fun _ => ?_
    rw [hcode]
    exact codeOk_codeShift h.width.1 h.ordered h.inside hdue (h.code rfl) b

/-- More fuel than the range lets the loop take (R148, R151). -/
def Fueled (n : Nat) (s : State) : Prop := fullRange s.w < 2 ^ n * s.interval.range

theorem fueled_loopBound (h : Updating m symbol s) : Fueled loopBound s := by
  have hw : fullRange s.w ≤ 2 ^ 63 := fullRange_le h.width.2
  have hr : 1 ≤ s.interval.range := Nat.succ_pos _
  rw [Fueled, loopBound]
  omega

theorem Updating.range_le (h : Updating m symbol s) : s.interval.range ≤ fullRange s.w := by
  have hh := h.inside
  rw [Interval.range]
  omega

theorem Fueled.pos (h : Updating m symbol s) (hf : Fueled 0 s) : False := by
  have hr := h.range_le
  rw [Fueled] at hf
  omega

theorem Fueled.step {n : Nat} {j : State} (hw : j.w = s.w) (hr : j.interval.range = 2 * s.interval.range)
    (hf : Fueled (n + 1) s) : Fueled n j := by
  rw [Fueled, hw, hr]
  rw [Fueled, Nat.pow_succ] at hf
  calc fullRange s.w < 2 ^ n * 2 * s.interval.range := hf
    _ = 2 ^ n * (2 * s.interval.range) := Nat.mul_assoc ..

/-- After the E1/E2 loop the interval straddles the midpoint (R148). -/
def renormPost (m : Mode) (symbol : State → Word) : Post :=
  { updatePost m symbol with go := fun u => Narrowed m symbol u ∧ Astride u.w u.interval }

theorem astride_of_not_due {w : Nat} (hw : 1 ≤ w) {i : Interval} (hle : i.low ≤ i.high) (hh : i.high < fullRange w)
    (hdue : renormDue w i = false) : Astride w i := by
  have hnot := mt (renormDue_iff hw (hle.trans_lt hh) hh).mpr (Bool.eq_false_iff.mp hdue)
  refine ⟨?_, ?_, hh⟩
  · by_contra hc
    exact hnot ⟨fun _ => (Nat.le_of_not_lt hc).trans hle, fun _ => Nat.le_of_not_lt hc⟩
  · by_contra hc
    exact hnot ⟨fun h => absurd (h.trans hle) hc, fun h => absurd h hc⟩

theorem renormLoop_sat (hsym : FixedSymbol symbol) : ∀ {n : Nat} {s : State}, Narrowed m symbol s →
    s.hidden.phase = .renorm → Fueled n s → (renormLoop n s).Sat (renormPost m symbol) := by
  intro n
  induction n with
  | zero => exact fun h _ hf => (Fueled.pos h.toUpdating hf).elim
  | succ n ih =>
    intro s h hp hf
    unfold renormLoop
    split
    · next hdue =>
      refine Flow.sat_andThen ((shiftHook_sat hsym h hp hdue).mono (fun u hu => ?_) (fun _ _ => id) (fun _ => id)
        (fun _ => id) fun _ => id)
      obtain ⟨hphase, hnarrowed, hw, hinterval⟩ := hu
      refine ih hnarrowed hphase (hf.step hw ?_)
      rw [hinterval]
      exact (renormShift_keeps h.width.1 h.ordered h.inside hdue).2.2
    · next hdue => exact ⟨h, astride_of_not_due h.width.1 h.ordered h.inside (Bool.eq_false_iff.mpr hdue)⟩

/-! ## The E3 loop (R149, R150) -/

theorem Astride.renormDue_eq {w : Nat} (hw : 1 ≤ w) {i : Interval} (h : Astride w i) : renormDue w i = false := by
  have hf := fullRange_eq_two_half hw
  have hlow := h.low
  rw [Bool.eq_false_iff, Ne, renormDue_iff hw (by omega) h.high]
  exact fun hiff => absurd (hiff.mpr h.mid) (Nat.not_le.mpr h.low)

theorem Astride.settled {w : Nat} (hw : 1 ≤ w ∧ w ≤ 63) {i : Interval} (h : Astride w i)
    (hdue : underflowDue w i = false) : Settled w i := by
  refine ⟨h, ?_⟩
  rcases Nat.eq_or_lt_of_le hw.1 with rfl | hw2
  · exact .inr (.inr rfl)
  · have hnot := mt (underflowDue_iff hw2 (by omega) h.low h.mid h.high).mpr (Bool.eq_false_iff.mp hdue)
    omega

/-- After the hook of an E3 step from `s`. -/
def underflowHookPost (m : Mode) (symbol : State → Word) (s : State) : Post :=
  { updatePost m symbol with
    go := fun u => u.hidden.phase = .underflow ∧ Narrowed m symbol (underflowShift u) ∧ (underflowShift u).w = s.w
      ∧ (underflowShift u).interval = s.interval.underflowShift s.w }

theorem Narrowed.underflowShift (hsym : FixedSymbol symbol) (h : Narrowed m symbol s) (ha : Astride s.w s.interval)
    (hdue : underflowDue s.w s.interval = true) {u : State} (hu : Updating m symbol u) (hw : u.w = s.w)
    (hi : u.interval = s.interval)
    (hcode : m = .dec → codeOk (s.interval.underflowShift s.w) u.code = true) :
    Narrowed m symbol (underflowShift u) ∧ (Machine.underflowShift u).w = s.w
      ∧ (Machine.underflowShift u).interval = s.interval.underflowShift s.w := by
  have ha' := ha.underflowShift h.width hdue
  have hle := ha'.low.le.trans ha'.mid
  have hshift : Machine.underflowShift u = u.writeInterval (s.interval.underflowShift s.w) := by
    rw [Machine.underflowShift, hi, hw]
  obtain ⟨hupdating, hinterval⟩ := hu.writeInterval hsym hle (hw.symm ▸ ha'.high)
  rw [hshift]
  refine ⟨⟨hupdating, ?_, fun hm => ?_⟩, hw, hinterval⟩
  · rw [hinterval]
    exact hle
  · rw [hinterval]
    exact hcode hm

theorem underflowHook_sat (hsym : FixedSymbol symbol) (h : Narrowed m symbol s) (ha : Astride s.w s.interval)
    (hp : s.hidden.phase = .underflow) (hdue : underflowDue s.w s.interval = true) :
    (underflowHook s).Sat (underflowHookPost m symbol s) := by
  unfold underflowHook
  rcases h.coding.direction with ⟨rfl, -⟩ | ⟨rfl, -⟩ <;> rw [h.coding.mode]
  · refine Flow.sat_andThen (check_sat (fun hroom => ⟨hp, ?_⟩) fun _ => h.coding.recovers (.inr rfl))
    have hne : s.regs.pending ≠ s.build.pendingMax := bne_iff_ne.mp hroom
    exact h.underflowShift hsym ha hdue (u := s.writePending (s.regs.pending + 1))
      ⟨h.coding.withPending (lt_of_le_of_ne h.coding.fits.pending hne), h.conforming, h.hasSymbol_of_eq hsym rfl rfl⟩
      rfl rfl nofun
  · refine readCodeBit_sat (h.waits_underflow hp (ha.renormDue_eq h.width.1) hdue) fun b l items e => ⟨hp, ?_⟩
    let u := ((s.withLimit l).withSource items).log e
    have hlt := codeUnderflow_lt h.width.1 s.code b
    have hcode : (u.writeCode (codeUnderflow s.w s.code b)).code = codeUnderflow s.w s.code b :=
      u.writeCode_code (hlt.trans_le (fullRange_le h.width.2))
    refine h.underflowShift hsym ha hdue (u := u.writeCode (codeUnderflow s.w s.code b))
      ⟨h.coding.withCode hlt, h.conforming, h.hasSymbol_of_eq hsym rfl rfl⟩ rfl rfl fun _ => ?_
    rw [hcode]
    exact codeOk_codeUnderflow h.width ha hdue (h.code rfl) b

theorem underflowLoop_sat (hsym : FixedSymbol symbol) : ∀ {n : Nat} {s : State}, Narrowed m symbol s →
    Astride s.w s.interval → s.hidden.phase = .underflow → Fueled n s →
    (underflowLoop n s).Sat (updatePost m symbol) := by
  intro n
  induction n with
  | zero => exact fun h _ _ hf => (Fueled.pos h.toUpdating hf).elim
  | succ n ih =>
    intro s h ha hp hf
    unfold underflowLoop
    split
    · next hdue =>
      refine Flow.sat_andThen ((underflowHook_sat hsym h ha hp hdue).mono (fun u hu => ?_) (fun _ _ => id)
        (fun _ => id) (fun _ => id) fun _ => id)
      obtain ⟨hphase, hnarrowed, hw, hinterval⟩ := hu
      refine ih hnarrowed ?_ hphase (hf.step hw ?_)
      · rw [hw, hinterval]
        exact ha.underflowShift h.width hdue
      · have hw2 : 2 ≤ s.w := by
          by_contra hlt
          obtain hone : s.w = 1 := by have := h.width.1; omega
          rw [hone, underflowDue_one] at hdue
          cases hdue
        rw [hinterval]
        exact (underflowShift_keeps hw2 (by have := h.width.2; omega) ha.low ha.mid ha.high hdue).2.2.2
    · next hdue =>
      exact ⟨h.coding, (ha.settled h.width (Bool.eq_false_iff.mpr hdue)).intervalOk h.width.1, h.code⟩

end

end Sys2Proof.Machine

/-! # UPDATE from any of its stages on (40_coder_state_machine.md R140 to R145) -/

namespace Sys2Proof.Machine

section
variable {m : Mode} {symbol : State → Word} {s t : State}

theorem Alike.enterPhase (s : State) (p : Phase) : Alike s (s.enterPhase p) := ⟨rfl, rfl, rfl, rfl⟩

/-- A stage, then the rest of them. -/
theorem runStages_cons_sat {p : Phase} {run : State → Flow} {rest : List Stage} {q : Post}
    (h : (run (s.enterPhase p)).Sat { q with go := fun u => (runStages rest u).Sat q }) :
    (runStages (⟨p, run⟩ :: rest) s).Sat q :=
  Flow.sat_andThen h

/-- The same part, when what may follow it is weaker. -/
theorem Flow.Sat.imp_go {f : Flow} {q : Post} {g g' : State → Prop} (h : f.Sat { q with go := g })
    (hgo : ∀ u, g u → g' u) : f.Sat { q with go := g' } :=
  h.mono hgo (fun _ _ => id) (fun _ => id) (fun _ => id) fun _ => id

/-! ## From the loops on -/

theorem runStages_underflow_sat (hsym : FixedSymbol symbol) (h : Narrowed m symbol s) (ha : Astride s.w s.interval) :
    (runStages [⟨.underflow, updateUnderflow⟩] s).Sat (updatePost m symbol) := by
  have hentry := h.alike hsym (.enterPhase s .underflow)
  have hloop := underflowLoop_sat hsym hentry ha rfl (fueled_loopBound hentry.toUpdating)
  exact runStages_cons_sat (Flow.Sat.imp_go hloop fun _ => id)

theorem renormLoop_andThen_sat (hsym : FixedSymbol symbol) (h : Narrowed m symbol s) (hp : s.hidden.phase = .renorm) :
    ((renormLoop loopBound s).andThen (runStages [⟨.underflow, updateUnderflow⟩])).Sat (updatePost m symbol) :=
  Flow.sat_andThen ((renormLoop_sat hsym h hp (fueled_loopBound h.toUpdating)).imp_go
    fun _ hu => runStages_underflow_sat hsym hu.1 hu.2)

theorem runStages_loopStages_sat (hsym : FixedSymbol symbol) (h : Narrowed m symbol s) :
    (runStages loopStages s).Sat (updatePost m symbol) := by
  have hentry := h.alike hsym (.enterPhase s .renorm)
  exact renormLoop_andThen_sat (s := s.enterPhase .renorm) hsym hentry rfl

/-- An ENC that waited in its pending bits emits the rest of them and shifts. -/
theorem updateRenorm_pendingEmission_sat (hsym : FixedSymbol symbol) (h : Narrowed .enc symbol s)
    (hdue : renormDue s.w s.interval = true) (hp : s.hidden.phase = .pendingEmission)
    (hle : s.hidden.pendingLeft ≤ s.regs.pending) :
    ((updateRenorm s).andThen (runStages [⟨.underflow, updateUnderflow⟩])).Sat (updatePost .enc symbol) := by
  rw [updateRenorm, if_pos hp, Flow.andThen_assoc]
  exact Flow.sat_andThen ((encEmission_sat hsym h hdue (.refl s) hle).imp_go
    fun u hu => renormLoop_andThen_sat hsym hu.2.1 hu.1)

/-! ## The argument checks and the narrowing (R143 to R145) -/

theorem Asking.sessionOk (h : Asking m symbol s) : sessionOk s = true := by
  rw [Machine.sessionOk, h.coding.mode]
  rcases h.coding.direction with ⟨rfl, hcode⟩ | ⟨rfl, hpending⟩
  · simp only [Mode.isOpen, h.intervalOk, State.code, hcode]
    rfl
  · obtain ⟨⟨hcode, -⟩, -⟩ := by simpa only [codeInSymbol, Bool.and_eq_true] using h.inSymbol rfl
    simp only [Mode.isOpen, h.intervalOk, hcode, hpending]
    rfl

/-- The errors of the argument checks leave the session as it was (R272, R273). -/
theorem Asking.recovers (h : Asking m symbol s) {e : Status} (he : e = .totalTooLarge ∨ e = .zeroFrequency) :
    Recovers e s := by
  refine recovers_of_unchanged (regsFit_iff.mpr h.coding.fits) h.sessionOk ?_
  rcases he with rfl | rfl <;> rfl

/-- What the three queries have latched (R142). -/
structure Latched (symbol : State → Word) (s : State) : Prop where
  total : s.hidden.total = s.table.total
  low : s.hidden.low = s.table.low (symbol s)
  high : s.hidden.high = s.table.high (symbol s)

theorem Latched.narrow_eq (h : Latched symbol s) :
    updateNarrow s = s.writeInterval (s.interval.select s.table (symbol s).toNat) := by
  rw [updateNarrow, Interval.select, symbolIndex_toNat_self, h.total, h.low, h.high]

theorem Asking.narrowed (hsym : FixedSymbol symbol) (h : Asking m symbol s) (hl : Latched symbol s)
    (hlarge : totalTooLarge s.build s.w s.hidden.total.toNat = false)
    (hfreq : zeroFrequency s.hidden.total.toNat s.hidden.low.toNat s.hidden.high.toNat = false) :
    Narrowed m symbol (updateNarrow s) := by
  rw [hl.total] at hlarge
  rw [hl.total, hl.low, hl.high, zeroFrequency, Bool.or_eq_false_iff, beq_eq_false_iff_ne, beq_eq_false_iff_ne] at hfreq
  have hn : codable s.build s.w s.table (symbol s).toNat = true := by
    refine codable_iff.mpr ⟨h.conforming, of_decide_eq_true h.hasSymbol,
      Nat.le_of_not_lt (of_decide_eq_false hlarge), ?_⟩
    rw [symbolIndex_toNat_self]
    exact fun heq => hfreq.2 (congrArg BitVec.toNat heq)
  obtain ⟨-, hle, hhigh⟩ := select_bounds h.intervalOk hn
  obtain ⟨hupdating, hinterval⟩ := h.writeInterval hsym hle (hhigh.trans_lt h.inside)
  rw [hl.narrow_eq]
  refine ⟨hupdating, hinterval.symm ▸ hle, fun hm => ?_⟩
  rw [hinterval, Interval.select, symbolIndex_toNat_self]
  have hin := h.inSymbol hm
  simp only [codeInSymbol, Bool.and_eq_true] at hin
  exact codeOk_narrow hin.1.1 hin.2

/-! ## The queries (R142) -/

/-- The answer to TableHigh, the argument checks and the narrowing (R142 to R144). -/
theorem updateQueryHigh_sat (hsym : FixedSymbol symbol) (h : Asking m symbol s) (hp : s.hidden.phase = .queryHigh)
    (htotal : s.hidden.total = s.table.total) (hlow : s.hidden.low = s.table.low (symbol s)) :
    (updateQueryHigh symbol s).Sat { updatePost m symbol with go := Narrowed m symbol } := by
  refine tableQuery_sat (h.waits_queryHigh hp htotal hlow) fun l e => ?_
  let v := (s.withLimit l).log e
  let u := v.withHidden { v.hidden with high := s.table.high (symbol s) }
  have hu : Asking m symbol u := h.alike hsym ⟨rfl, rfl, rfl, rfl⟩
  have hself : symbol u = symbol s := hsym s u rfl
  have hlatched : Latched symbol u :=
    ⟨htotal, hself.symm ▸ hlow, hself.symm ▸ rfl⟩
  refine Flow.sat_andThen (Flow.sat_andThen (check_sat (fun hlarge => ?_) fun _ => hu.recovers (.inl rfl)))
  refine check_sat (fun hfreq => ?_) fun _ => hu.recovers (.inr rfl)
  exact hu.narrowed hsym hlatched (Bool.not_eq_true' _ |>.mp hlarge) (Bool.not_eq_true' _ |>.mp hfreq)

theorem updateQueryLow_sat (hsym : FixedSymbol symbol) (h : Asking m symbol s) (hp : s.hidden.phase = .queryLow)
    (htotal : s.hidden.total = s.table.total) :
    (updateQueryLow symbol s).Sat { updatePost m symbol with
      go := fun u => Asking m symbol u ∧ u.hidden.total = u.table.total ∧ u.hidden.low = u.table.low (symbol u) } := by
  refine tableQuery_sat (h.waits_queryLow hp htotal) fun l e => ?_
  let v := (s.withLimit l).log e
  let u := v.withHidden { v.hidden with low := s.table.low (symbol s) }
  have hself : symbol u = symbol s := hsym s u rfl
  exact ⟨h.alike (t := u) hsym ⟨rfl, rfl, rfl, rfl⟩, htotal, hself.symm ▸ rfl⟩

theorem updateQueryTotal_sat (hsym : FixedSymbol symbol) (h : Asking m symbol s) (hp : s.hidden.phase = .queryTotal) :
    (updateQueryTotal s).Sat { updatePost m symbol with
      go := fun u => Asking m symbol u ∧ u.hidden.total = u.table.total } := by
  refine tableQuery_sat (h.waits_queryTotal hp) fun l e => ?_
  let v := (s.withLimit l).log e
  let u := v.withHidden { v.hidden with total := s.table.total }
  exact ⟨h.alike (t := u) hsym ⟨rfl, rfl, rfl, rfl⟩, rfl⟩

/-! ## What is left of UPDATE from each of its queries on -/

theorem runStages_queryHigh_sat (hsym : FixedSymbol symbol) (h : Asking m symbol s)
    (htotal : s.hidden.total = s.table.total) (hlow : s.hidden.low = s.table.low (symbol s)) :
    (runStages (⟨.queryHigh, updateQueryHigh symbol⟩ :: loopStages) s).Sat (updatePost m symbol) := by
  have hself : symbol (s.enterPhase .queryHigh) = symbol s := hsym _ _ rfl
  exact runStages_cons_sat ((updateQueryHigh_sat hsym (h.alike hsym (.enterPhase s .queryHigh)) rfl htotal
    (hself.symm ▸ hlow)).imp_go fun _ hu => runStages_loopStages_sat hsym hu)

theorem runStages_queryLow_sat (hsym : FixedSymbol symbol) (h : Asking m symbol s)
    (htotal : s.hidden.total = s.table.total) :
    (runStages (⟨.queryLow, updateQueryLow symbol⟩ :: ⟨.queryHigh, updateQueryHigh symbol⟩ :: loopStages) s).Sat
      (updatePost m symbol) :=
  runStages_cons_sat ((updateQueryLow_sat hsym (h.alike hsym (.enterPhase s .queryLow)) rfl htotal).imp_go
    fun _ ⟨hu, ht, hl⟩ => runStages_queryHigh_sat hsym hu ht hl)

theorem runStages_queryTotal_sat (hsym : FixedSymbol symbol) (h : Asking m symbol s) :
    (runStages (updateStages symbol).tail s).Sat (updatePost m symbol) :=
  runStages_cons_sat ((updateQueryTotal_sat hsym (h.alike hsym (.enterPhase s .queryTotal)) rfl).imp_go
    fun _ ⟨hu, ht⟩ => runStages_queryLow_sat hsym hu ht)

end

end Sys2Proof.Machine

/-! # The search of DEC, wherever it waits (42_decoder.md R213 to R217) -/

namespace Sys2Proof.Machine

/-- `s` is a DEC before its UPDATE, its invariants checked and the contract honoured, that `s0` has become by asking. -/
structure Searches (s0 s : State) : Prop where
  build : s.build = s0.build
  regs : s.regs = s0.regs
  table : s.table = s0.table
  conforming : s.table.conforming = true
  intervalOk : intervalOk s.w s.interval = true
  code : codeOk s.interval s.code = true

/-- How a part of DEC before its UPDATE may end: no register has changed, and a wait has what its phase needs. -/
def searchPost (s0 : State) (go : State → Prop) : Post where
  go u := Searches s0 u ∧ go u
  raise e u := Searches s0 u ∧ e ∈ [Status.internalFault, .totalTooLarge, .zeroFrequency]
  wait u := Searches s0 u ∧ decWaits u = true
  broken _ := False
  endless _ := False

section
variable {s0 s t : State}

theorem Searches.asking (h : Searches s0 s) (hbuild : t.build = s.build) (hregs : t.regs = s.regs)
    (htable : t.table = s.table) : Searches s0 t := by
  have hw : t.w = s.w := congrArg (·.width.toNat) hregs
  have hi : t.interval = s.interval := by rw [State.interval, hregs]; rfl
  have hc : t.code = s.code := congrArg (·.code.toNat) hregs
  exact ⟨hbuild.trans h.build, hregs.trans h.regs, htable.trans h.table, htable ▸ h.conforming,
    by rw [hw, hi]; exact h.intervalOk, by rw [hi, hc]; exact h.code⟩

theorem inverseLatched_iff : inverseLatched s = true ↔ tableAccepted s = true ∧ s.hidden.total = s.table.total
    ∧ s.hidden.offset = codeOffset s.interval s.code
    ∧ s.hidden.value = inverseValue s.hidden.offset s.hidden.total.toNat s.interval.range := by
  simp only [inverseLatched, Bool.and_eq_true, beq_iff_eq, and_assoc]

/-- The bounds of the search: the symbol that holds value lies between them (R215). -/
structure SearchBounds (s : State) : Prop where
  inverse : inverseLatched s = true
  ordered : s.hidden.start < s.hidden.stop
  limit : s.hidden.stop ≤ s.table.symbolLimit.toNat
  low : (s.table.low (BitVec.ofNat 64 s.hidden.start)).toNat ≤ s.hidden.value
  high : s.hidden.stop = s.table.symbolLimit.toNat
    ∨ s.hidden.value < (s.table.low (BitVec.ofNat 64 s.hidden.stop)).toNat

/-- DEC is ready for UPDATE: CODE lies in the sub-interval of the symbol found (R217). -/
structure HoldsSymbol (s : State) : Prop where
  hasSymbol : s.table.hasSymbol s.hidden.symbol = true
  inSymbol : codeInSymbol s (decodedIndex s) = true

/-! ## The waits, phase by phase -/

theorem Searches.waits_decTotal (h : Searches s0 s) (hp : s.hidden.phase = .decTotal) : decWaits s = true := by
  simp only [decWaits, hp, h.conforming, h.intervalOk, h.code, Bool.and_self]

theorem Searches.waits_searchLimit (h : Searches s0 s) (hp : s.hidden.phase = .searchLimit)
    (hinverse : inverseLatched s = true) : decWaits s = true := by
  simp only [decWaits, hp, h.conforming, h.intervalOk, h.code, hinverse, Bool.and_self]

theorem Searches.waits_search (h : Searches s0 s) (hp : s.hidden.phase = .search) (hb : SearchBounds s)
    (hmore : searchGoesOn s.hidden.start s.hidden.stop = true) : decWaits s = true := by
  have hhigh : (s.hidden.stop == s.table.symbolLimit.toNat
      || decide (s.hidden.value < (s.table.low (BitVec.ofNat 64 s.hidden.stop)).toNat)) = true := by
    rw [Bool.or_eq_true, beq_iff_eq, decide_eq_true_eq]
    exact hb.high
  simp only [decWaits, hp, h.conforming, h.intervalOk, h.code, hb.inverse, hmore, decide_eq_true hb.limit,
    decide_eq_true hb.low, hhigh, Bool.and_self]

theorem Searches.waits_containLow (h : Searches s0 s) (hp : s.hidden.phase = .containLow)
    (hinverse : inverseLatched s = true) (hfound : symbolFound s = true) : decWaits s = true := by
  simp only [decWaits, hp, h.conforming, h.intervalOk, h.code, hinverse, hfound, Bool.and_self]

theorem Searches.waits_containHigh (h : Searches s0 s) (hp : s.hidden.phase = .containHigh)
    (hinverse : inverseLatched s = true) (hfound : symbolFound s = true)
    (hlow : s.hidden.low = s.table.low (decodedIndex s)) : decWaits s = true := by
  simp only [decWaits, hp, h.conforming, h.intervalOk, h.code, hinverse, hfound, hlow, beq_self_eq_true, Bool.and_self]

/-! ## T, offset and value (R213, R214) -/

theorem Searches.tableAccepted (h : Searches s0 s) (hlarge : totalTooLarge s.build s.w s.table.total.toNat = false)
    (hzero : s.table.total.toNat ≠ 0) : tableAccepted s = true := by
  rw [Machine.tableAccepted, h.conforming, hlarge, bne_iff_ne.mpr hzero]
  rfl

theorem decTotal_sat (h : Searches s0 s) (hp : s.hidden.phase = .decTotal) :
    (decTotal s).Sat (searchPost s0 fun u => inverseLatched u = true) := by
  refine tableQuery_sat ⟨h, h.waits_decTotal hp⟩ fun l e => ?_
  let v := (s.withLimit l).log e
  let u := v.withHidden { v.hidden with total := s.table.total }
  have hu : Searches s0 u := h.asking rfl rfl rfl
  refine Flow.sat_andThen (Flow.sat_andThen (check_sat (fun hlarge => ?_) fun _ => ⟨hu, by decide⟩))
  refine check_sat (fun hzero => ?_) fun _ => ⟨hu, by decide⟩
  refine check_sat (fun _ => ⟨h.asking rfl rfl rfl, ?_⟩) fun _ => ⟨h.asking rfl rfl rfl, by decide⟩
  have haccepted : Machine.tableAccepted u = true :=
    hu.tableAccepted ((Bool.not_eq_true' _).mp hlarge) (bne_iff_ne.mp hzero)
  exact inverseLatched_iff.mpr ⟨haccepted, rfl, rfl, rfl⟩

/-- value < T: no DEC fails its inverse mapping (R214). -/
theorem Searches.value_lt (h : Searches s0 s) (hinverse : inverseLatched s = true) :
    s.hidden.value < s.table.total.toNat := by
  obtain ⟨haccepted, htotal, hoffset, hvalue⟩ := inverseLatched_iff.mp hinverse
  have hpos : s.table.total.toNat ≠ 0 := by
    rw [Machine.tableAccepted, Bool.and_eq_true, bne_iff_ne] at haccepted
    exact haccepted.2
  rw [hvalue, htotal, hoffset]
  exact inverseValue_lt_total (Nat.pos_of_ne_zero hpos) (codeOffset_lt_range h.code)

/-! ## The binary search (R215, R216) -/

theorem decLimit_sat (h : Searches s0 s) (hp : s.hidden.phase = .searchLimit) (hinverse : inverseLatched s = true) :
    (decLimit s).Sat (searchPost s0 SearchBounds) := by
  refine tableQuery_sat ⟨h, h.waits_searchLimit hp hinverse⟩ fun l e => ⟨h.asking rfl rfl rfl, ?_⟩
  have hlimit := (s.table.conforming_iff.mp h.conforming).1
  refine ⟨hinverse, hlimit, le_rfl, ?_, .inl rfl⟩
  exact (congrArg BitVec.toNat (Table.conforming_low_zero h.conforming)).trans_le (Nat.zero_le _)

theorem Hidden.narrowSearch_below {h : Hidden} {a : Word} (ha : h.value < a.toNat) :
    h.narrowSearch a = { h with stop := h.mid } := if_pos ha

theorem Hidden.narrowSearch_above {h : Hidden} {a : Word} (ha : a.toNat ≤ h.value) :
    h.narrowSearch a = { h with start := h.mid } := if_neg (Nat.not_lt.mpr ha)

theorem searchLoop_sat : ∀ {n : Nat} {s : State}, Searches s0 s → s.hidden.phase = .search → SearchBounds s →
    s.hidden.stop - s.hidden.start ≤ 2 ^ n → (searchLoop n s).Sat
      (searchPost s0 fun u => SearchBounds u ∧ searchGoesOn u.hidden.start u.hidden.stop = false) := by
  intro n
  induction n with
  | zero =>
    intro s h _ hb hn
    have hstop : searchGoesOn s.hidden.start s.hidden.stop = false := decide_eq_false (by omega)
    rw [searchLoop, hstop, if_neg Bool.false_ne_true]
    exact ⟨h, hb, hstop⟩
  | succ n ih =>
    intro s h hp hb hn
    unfold searchLoop
    split
    · next hmore =>
      have hlt : s.hidden.start + 1 < s.hidden.stop := of_decide_eq_true hmore
      have hmid : midpoint s.hidden.start s.hidden.stop = (s.hidden.start + s.hidden.stop) / 2 := rfl
      rw [Nat.pow_succ] at hn
      refine tableQuery_sat ⟨h.asking rfl rfl rfl, ?_⟩ fun l e => ?_
      · exact Searches.waits_search (h.asking rfl rfl rfl) hp ⟨hb.inverse, hb.ordered, hb.limit, hb.low, hb.high⟩ hmore
      · let p := s.withHidden { s.hidden with mid := midpoint s.hidden.start s.hidden.stop }
        let v := (p.withLimit l).log e
        let a := s.table.low (BitVec.ofNat 64 (midpoint s.hidden.start s.hidden.stop))
        show (searchLoop n (v.withHidden (v.hidden.narrowSearch a))).Sat _
        rcases Nat.lt_or_ge v.hidden.value a.toNat with hbelow | habove
        · rw [Hidden.narrowSearch_below hbelow]
          refine ih (h.asking rfl rfl rfl) hp ⟨hb.inverse, ?_, ?_, hb.low, .inr hbelow⟩ ?_
          · show s.hidden.start < midpoint s.hidden.start s.hidden.stop
            omega
          · exact hb.limit.trans' (show midpoint s.hidden.start s.hidden.stop ≤ s.hidden.stop by omega)
          · show midpoint s.hidden.start s.hidden.stop - s.hidden.start ≤ 2 ^ n
            omega
        · rw [Hidden.narrowSearch_above habove]
          refine ih (h.asking rfl rfl rfl) hp ⟨hb.inverse, ?_, hb.limit, habove, hb.high⟩ ?_
          · show midpoint s.hidden.start s.hidden.stop < s.hidden.stop
            omega
          · show s.hidden.stop - midpoint s.hidden.start s.hidden.stop ≤ 2 ^ n
            omega
    · next hstop => exact ⟨h, hb, Bool.eq_false_iff.mpr hstop⟩

/-- When the search has ended, `start` is the symbol that holds value. -/
theorem Searches.symbol_of_searched (h : Searches s0 s) (hb : SearchBounds s)
    (hend : s.hidden.start + 1 = s.hidden.stop) : s.table.hasSymbol s.hidden.start = true
      ∧ s.hidden.value < (s.table.high (BitVec.ofNat 64 s.hidden.start)).toNat := by
  have hlimit := hb.limit
  refine ⟨decide_eq_true (by omega), ?_⟩
  rcases Nat.lt_or_ge (s.hidden.start + 1) s.table.symbolLimit.toNat with hlt | hge
  · have hnext : s.hidden.value < (s.table.low (BitVec.ofNat 64 s.hidden.stop)).toNat :=
      hb.high.resolve_left (by omega)
    rwa [Table.conforming_next h.conforming hlt, hend]
  · rw [Table.conforming_last h.conforming (by omega)]
    exact h.value_lt hb.inverse

theorem decSearch_sat (h : Searches s0 s) (hp : s.hidden.phase = .search) (hb : SearchBounds s) :
    (decSearch s).Sat (searchPost s0 fun u => inverseLatched u = true ∧ symbolFound u = true) := by
  have hfuel : s.hidden.stop - s.hidden.start ≤ 2 ^ searchBound := by
    have hlimit := hb.limit
    have h64 := s.table.symbolLimit.isLt
    rw [searchBound]
    omega
  refine Flow.sat_andThen ((searchLoop_sat h hp hb hfuel).mono (fun u hu => ?_) (fun _ _ => id) (fun _ => id)
    (fun _ => id) fun _ => id)
  obtain ⟨hsearches, hbounds, -⟩ := hu
  refine Flow.sat_andThen (check_sat (fun hend => ?_) fun _ => ⟨hsearches, by decide⟩)
  obtain ⟨hhas, hhigh⟩ := hsearches.symbol_of_searched hbounds (beq_iff_eq.mp hend)
  refine ⟨hsearches.asking rfl rfl rfl, hbounds.inverse, ?_⟩
  show (_ && decide _ && decide _) = true
  rw [Bool.and_eq_true, Bool.and_eq_true, decide_eq_true_eq, decide_eq_true_eq]
  exact ⟨⟨hhas, hbounds.low⟩, hhigh⟩

/-! ## The containment check (R217) -/

theorem decContainLow_sat (h : Searches s0 s) (hp : s.hidden.phase = .containLow) (hinverse : inverseLatched s = true)
    (hfound : symbolFound s = true) : (decContainLow s).Sat (searchPost s0 fun u =>
      inverseLatched u = true ∧ symbolFound u = true ∧ u.hidden.low = u.table.low (decodedIndex u)) :=
  tableQuery_sat ⟨h, h.waits_containLow hp hinverse hfound⟩ fun _ _ =>
    ⟨h.asking rfl rfl rfl, hinverse, hfound, rfl⟩

theorem decContainHigh_sat (h : Searches s0 s) (hp : s.hidden.phase = .containHigh)
    (hinverse : inverseLatched s = true) (hfound : symbolFound s = true)
    (hlow : s.hidden.low = s.table.low (decodedIndex s)) : (decContainHigh s).Sat (searchPost s0 HoldsSymbol) := by
  refine tableQuery_sat ⟨h, h.waits_containHigh hp hinverse hfound hlow⟩ fun l e => ?_
  let v := (s.withLimit l).log e
  let u := v.withHidden { v.hidden with high := s.table.high (decodedIndex s) }
  have hu : Searches s0 u := h.asking rfl rfl rfl
  obtain ⟨haccepted, htotal, hoffset, -⟩ := inverseLatched_iff.mp hinverse
  refine check_sat (fun hin => ⟨hu, ?_, ?_⟩) fun _ => ⟨hu, by decide⟩
  · obtain ⟨⟨hhas, -⟩, -⟩ := by simpa only [symbolFound, Bool.and_eq_true] using hfound
    exact hhas
  · have hcontained : codeContained s.interval.range s.hidden.total.toNat s.hidden.low.toNat
        (s.table.high (decodedIndex s)).toNat s.hidden.offset = true := hin
    rw [htotal, hlow, hoffset] at hcontained
    show (codeOk s.interval s.code && Machine.tableAccepted s && codeContained _ _ _ _ _) = true
    rw [h.code, haccepted]
    exact hcontained

/-! ## The stages of the search, from each of them on -/

theorem Searches.enterPhase (h : Searches s0 s) (p : Phase) : Searches s0 (s.enterPhase p) := h.asking rfl rfl rfl

theorem runStages_cons_searchPost {p : Phase} {run : State → Flow} {rest : List Stage} {go go' : State → Prop}
    (h : (run (s.enterPhase p)).Sat (searchPost s0 go))
    (hrest : ∀ u, Searches s0 u → go u → (runStages rest u).Sat (searchPost s0 go')) :
    (runStages (⟨p, run⟩ :: rest) s).Sat (searchPost s0 go') :=
  Flow.sat_andThen (h.mono (fun u hu => hrest u hu.1 hu.2) (fun _ _ => id) (fun _ => id) (fun _ => id) fun _ => id)

theorem runStages_containHigh_sat (h : Searches s0 s) (hinverse : inverseLatched s = true)
    (hfound : symbolFound s = true) (hlow : s.hidden.low = s.table.low (decodedIndex s)) :
    (runStages (stagesFrom .containHigh searchStages) s).Sat (searchPost s0 HoldsSymbol) :=
  runStages_cons_searchPost
    (decContainHigh_sat (s := s.enterPhase .containHigh) (h.enterPhase _) rfl hinverse hfound hlow)
    fun _ hu hholds => ⟨hu, hholds⟩

theorem runStages_containLow_sat (h : Searches s0 s) (hinverse : inverseLatched s = true)
    (hfound : symbolFound s = true) :
    (runStages (stagesFrom .containLow searchStages) s).Sat (searchPost s0 HoldsSymbol) :=
  runStages_cons_searchPost
    (decContainLow_sat (s := s.enterPhase .containLow) (h.enterPhase _) rfl hinverse hfound)
    fun _ hu hfacts => runStages_containHigh_sat hu hfacts.1 hfacts.2.1 hfacts.2.2

theorem SearchBounds.enterPhase (h : SearchBounds s) (p : Phase) : SearchBounds (s.enterPhase p) :=
  ⟨h.inverse, h.ordered, h.limit, h.low, h.high⟩

theorem runStages_search_sat (h : Searches s0 s) (hb : SearchBounds s) :
    (runStages (stagesFrom .search searchStages) s).Sat (searchPost s0 HoldsSymbol) :=
  runStages_cons_searchPost (decSearch_sat (h.enterPhase .search) rfl (hb.enterPhase .search))
    fun _ hu hfacts => runStages_containLow_sat hu hfacts.1 hfacts.2

theorem runStages_searchLimit_sat (h : Searches s0 s) (hinverse : inverseLatched s = true) :
    (runStages (stagesFrom .searchLimit searchStages) s).Sat (searchPost s0 HoldsSymbol) :=
  runStages_cons_searchPost (decLimit_sat (s := s.enterPhase .searchLimit) (h.enterPhase _) rfl hinverse)
    fun _ hu hb => runStages_search_sat hu hb

theorem runStages_searchStages_sat (h : Searches s0 s) :
    (runStages searchStages s).Sat (searchPost s0 HoldsSymbol) :=
  runStages_cons_searchPost (decTotal_sat (h.enterPhase .decTotal) rfl)
    fun _ hu hinverse => runStages_searchLimit_sat hu hinverse

/-- A DEC that waits in its search goes on with what is left of it. -/
theorem Searches.rest_sat (h : Searches s0 s) (hw : decWaits s = true) :
    ∃ g rest, stagesFrom s.hidden.phase searchStages = g :: rest ∧ s.hidden.phase.stage = s.hidden.phase
      ∧ (runStages (g :: rest) s).Sat (searchPost s0 HoldsSymbol) := by
  rw [decWaits, Bool.and_eq_true] at hw
  obtain ⟨-, hphase⟩ := hw
  split at hphase
  · next hp => exact hp ▸ ⟨_, _, rfl, rfl, runStages_searchStages_sat h⟩
  · next hp => exact hp ▸ ⟨_, _, rfl, rfl, runStages_searchLimit_sat h hphase⟩
  · next hp =>
    simp only [Bool.and_eq_true, Bool.or_eq_true, beq_iff_eq, decide_eq_true_eq] at hphase
    obtain ⟨⟨⟨⟨hinverse, hmore⟩, hlimit⟩, hlow⟩, hhigh⟩ := hphase
    have hlt : s.hidden.start + 1 < s.hidden.stop := of_decide_eq_true hmore
    exact hp ▸ ⟨_, _, rfl, rfl, runStages_search_sat h ⟨hinverse, (Nat.lt_succ_self _).trans hlt, hlimit, hlow, hhigh⟩⟩
  · next hp =>
    rw [Bool.and_eq_true] at hphase
    exact hp ▸ ⟨_, _, rfl, rfl, runStages_containLow_sat h hphase.1 hphase.2⟩
  · next hp =>
    rw [Bool.and_eq_true, Bool.and_eq_true, beq_iff_eq] at hphase
    exact hp ▸ ⟨_, _, rfl, rfl, runStages_containHigh_sat h hphase.1.1 hphase.1.2 hphase.2⟩
  · cases hphase

end

end Sys2Proof.Machine

/-! # Every command ends as the invariant asks, from its acceptance and from where it waits (10_state.md R38 to R43) -/

namespace Sys2Proof.Machine

/-- How the command `i` may end: the registers fit, and the session or the wait is as the invariant asks; the contract
is found broken only if `judges` allows it, and no loop goes on for ever. -/
def commandPost (i : Instr) (judges : Prop) : Post where
  go u := regsFit u.build u.regs = true ∧ sessionOk u = true
  raise := Recovers
  wait u := regsFit u.build u.regs = true ∧ waitsOk i u = true
  broken _ := judges
  endless _ := False

/-! ## A command goes on in the stage where it waited -/

section
variable {s : State}

theorem State.enterPhase_self {p : Phase} (h : s.hidden.phase = p) : s.enterPhase p = s := by rw [← h]; rfl

theorem resumeStages_eq {stages rest : List Stage} {g : Stage}
    (h : stagesFrom s.hidden.phase.stage stages = g :: rest) :
    resumeStages stages s = (g.run s).andThen (runStages rest) := by
  rw [resumeStages, h]

theorem runStages_of_phase {g : Stage} (rest : List Stage) (h : s.hidden.phase = g.phase) :
    runStages (g :: rest) s = (g.run s).andThen (runStages rest) := by
  rw [runStages_cons, State.enterPhase_self h]

theorem stagesFrom_phase {p : Phase} {stages rest : List Stage} {g : Stage} (h : stagesFrom p stages = g :: rest) :
    g.phase = p := by
  induction stages with
  | nil => cases h
  | cons g' rest' ih =>
    unfold stagesFrom at h
    split at h
    · next hp =>
      cases h
      exact hp
    · exact ih h

theorem stagesFrom_append {p : Phase} {stages rest : List Stage} {g : Stage} (h : stagesFrom p stages = g :: rest)
    (more : List Stage) : stagesFrom p (stages ++ more) = g :: (rest ++ more) := by
  induction stages with
  | nil => cases h
  | cons g' rest' ih =>
    rw [List.cons_append]
    unfold stagesFrom at h ⊢
    split
    · next hp =>
      rw [if_pos hp] at h
      cases h
      rfl
    · next hp =>
      rw [if_neg hp] at h
      exact ih h

theorem stagesFrom_suffix (p : Phase) (stages : List Stage) : stagesFrom p stages <:+ stages := by
  induction stages with
  | nil => exact List.suffix_rfl
  | cons g rest ih =>
    unfold stagesFrom
    split
    · exact List.suffix_rfl
    · exact ih.trans (List.suffix_cons g rest)

theorem stagesFrom_append_right {p : Phase} {before stages rest : List Stage} {g : Stage}
    (hnodup : ((before ++ stages).map Stage.phase).Nodup) (h : stagesFrom p stages = g :: rest) :
    stagesFrom p (before ++ stages) = g :: rest := by
  induction before with
  | nil => exact h
  | cons g' before ih =>
    obtain ⟨hnot, hrest⟩ := List.nodup_cons.mp hnodup
    have hne : g'.phase ≠ p := fun hp => hnot (hp.trans (stagesFrom_phase h).symm ▸
      List.mem_map_of_mem (List.mem_append_right before
        ((stagesFrom_suffix p stages).subset (h ▸ List.mem_cons_self))))
    rw [List.cons_append, stagesFrom, if_neg hne, ih hrest]

theorem andThen_runStages_append (f : Flow) (rest more : List Stage) :
    f.andThen (runStages (rest ++ more)) = (f.andThen (runStages rest)).andThen (runStages more) := by
  rw [Flow.andThen_assoc]
  exact congrArg f.andThen (funext (runStages_append rest more))

/-- Each stage of a command has a phase of its own. -/
theorem stagesOf_nodup (i : Instr) : ((stagesOf i).map Stage.phase).Nodup := by
  have hdec : (decStages.map Stage.phase).Nodup := by decide
  cases i with
  | nop => exact List.nodup_nil
  | initEnc w => exact List.nodup_singleton _
  | initDec w => exact (show [Phase.checking, .initialRead, .responding].Nodup by decide)
  | enc symbol =>
    exact (show [Phase.checking, .updateEntry, .queryTotal, .queryLow, .queryHigh, .renorm, .underflow].Nodup by decide)
  | dec => exact hdec
  | fin => exact (show [Phase.checking, .finalBit, .responding].Nodup by decide)
  | close => exact List.nodup_singleton _

end

/-! ## UPDATE (40_coder_state_machine.md) -/

section
variable {m : Mode} {symbol : State → Word} {s : State}

theorem Coding.regsFit (h : Coding m s.build s.regs) : regsFit s.build s.regs = true := regsFit_iff.mpr h.fits

/-- UPDATE in full, in an open session: the contract is judged after the entry check (R141; log 6). -/
theorem runStages_updateStages_sat (hsym : FixedSymbol symbol) (hcoding : Coding m s.build s.regs)
    (hok : intervalOk s.w s.interval = true) (hin : m = .dec → codeInSymbol s (symbol s) = true) :
    (runStages (updateStages symbol) s).Sat { updatePost m symbol with
      broken := fun _ => (s.table.conforming && s.table.hasSymbol (symbol s).toNat) = false } := by
  have hself : symbol (s.enterPhase .updateEntry) = symbol s := hsym _ _ rfl
  have hentry : updateEntry symbol (s.enterPhase .updateEntry)
      = judgeContract (s.table.conforming && s.table.hasSymbol (symbol s).toNat) (s.enterPhase .updateEntry) := by
    rw [updateEntry, show intervalOk (s.enterPhase .updateEntry).w (s.enterPhase .updateEntry).interval = true from hok,
      check_true, Flow.andThen_go, hself]
    rfl
  refine runStages_cons_sat (hentry ▸ judgeContract_sat (fun hcontract => ?_) id)
  obtain ⟨hconforming, hhas⟩ := Bool.and_eq_true_iff.mp hcontract
  have hasking : Asking m symbol (s.enterPhase .updateEntry) :=
    ⟨⟨hcoding, hconforming, hself.symm ▸ hhas⟩, hok, fun hm => hself.symm ▸ hin hm⟩
  exact (runStages_queryTotal_sat hsym hasking).mono (fun _ => id) (fun _ _ => id) (fun _ => id) (fun _ => False.elim)
    fun _ => id

/-- An UPDATE that waits goes on with what is left of it. -/
theorem updateWaits_rest_sat (hsym : FixedSymbol symbol) (hcoding : Coding m s.build s.regs)
    (hw : updateWaits (symbol s) s = true) : ∃ g rest, stagesFrom s.hidden.phase.stage (updateStages symbol) = g :: rest
      ∧ ((g.run s).andThen (runStages rest)).Sat (updatePost m symbol) := by
  rw [updateWaits, Bool.and_eq_true, Bool.and_eq_true] at hw
  obtain ⟨⟨hconforming, hhas⟩, hphase⟩ := hw
  have hupdating : Updating m symbol s := ⟨hcoding, hconforming, hhas⟩
  have hclause {b : Bool} (h : (s.regs.mode != .dec || b) = true) (hm : m = .dec) : b = true := by
    rw [hcoding.mode, hm] at h
    exact h
  have resumed {p : Phase} {g : Stage} {rest : List Stage} (hp : s.hidden.phase = p) (hstage : p.stage = p)
      (hfrom : stagesFrom p (updateStages symbol) = g :: rest)
      (hsat : (runStages (g :: rest) s).Sat (updatePost m symbol)) :
      ∃ g rest, stagesFrom s.hidden.phase.stage (updateStages symbol) = g :: rest
        ∧ ((g.run s).andThen (runStages rest)).Sat (updatePost m symbol) := by
    refine ⟨g, rest, by rw [hp, hstage, hfrom], ?_⟩
    rwa [← runStages_of_phase rest (hp.trans (stagesFrom_phase hfrom).symm)]
  split at hphase
  · next hp =>
    rw [Bool.and_eq_true] at hphase
    exact resumed hp rfl rfl (runStages_queryTotal_sat hsym ⟨hupdating, hphase.1, hclause hphase.2⟩)
  · next hp =>
    simp only [Bool.and_eq_true, beq_iff_eq] at hphase
    obtain ⟨⟨hok, hin⟩, htotal⟩ := hphase
    exact resumed hp rfl rfl (runStages_queryLow_sat hsym ⟨hupdating, hok, hclause hin⟩ htotal)
  · next hp =>
    simp only [Bool.and_eq_true, beq_iff_eq] at hphase
    obtain ⟨⟨⟨hok, hin⟩, htotal⟩, hlow⟩ := hphase
    exact resumed hp rfl rfl (runStages_queryHigh_sat hsym ⟨hupdating, hok, hclause hin⟩ htotal hlow)
  · next hp =>
    simp only [Bool.and_eq_true, decide_eq_true_eq] at hphase
    obtain ⟨⟨hle, -⟩, hcode⟩ := hphase
    exact resumed hp rfl rfl (runStages_loopStages_sat hsym ⟨hupdating, hle, hclause hcode⟩)
  · next hp =>
    simp only [Bool.and_eq_true, decide_eq_true_eq, beq_iff_eq] at hphase
    obtain ⟨⟨⟨⟨hle, hdue⟩, henc⟩, -⟩, hcount⟩ := hphase
    obtain rfl : m = .enc := hcoding.mode.symm.trans henc
    exact ⟨_, _, by rw [hp]; rfl, updateRenorm_pendingEmission_sat hsym ⟨hupdating, hle, nofun⟩ hdue hp hcount⟩
  · next hp =>
    simp only [Bool.and_eq_true, Bool.not_eq_true', decide_eq_true_eq, beq_iff_eq] at hphase
    obtain ⟨⟨⟨⟨hle, hnot⟩, -⟩, hdec⟩, hcode⟩ := hphase
    have hastride := astride_of_not_due hupdating.width.1 hle hupdating.inside hnot
    exact resumed hp rfl rfl (runStages_underflow_sat hsym ⟨hupdating, hle, fun _ => hcode⟩ hastride)
  · cases hphase

end

/-! ## ENC and DEC (41_encoder.md R181, 42_decoder.md R211) -/

section
variable {s : State} {f : Flow}

theorem Coding.code_eq_zero (h : Coding .enc s.build s.regs) : s.code = 0 :=
  h.direction.elim (fun hd => hd.2) fun hd => nomatch hd.1

theorem Coding.pending_eq_zero (h : Coding .dec s.build s.regs) : s.regs.pending = 0 :=
  h.direction.elim (fun hd => nomatch hd.1) fun hd => hd.2

theorem Coding.sessionOk_enc (h : Coding .enc s.build s.regs) (hok : intervalOk s.w s.interval = true) :
    sessionOk s = true := by
  rw [sessionOk, h.mode, hok, h.code_eq_zero]
  rfl

theorem Coding.sessionOk_dec (h : Coding .dec s.build s.regs) (hok : intervalOk s.w s.interval = true)
    (hcode : codeOk s.interval s.code = true) : sessionOk s = true := by
  rw [sessionOk, h.mode, hok, hcode, h.pending_eq_zero]
  rfl

/-- An open encoder session, read off the invariant. -/
theorem coding_enc (hm : s.regs.mode = .enc) (hfit : regsFit s.build s.regs = true) (hs : sessionOk s = true) :
    Coding .enc s.build s.regs ∧ intervalOk s.w s.interval = true := by
  rw [sessionOk, hm, Mode.isOpen, Bool.not_true, Bool.false_or, Bool.and_eq_true] at hs
  exact ⟨⟨regsFit_iff.mp hfit, hm, .inl ⟨rfl, beq_iff_eq.mp hs.2⟩⟩, hs.1⟩

/-- An open decoder session, read off the invariant. -/
theorem coding_dec (hm : s.regs.mode = .dec) (hfit : regsFit s.build s.regs = true) (hs : sessionOk s = true) :
    Coding .dec s.build s.regs ∧ intervalOk s.w s.interval = true ∧ codeOk s.interval s.code = true := by
  rw [sessionOk, hm, Mode.isOpen, Bool.not_true, Bool.false_or, Bool.and_eq_true, if_pos rfl, Bool.and_eq_true,
    beq_iff_eq] at hs
  exact ⟨⟨regsFit_iff.mp hfit, hm, .inr ⟨rfl, hs.2.2⟩⟩, hs.1, hs.2.1⟩

theorem requireMode_sat {m : Mode} {p : Post} (hgo : s.regs.mode = m → p.go s)
    (hraise : ∀ e, e = .sessionAborted ∨ e = .sequenceError → p.raise e s) : (requireMode m s).Sat p := by
  rcases requireMode_cases m s with ⟨-, h⟩ | ⟨-, hm, h⟩ | ⟨-, -, h⟩ <;> rw [h]
  · exact hraise _ (.inl rfl)
  · exact hgo hm
  · exact hraise _ (.inr rfl)

/-- A command that its mode refuses leaves the session as it was (60_exceptions.md R277, R278). -/
theorem recovers_of_refused {e : Status} (hfit : regsFit s.build s.regs = true) (hs : sessionOk s = true)
    (he : e = .sessionAborted ∨ e = .sequenceError) : Recovers e s :=
  recovers_of_unchanged hfit hs (by rcases he with rfl | rfl <;> rfl)

theorem Flow.Sat.enc {symbol : Nat} {judges : Prop} {broken : State → Prop}
    (h : f.Sat { updatePost .enc (fun _ => symbolIndex symbol) with broken := broken })
    (hbroken : ∀ u, broken u → judges) : f.Sat (commandPost (.enc symbol) judges) := by
  refine h.mono (fun u hu => ?_) (fun _ _ => id) (fun u hu => ?_) hbroken fun _ => id
  · exact ⟨hu.1.regsFit, hu.1.sessionOk_enc hu.2.1⟩
  · refine ⟨hu.1.regsFit, ?_⟩
    rw [waitsOk, hu.1.mode, hu.1.code_eq_zero, hu.2]
    rfl

theorem runStages_enc_sat (symbol : Nat) (hfit : regsFit s.build s.regs = true) (hs : sessionOk s = true) :
    (runStages (stagesOf (.enc symbol)) s).Sat (commandPost (.enc symbol) True) := by
  refine runStages_cons_sat (requireMode_sat (fun hm => ?_) fun _ =>
    recovers_of_refused (s := s.enterPhase .checking) hfit hs)
  obtain ⟨hcoding, hok⟩ := coding_enc (s := s.enterPhase .checking) hm hfit hs
  exact (runStages_updateStages_sat (fixedSymbol_operand symbol) hcoding hok nofun).enc fun _ _ => trivial

theorem resumeStages_enc_sat {symbol : Nat} (hfit : regsFit s.build s.regs = true)
    (hw : waitsOk (.enc symbol) s = true) :
    (resumeStages (stagesOf (.enc symbol)) s).Sat (commandPost (.enc symbol) False) := by
  rw [waitsOk, Bool.and_eq_true, Bool.and_eq_true, beq_iff_eq, beq_iff_eq] at hw
  obtain ⟨⟨hm, hcode⟩, hupdate⟩ := hw
  have hcoding : Coding .enc s.build s.regs := ⟨regsFit_iff.mp hfit, hm, .inl ⟨rfl, hcode⟩⟩
  obtain ⟨g, rest, hfrom, hsat⟩ := updateWaits_rest_sat (fixedSymbol_operand symbol) hcoding hupdate
  have hstages : stagesFrom s.hidden.phase.stage (stagesOf (.enc symbol)) = g :: rest :=
    stagesFrom_append_right (before := [⟨.checking, requireMode .enc⟩]) (stagesOf_nodup (.enc symbol)) hfrom
  rw [resumeStages_eq hstages]
  exact Flow.Sat.enc (broken := fun _ => False) hsat fun _ => id

/-- UPDATE of the decoded symbol, and the post-check, which no DEC fails (R219, R223). -/
theorem Flow.Sat.dec {judges : Prop} {broken : State → Prop}
    (h : f.Sat { updatePost .dec decodedIndex with broken := broken }) (hbroken : ∀ u, broken u → judges) :
    (f.andThen (runStages [⟨.responding, decPostCheck⟩])).Sat (commandPost .dec judges) := by
  refine Flow.sat_andThen (h.mono (fun u hu => ?_) (fun _ _ => id) (fun u hu => ?_) hbroken fun _ => id)
  · obtain ⟨hcoding, hok, hcode⟩ := hu
    have hcheck : decPostCheck (u.enterPhase .responding) = .go (u.enterPhase .responding) :=
      decPostCheck_go (hcode rfl)
    show (runStages [⟨.responding, decPostCheck⟩] u).Sat _
    rw [runStages_of_go hcheck]
    exact ⟨hcoding.regsFit, hcoding.sessionOk_dec hok (hcode rfl)⟩
  · refine ⟨hu.1.regsFit, ?_⟩
    rw [waitsOk, hu.1.mode, hu.1.pending_eq_zero, hu.2, Bool.or_true]
    rfl

theorem Searches.coding {s0 : State} (h : Searches s0 s) (hcoding : Coding .dec s0.build s0.regs) :
    Coding .dec s.build s.regs := by rw [h.build, h.regs]; exact hcoding

/-- The errors of the search: an INTERNAL_FAULT ends the session, the others leave it as it was. -/
theorem Searches.recovers {s0 : State} {e : Status} (h : Searches s0 s) (hcoding : Coding .dec s0.build s0.regs)
    (he : e ∈ [Status.internalFault, .totalTooLarge, .zeroFrequency]) : Recovers e s := by
  have hc := h.coding hcoding
  have hs := hc.sessionOk_dec h.intervalOk h.code
  simp only [List.mem_cons, List.not_mem_nil, or_false] at he
  rcases he with rfl | rfl | rfl
  · exact hc.recovers (.inl rfl)
  · exact recovers_of_unchanged hc.regsFit hs rfl
  · exact recovers_of_unchanged hc.regsFit hs rfl

theorem Searches.waits {s0 : State} (h : Searches s0 s) (hcoding : Coding .dec s0.build s0.regs)
    (hw : decWaits s = true) : waitsOk .dec s = true := by
  have hc := h.coding hcoding
  rw [waitsOk, hc.mode, hc.pending_eq_zero, hw]
  rfl

theorem Searches.of_decWaits (hw : decWaits s = true) : Searches s s := by
  simp only [decWaits, Bool.and_eq_true] at hw
  obtain ⟨⟨⟨hconforming, hok⟩, hcode⟩, -⟩ := hw
  exact ⟨rfl, rfl, rfl, hconforming, hok, hcode⟩

/-- What is left of DEC after a part of its search. -/
theorem Flow.Sat.search {s0 : State} {judges : Prop} (h : f.Sat (searchPost s0 HoldsSymbol))
    (hcoding : Coding .dec s0.build s0.regs) :
    (f.andThen (runStages (updateStages decodedIndex ++ [⟨.responding, decPostCheck⟩]))).Sat
      (commandPost .dec judges) := by
  refine Flow.sat_andThen (h.mono (fun u hu => ?_) (fun e u hu => ?_) (fun u hu => ?_) (fun _ => False.elim)
    fun _ => id)
  · obtain ⟨hsearches, hholds⟩ := hu
    have hcontract : (u.table.conforming && u.table.hasSymbol (decodedIndex u).toNat) = true := by
      have hlt : u.hidden.symbol < u.table.symbolLimit.toNat := of_decide_eq_true hholds.hasSymbol
      rw [hsearches.conforming, decodedIndex, BitVec.toNat_ofNat, Nat.mod_eq_of_lt (hlt.trans u.table.symbolLimit.isLt)]
      exact hholds.hasSymbol
    show (runStages (updateStages decodedIndex ++ [⟨.responding, decPostCheck⟩]) u).Sat _
    rw [runStages_append]
    refine (runStages_updateStages_sat fixedSymbol_decoded (hsearches.coding hcoding) hsearches.intervalOk
      fun _ => hholds.inSymbol).dec fun _ hbroken => ?_
    rw [hcontract] at hbroken
    cases hbroken
  · exact hu.1.recovers hcoding hu.2
  · exact ⟨(hu.1.coding hcoding).regsFit, hu.1.waits hcoding hu.2⟩

theorem runStages_dec_sat (hfit : regsFit s.build s.regs = true) (hs : sessionOk s = true) :
    (runStages (stagesOf .dec) s).Sat (commandPost .dec True) := by
  have hrefused (e : Status) := recovers_of_refused (s := s.enterPhase .checking) (e := e) hfit hs
  have hcheck : (decCheck (s.enterPhase .checking)).Sat { commandPost .dec True with
      go := fun u => u = s.enterPhase .checking ∧ s.regs.mode = .dec ∧ s.table.conforming = true } := by
    refine Flow.sat_andThen (requireMode_sat (fun hm => ?_) hrefused)
    obtain ⟨hcoding, hok, hcode⟩ := coding_dec (s := s.enterPhase .checking) hm hfit hs
    refine Flow.sat_andThen (check_sat (fun _ => ?_) fun _ => hcoding.recovers (.inl rfl))
    exact judgeContract_sat (fun hconforming => ⟨rfl, hm, hconforming⟩) fun _ => trivial
  rw [stagesOf, decStages_eq]
  refine runStages_cons_sat (hcheck.imp_go ?_)
  rintro u ⟨rfl, hm, hconforming⟩
  obtain ⟨hcoding, hok, hcode⟩ := coding_dec (s := s.enterPhase .checking) hm hfit hs
  rw [runStages_append]
  exact (runStages_searchStages_sat ⟨rfl, rfl, rfl, hconforming, hok, hcode⟩).search hcoding

theorem resumeStages_dec_sat (hfit : regsFit s.build s.regs = true) (hw : waitsOk .dec s = true) :
    (resumeStages (stagesOf .dec) s).Sat (commandPost .dec False) := by
  rw [waitsOk, Bool.and_eq_true, Bool.and_eq_true, Bool.or_eq_true, beq_iff_eq, beq_iff_eq] at hw
  obtain ⟨⟨hm, hpending⟩, hw⟩ := hw
  have hcoding : Coding .dec s.build s.regs := ⟨regsFit_iff.mp hfit, hm, .inr ⟨rfl, hpending⟩⟩
  rcases hw with hsearch | hupdate
  · have hsearches : Searches s s := .of_decWaits hsearch
    obtain ⟨g, rest, hfrom, hstage, hsat⟩ := hsearches.rest_sat hsearch
    have hstages : stagesFrom s.hidden.phase.stage (stagesOf .dec)
        = g :: (rest ++ (updateStages decodedIndex ++ [⟨.responding, decPostCheck⟩])) :=
      stagesFrom_append_right (before := [⟨.checking, decCheck⟩]) (stagesOf_nodup .dec)
        (hstage.symm ▸ stagesFrom_append hfrom _)
    rw [resumeStages_eq hstages, andThen_runStages_append, ← runStages_of_phase rest (stagesFrom_phase hfrom).symm]
    exact hsat.search hcoding
  · obtain ⟨g, rest, hfrom, hsat⟩ := updateWaits_rest_sat fixedSymbol_decoded hcoding hupdate
    have hstages : stagesFrom s.hidden.phase.stage (stagesOf .dec) = g :: (rest ++ [⟨.responding, decPostCheck⟩]) :=
      stagesFrom_append_right (before := ⟨.checking, decCheck⟩ :: searchStages) (stagesOf_nodup .dec)
        (stagesFrom_append hfrom _)
    rw [resumeStages_eq hstages, andThen_runStages_append]
    exact Flow.Sat.dec (broken := fun _ => False) hsat fun _ => id

end

end Sys2Proof.Machine

/-! # INIT.DEC and the commands without UPDATE, as the invariant asks (42_decoder.md R210, 41_encoder.md R180, R184) -/

namespace Sys2Proof.Machine

/-! ## INIT.DEC (42_decoder.md R210) -/

section
variable {s : State} {w : Nat} {judges : Prop}

/-- INIT.DEC at work: the registers of the new session, CODE filled with `initBits` bits. -/
structure Filling (w : Nat) (s : State) : Prop where
  legal : 1 ≤ w ∧ w ≤ 63
  width : s.w = w
  interval : s.interval = ⟨0, mask w⟩
  pending : s.regs.pending = 0
  count : s.hidden.initBits ≤ w
  code : s.code < 2 ^ s.hidden.initBits

theorem Filling.code_lt (h : Filling w s) : s.code < fullRange w :=
  h.code.trans_le (Nat.pow_le_pow_right (by decide) h.count)

theorem Filling.regsFit (h : Filling w s) : regsFit s.build s.regs = true := by
  have hw : s.regs.width.toNat = w := h.width
  have hi : s.regs.low.toNat = 0 ∧ s.regs.high.toNat = mask w := Interval.mk.inj h.interval
  refine regsFit_iff.mpr ⟨hw ▸ h.legal.2, .inr (hw ▸ h.legal.1), ?_, ?_, ?_, ?_⟩
  · rw [hi.1]
    exact Nat.zero_le _
  · rw [hi.2, hw]
  · rw [hw]
    exact le_mask_iff.mpr h.code_lt
  · rw [h.pending]
    exact Nat.zero_le _

theorem Filling.waits (h : Filling w s) (hp : s.hidden.phase = .initialRead) (hmore : s.hidden.initBits < w) :
    waitsOk (.initDec w) s = true := by
  simp only [waitsOk, hp, legalWidth_iff.mpr h.legal, h.width, h.interval, h.pending, decide_eq_true hmore,
    decide_eq_true h.code, beq_self_eq_true, Bool.and_self]

theorem Filling.of_waits (hw : waitsOk (.initDec w) s = true) :
    Filling w s ∧ s.hidden.phase = .initialRead ∧ s.hidden.initBits < w := by
  simp only [waitsOk, Bool.and_eq_true, beq_iff_eq, decide_eq_true_eq, legalWidth_iff] at hw
  obtain ⟨⟨⟨⟨⟨⟨hp, hlegal⟩, hwidth⟩, hinterval⟩, hpending⟩, hmore⟩, hcode⟩ := hw
  exact ⟨⟨hlegal, hwidth, hinterval, hpending, hmore.le, hcode⟩, hp, hmore⟩

theorem Fits.withMode {b : Build} {r : Regs} (h : Fits b r) {m : Mode} (hm : m = .idle ∨ 1 ≤ r.width.toNat) :
    Fits b { r with mode := m } :=
  ⟨h.width, hm, h.low, h.high, h.code, h.pending⟩

theorem Filling.regsFit_writeMode (h : Filling w s) (m : Mode) :
    Machine.regsFit s.build (s.writeMode m).regs = true := by
  have hwidth : s.regs.width.toNat = w := h.width
  exact regsFit_iff.mpr ((regsFit_iff.mp h.regsFit).withMode (.inr (hwidth ▸ h.legal.1)))

theorem intervalOk_opened (hw : 1 ≤ w) : intervalOk w ⟨0, mask w⟩ = true := (settled_opened hw).intervalOk hw

/-- The session that INIT.ENC opens. -/
theorem Filling.sessionOk_enc (h : Filling w s) (hcode : s.code = 0) : sessionOk (s.writeMode .enc) = true := by
  show (intervalOk s.w s.interval && s.code == 0) = true
  rw [h.width, h.interval, intervalOk_opened h.legal.1, hcode]
  rfl

/-- The session that INIT.DEC opens when CODE is full. -/
theorem Filling.sessionOk_dec (h : Filling w s) : sessionOk (s.writeMode .dec) = true := by
  have hcode : codeOk ⟨0, mask w⟩ s.code = true := codeOk_iff.mpr ⟨Nat.zero_le _, le_mask_iff.mpr h.code_lt⟩
  show (intervalOk s.w s.interval && (codeOk s.interval s.code && s.regs.pending == 0)) = true
  rw [h.width, h.interval, intervalOk_opened h.legal.1, hcode, h.pending]
  rfl

theorem readInitial_sat : ∀ {n : Nat} {s : State}, Filling w s → s.hidden.phase = .initialRead →
    s.hidden.initBits + n = w → (readInitial n s).Sat { commandPost (.initDec w) judges with go := Filling w } := by
  intro n
  induction n with
  | zero => exact fun h _ _ => h
  | succ n ih =>
    intro s h hp hn
    refine readCodeBit_sat ⟨h.regsFit, h.waits hp (by omega)⟩ fun b l items e => ?_
    have hb := Bool.toNat_lt b
    have hcode := h.code
    have hnext : codeInitial s.code b < 2 ^ (s.hidden.initBits + 1) := by
      rw [codeInitial_eq, Nat.pow_succ]
      omega
    have hbound : codeInitial s.code b < 2 ^ 63 := hnext.trans_le (Nat.pow_le_pow_right (by decide)
      (by have := h.legal.2; omega))
    refine ih ⟨h.legal, h.width, h.interval, h.pending, ?_, ?_⟩ hp ?_
    · show s.hidden.initBits + 1 ≤ w
      omega
    · have hwritten := (((s.withLimit l).withSource items).log e).writeCode_code hbound
      exact hwritten.trans_lt hnext
    · show s.hidden.initBits + 1 + n = w
      omega

/-- What is left of INIT.DEC from its reads on. -/
theorem runStages_initialRead_sat (h : Filling w s) :
    (runStages (stagesFrom .initialRead (initDecStages w)) s).Sat (commandPost (.initDec w) judges) := by
  have hentry : Filling w (s.enterPhase .initialRead) := ⟨h.legal, h.width, h.interval, h.pending, h.count, h.code⟩
  have hcount : s.hidden.initBits + (w - s.hidden.initBits) = w := Nat.add_sub_of_le h.count
  exact runStages_cons_sat ((readInitial_sat hentry rfl hcount).imp_go fun u hu =>
    ⟨hu.regsFit_writeMode .dec, hu.sessionOk_dec⟩)

/-- A width out of range closes the session (60_exceptions.md R271). -/
theorem recovers_domainError (hfit : regsFit s.build s.regs = true) : Recovers .domainError s := by
  have hfits := (regsFit_iff.mp hfit).withMode (m := .idle) (.inl rfl)
  exact ⟨regsFit_iff.mpr ⟨hfits.width, hfits.opened, hfits.low, hfits.high, hfits.code, hfits.pending⟩, rfl⟩

theorem filling_opened (hw : 1 ≤ w ∧ w ≤ 63) : Filling w ((s.opened w).withHidden { s.hidden with initBits := 0 }) :=
  ⟨hw, Regs.opened_width_toNat s.regs hw.2, State.opened_interval s hw.2, rfl, Nat.zero_le _, Nat.one_pos⟩

theorem runStages_initDec_sat (hfit : regsFit s.build s.regs = true) :
    (runStages (stagesOf (.initDec w)) s).Sat (commandPost (.initDec w) judges) := by
  refine runStages_cons_sat (Flow.sat_andThen (check_sat (fun hw => ?_) fun _ =>
    recovers_domainError (s := s.enterPhase .checking) hfit))
  exact runStages_initialRead_sat (filling_opened (s := s.enterPhase .checking) (legalWidth_iff.mp hw))

theorem resumeStages_initDec_sat (hw : waitsOk (.initDec w) s = true) :
    (resumeStages (stagesOf (.initDec w)) s).Sat (commandPost (.initDec w) judges) := by
  obtain ⟨hfilling, hp, -⟩ := Filling.of_waits hw
  have hstages : stagesFrom s.hidden.phase.stage (stagesOf (.initDec w))
      = ⟨.initialRead, initDecRead w⟩ :: [⟨.responding, initDecClose⟩] := by rw [hp]; rfl
  rw [resumeStages_eq hstages, ← runStages_of_phase _ hp]
  exact runStages_initialRead_sat hfilling

/-! ## The other commands -/

theorem runStages_initEnc_sat (hfit : regsFit s.build s.regs = true) :
    (runStages (stagesOf (.initEnc w)) s).Sat (commandPost (.initEnc w) judges) := by
  refine runStages_cons_sat (Flow.sat_andThen (check_sat (fun hw => ?_) fun _ =>
    recovers_domainError (s := s.enterPhase .checking) hfit))
  have hopened := filling_opened (s := s.enterPhase .checking) (legalWidth_iff.mp hw)
  exact ⟨hopened.regsFit_writeMode .enc, hopened.sessionOk_enc rfl⟩

theorem runStages_close_sat (hfit : regsFit s.build s.regs = true) :
    (runStages (stagesOf .close) s).Sat (commandPost .close judges) :=
  ⟨regsFit_iff.mpr ((regsFit_iff.mp hfit).withMode (.inl rfl)), rfl⟩

/-- FIN's bit, in an open encoder session. -/
theorem runStages_finalBit_sat (hfit : regsFit s.build s.regs = true) (hs : sessionOk s = true)
    (hm : s.regs.mode = .enc) : (runStages (stagesFrom .finalBit finStages) s).Sat (commandPost .fin judges) := by
  obtain ⟨hcoding, hok⟩ := coding_enc hm hfit hs
  refine runStages_cons_sat (bitOut_sat ⟨hfit, ?_⟩ fun l held e => ⟨?_, ?_⟩)
  · show (Phase.finalBit == .finalBit && s.regs.mode == .enc && sessionOk s) = true
    rw [hm, hs]
    rfl
  · exact regsFit_iff.mpr (hcoding.fits.withMode (.inr hcoding.width.1))
  · show (intervalOk s.w s.interval && s.code == 0) = true
    rw [hok, hcoding.code_eq_zero]
    rfl

theorem runStages_fin_sat (hfit : regsFit s.build s.regs = true) (hs : sessionOk s = true) :
    (runStages (stagesOf .fin) s).Sat (commandPost .fin judges) :=
  runStages_cons_sat (requireMode_sat (fun hm => runStages_finalBit_sat (s := s.enterPhase .checking) hfit hs hm)
    fun _ => recovers_of_refused (s := s.enterPhase .checking) hfit hs)

theorem resumeStages_fin_sat (hfit : regsFit s.build s.regs = true) (hw : waitsOk .fin s = true) :
    (resumeStages (stagesOf .fin) s).Sat (commandPost .fin judges) := by
  rw [waitsOk, Bool.and_eq_true, Bool.and_eq_true, beq_iff_eq, beq_iff_eq] at hw
  obtain ⟨⟨hp, hm⟩, hs⟩ := hw
  have hstages : stagesFrom s.hidden.phase.stage (stagesOf .fin)
      = ⟨.finalBit, bitOut true⟩ :: [⟨.responding, finClose⟩] := by rw [hp]; rfl
  rw [resumeStages_eq hstages, ← runStages_of_phase _ hp]
  exact runStages_finalBit_sat hfit hs hm

/-! ## Every command -/

/-- Every command, accepted in a session that is as it should be. -/
theorem runStages_stagesOf_sat (i : Instr) (hfit : regsFit s.build s.regs = true) (hs : sessionOk s = true) :
    (runStages (stagesOf i) s).Sat (commandPost i True) := by
  cases i with
  | nop => exact ⟨hfit, hs⟩
  | initEnc w => exact runStages_initEnc_sat hfit
  | initDec w => exact runStages_initDec_sat hfit
  | enc symbol => exact runStages_enc_sat symbol hfit hs
  | dec => exact runStages_dec_sat hfit hs
  | fin => exact runStages_fin_sat hfit hs
  | close => exact runStages_close_sat hfit

/-- Every command that waits, going on: the contract of its table has been judged. -/
theorem resumeStages_stagesOf_sat {i : Instr} (hfit : regsFit s.build s.regs = true) (hw : waitsOk i s = true) :
    (resumeStages (stagesOf i) s).Sat (commandPost i False) := by
  cases i with
  | initDec w => exact resumeStages_initDec_sat hw
  | enc symbol => exact resumeStages_enc_sat hfit hw
  | dec => exact resumeStages_dec_sat hfit hw
  | fin => exact resumeStages_fin_sat hfit hw
  | nop => cases hw
  | initEnc w => cases hw
  | close => cases hw

end

end Sys2Proof.Machine

/-! # The invariant of the machine: O22, O23, O33, O39, O49 (10_state.md R38 to R43, 70_reset_and_hazards.md R321) -/

namespace Sys2Proof.Machine

/-! ## The ports (10_state.md R43) -/

/-- No command runs and no response stands. -/
structure AtRest (s : State) : Prop where
  busy : s.regs.busy = false
  current : s.current = none
  response : s.response = none
  reset : s.resetAsserted = true → s.regs = Regs.reset

/-- The command `i` runs. -/
structure Runs (i : Instr) (s : State) : Prop where
  busy : s.regs.busy = true
  current : s.current = some i
  response : s.response = none
  released : s.resetAsserted = false

/-- The response `r` stands. -/
structure Answered (r : Response) (s : State) : Prop where
  busy : s.regs.busy = true
  current : s.current = none
  response : s.response = some r
  status : r.status = s.regs.lastStatus
  released : s.resetAsserted = false

section
variable {i : Instr} {r : Response} {s t : State}

theorem portsOk_iff : portsOk s = true ↔ AtRest s ∨ (∃ i, Runs i s) ∨ ∃ r, Answered r s := by
  constructor
  · intro h
    simp only [portsOk, Bool.and_eq_true, beq_iff_eq] at h
    obtain ⟨⟨⟨hbusy, hone⟩, hstatus⟩, hreset⟩ := h
    cases hc : s.current with
    | none =>
      cases hr : s.response with
      | none => exact .inl ⟨by simpa [hc, hr] using hbusy, hc, hr, fun ha => by simpa [ha, hc, hr] using hreset⟩
      | some r =>
        rw [hr] at hstatus
        exact .inr (.inr ⟨r, by simpa [hc, hr] using hbusy, hc, hr, beq_iff_eq.mp hstatus, by simpa [hr] using hreset⟩)
    | some i =>
      cases hr : s.response with
      | none => exact .inr (.inl ⟨i, by simpa [hc, hr] using hbusy, hc, hr, by simpa [hc] using hreset⟩)
      | some r => simp [hc, hr] at hone
  · rintro (⟨hbusy, hc, hr, hreset⟩ | ⟨i, hbusy, hc, hr, ha⟩ | ⟨r, hbusy, hc, hr, hstatus, ha⟩)
    · simpa [portsOk, hbusy, hc, hr, or_iff_not_imp_left] using hreset
    · simp [portsOk, hbusy, hc, hr, ha]
    · simp [portsOk, hbusy, hc, hr, ha, hstatus]

theorem Runs.portsOk (h : Runs i s) : portsOk s = true := portsOk_iff.mpr (.inr (.inl ⟨i, h⟩))

theorem Answered.portsOk (h : Answered r s) : portsOk s = true := portsOk_iff.mpr (.inr (.inr ⟨r, h⟩))

theorem Runs.continues (h : Runs i s) (hk : Continues s t) : Runs i t :=
  ⟨hk.busy.trans h.busy, hk.current.trans h.current, hk.response.trans h.response, hk.resetAsserted.trans h.released⟩

theorem Runs.respond_answered (h : Runs i s) (status : Status) (result : Word) :
    Answered ⟨status, result⟩ (respond status result s) :=
  ⟨h.busy, rfl, rfl, rfl, h.released⟩

theorem Runs.raiseError_answered (h : Runs i s) (e : Status) : Answered ⟨e, 0⟩ (raiseError e s) :=
  ⟨h.busy, rfl, rfl, rfl, h.released⟩

/-! ## Between commands and in them -/

theorem invariantHolds_of (hfit : regsFit s.build s.regs = true) (hports : portsOk s = true)
    (hprogress : progressOk s = true) : invariantHolds s = true := by
  rw [invariantHolds, hfit, hports, hprogress]
  exact Bool.or_true _

theorem invariantHolds_of_recorded (h : s.undefinedTable = true) : invariantHolds s = true := by
  rw [invariantHolds, h]
  exact Bool.true_or _

theorem of_invariantHolds (h : invariantHolds s = true) (hu : s.undefinedTable = false) :
    regsFit s.build s.regs = true ∧ portsOk s = true ∧ progressOk s = true := by
  simpa [invariantHolds, hu, and_assoc] using h

theorem progressOk_none (hc : s.current = none) : progressOk s = sessionOk s := by rw [progressOk, hc]

theorem progressOk_some (hc : s.current = some i) : progressOk s = waitsOk i s := by rw [progressOk, hc]

theorem Answered.invariantHolds (h : Answered r s) (hfit : regsFit s.build s.regs = true) (hs : sessionOk s = true) :
    invariantHolds s = true :=
  invariantHolds_of hfit h.portsOk ((progressOk_none h.current).trans hs)

/-! ## A command that runs -/

/-- A command that ends as `commandPost` asks leaves a next state, and it meets the invariant. -/
theorem settle_invariantHolds {judges : Prop} {f : Flow} (hruns : f.Sat (.always (Runs i)))
    (hsat : f.Sat (commandPost i judges)) : ∃ t, settle (resultOf i) f = .next t ∧ invariantHolds t = true := by
  cases f with
  | go u => exact ⟨_, rfl, (Runs.respond_answered hruns _ _).invariantHolds hsat.1 hsat.2⟩
  | raise e u => exact ⟨_, rfl, (Runs.raiseError_answered hruns e).invariantHolds hsat.1 hsat.2⟩
  | wait u => exact ⟨_, rfl, invariantHolds_of hsat.1 (Runs.portsOk hruns)
      ((progressOk_some (Runs.current hruns)).trans hsat.2)⟩
  | broken u => exact ⟨_, rfl, invariantHolds_of_recorded rfl⟩
  | endless u => exact hsat.elim

theorem Within.runs {f : Flow} (h : Within s f) (hs : Runs i s) : f.Sat (.always (Runs i)) :=
  Flow.Sat.mono h (fun _ => hs.continues) (fun _ _ => hs.continues) (fun _ => hs.continues) (fun _ => hs.continues)
    fun _ => hs.continues

theorem accept_runs (i : Instr) (hr : s.response = none) (ha : s.resetAsserted = false) :
    Runs i (accept (some i) s) := ⟨rfl, rfl, hr, ha⟩

theorem exec_invariantHolds (i : Instr) (hfit : regsFit s.build s.regs = true) (hs : sessionOk s = true)
    (hr : s.response = none) (ha : s.resetAsserted = false) :
    ∃ t, exec i s = .next t ∧ invariantHolds t = true := by
  rw [exec_eq]
  exact settle_invariantHolds ((runStages_within (stagesOf_within i) _).runs (accept_runs i hr ha))
    (runStages_stagesOf_sat (s := accept (some i) s) i hfit hs)

theorem resumeCommand_some (hc : s.current = some i) :
    resumeCommand s = settle (resultOf i) (resumeStages (stagesOf i) s) := by
  rw [resumeCommand, hc]

theorem resumeCommand_invariantHolds (hs : Runs i s) (hfit : regsFit s.build s.regs = true)
    (hw : waitsOk i s = true) : ∃ t, resumeCommand s = .next t ∧ invariantHolds t = true := by
  rw [resumeCommand_some hs.current]
  exact settle_invariantHolds ((resumeStages_within (stagesOf_within i) s).runs hs)
    (resumeStages_stagesOf_sat hfit hw)

/-! ## The moves of the agents -/

theorem illegalCommand_invariantHolds (hfit : regsFit s.build s.regs = true) (hs : sessionOk s = true)
    (ha : s.resetAsserted = false) : invariantHolds (illegalCommand s) = true :=
  Answered.invariantHolds (r := ⟨.illegalCommand, 0⟩) ⟨rfl, rfl, rfl, rfl, ha⟩ hfit hs

/-- A ready core is at rest. -/
theorem atRest_of_ready (hports : portsOk s = true) (hready : s.ready = true) : AtRest s := by
  have hbusy := (State.ready_iff.mp hready).1
  rcases portsOk_iff.mp hports with h | ⟨i, h⟩ | ⟨r, h⟩
  · exact h
  · exact absurd h.busy (by simp [hbusy])
  · exact absurd h.busy (by simp [hbusy])

theorem presentCommand_invariantHolds (hi : invariantHolds s = true) (hu : s.undefinedTable = false) :
    ∃ t, presentCommand s = .next t ∧ invariantHolds t = true := by
  obtain ⟨hfit, hports, hprogress⟩ := of_invariantHolds hi hu
  rcases presentCommand_cases s with ⟨hp, -⟩ | ⟨c, rest, -, hready, hp⟩ <;> rw [hp]
  · exact ⟨s, rfl, hi⟩
  · have hrest := atRest_of_ready hports hready
    have hs : sessionOk s = true := (progressOk_none hrest.current).symm.trans hprogress
    have ha := (State.ready_iff.mp hready).2
    rcases runTransfer_cases c (acceptTransfer c rest s) with ⟨i, -, hr⟩ | ⟨e, -, hr⟩ <;> rw [hr]
    · exact exec_invariantHolds (s := acceptTransfer c rest s) i hfit hs hrest.response ha
    · exact ⟨_, rfl, illegalCommand_invariantHolds (s := acceptTransfer c rest s) hfit hs ha⟩

theorem takeResponse_invariantHolds (hi : invariantHolds s = true) (hu : s.undefinedTable = false) :
    invariantHolds (takeResponse s) = true := by
  obtain ⟨hfit, hports, hprogress⟩ := of_invariantHolds hi hu
  rcases portsOk_iff.mp hports with h | ⟨i, h⟩ | ⟨r, h⟩
  · rwa [takeResponse_none h.response]
  · rwa [takeResponse_none h.response]
  · rw [takeResponse_some h.response]
    refine invariantHolds_of hfit (portsOk_iff.mpr (.inl ⟨rfl, h.current, rfl, fun ha => ?_⟩)) ?_
    · exact absurd ha (by simp [h.released])
    · exact (progressOk_none (by exact h.current)).trans ((progressOk_none h.current).symm.trans hprogress)

theorem driveReset_invariantHolds (asserted : Bool) (hi : invariantHolds s = true) (hu : s.undefinedTable = false) :
    invariantHolds (driveReset asserted s) = true := by
  cases asserted with
  | true =>
    have hfit : regsFit s.build Regs.reset = true := regsFit_iff.mpr
      ⟨by decide, .inl rfl, Nat.zero_le _, Nat.zero_le _, Nat.zero_le _, Nat.zero_le _⟩
    exact invariantHolds_of hfit (portsOk_iff.mpr (.inl ⟨rfl, rfl, rfl, fun _ => rfl⟩)) rfl
  | false =>
    obtain ⟨hfit, hports, hprogress⟩ := of_invariantHolds hi hu
    refine invariantHolds_of hfit (portsOk_iff.mpr ?_) hprogress
    rcases portsOk_iff.mp hports with h | ⟨i, h⟩ | ⟨r, h⟩
    · exact .inl ⟨h.busy, h.current, h.response, nofun⟩
    · exact .inr (.inl ⟨i, h.busy, h.current, h.response, rfl⟩)
    · exact .inr (.inr ⟨r, h.busy, h.current, h.response, h.status, rfl⟩)

/-- A wait of a command that never queries the table does not depend on it. -/
theorem waitsOk_withTable (hq : queriesTable i = false) (table : Table) :
    waitsOk i (s.withTable table) = waitsOk i s := by
  cases i with
  | enc symbol => cases hq
  | dec => cases hq
  | _ => rfl

theorem changeTable_invariantHolds (table : Table) (hi : invariantHolds s = true) (hu : s.undefinedTable = false) :
    invariantHolds (changeTable table s) = true := by
  by_cases hquiet : s.queryingNow = false
  · rw [changeTable_of_not_querying hquiet]
    obtain ⟨hfit, hports, hprogress⟩ := of_invariantHolds hi hu
    refine invariantHolds_of hfit hports ?_
    cases hc : s.current with
    | none => exact (progressOk_none (by exact hc)).trans ((progressOk_none hc).symm.trans hprogress)
    | some i =>
      rw [State.queryingNow_of_current hc] at hquiet
      rw [progressOk_some (by exact hc), waitsOk_withTable hquiet, ← progressOk_some hc]
      exact hprogress
  · by_cases ht : table = s.table
    · rwa [ht, changeTable_self]
    · rw [changeTable_of_querying ((Bool.not_eq_false _).mp hquiet) ht]
      exact invariantHolds_of_recorded rfl

theorem takeTurn_invariantHolds (turn : Turn) (hi : invariantHolds s = true) (hu : s.undefinedTable = false) :
    ∃ t, takeTurn turn s = .next t ∧ invariantHolds t = true := by
  cases turn with
  | present => exact presentCommand_invariantHolds hi hu
  | take => exact ⟨_, rfl, takeResponse_invariantHolds hi hu⟩
  | observe index => exact ⟨_, rfl, hi⟩
  | reset asserted => exact ⟨_, rfl, driveReset_invariantHolds asserted hi hu⟩
  | table table => exact ⟨_, rfl, changeTable_invariantHolds table hi hu⟩
  | source items => exact ⟨_, rfl, hi⟩
  | sink held => exact ⟨_, rfl, hi⟩
  | partners limit =>
    obtain ⟨hfit, hports, hprogress⟩ := of_invariantHolds hi hu
    rcases portsOk_iff.mp hports with h | ⟨i, h⟩ | ⟨r, h⟩
    · exact ⟨_, resumeCommand_none (s := s.withLimit limit) h.current, hi⟩
    · exact resumeCommand_invariantHolds (s := s.withLimit limit) ⟨h.busy, h.current, h.response, h.released⟩ hfit
        ((progressOk_some h.current).symm.trans hprogress)
    · exact ⟨_, resumeCommand_none (s := s.withLimit limit) h.current, hi⟩

/-- From a state that meets the invariant every step leads to a state that meets it. -/
theorem step_invariantHolds (hi : invariantHolds s = true) : ∃ t, step s = .next t ∧ invariantHolds t = true := by
  cases hu : s.undefinedTable with
  | true => exact ⟨_, step_recorded hu, invariantHolds_of_recorded rfl⟩
  | false =>
    rw [step_eq_takeTurn hu]
    exact takeTurn_invariantHolds (s := s.afterTurn) s.nextTurn hi hu

end

/-- Settles O22: every move of an agent keeps the invariant. -/
theorem everyStepKeepsInvariant : Obligations.EveryStepKeepsInvariant := by
  intro s t hi hstep
  obtain ⟨t', hstep', ht⟩ := step_invariantHolds hi
  obtain rfl : t = t' := by
    rw [hstep] at hstep'
    exact Host.Outcome.next.inj hstep'
  exact ht

/-- Settles O23: the loops end, and every other part of a command is a response, a wait, or the record. -/
theorem goodStatesNeverStop : Obligations.GoodStatesNeverStop := by
  intro s hi
  obtain ⟨t, hstep, -⟩ := step_invariantHolds hi
  exact ⟨t, hstep⟩

end Sys2Proof.Machine

/-! # What the invariant says of waiting and of ABORTED, and when the record is made: O33, O39, O49 -/

namespace Sys2Proof.Machine

/-! ## O33: ABORTED -/

section
variable {i : Instr} {s t : State}

/-- In ABORTED no command waits but an INIT.DEC at the source. -/
theorem initDec_of_aborted (hm : s.regs.mode = .aborted) (hw : waitsOk i s = true) : ∃ w, i = .initDec w := by
  cases i with
  | initDec w => exact ⟨w, rfl⟩
  | enc symbol => simp [waitsOk, hm] at hw
  | dec => simp [waitsOk, hm] at hw
  | fin => simp [waitsOk, hm] at hw
  | nop => cases hw
  | initEnc w => cases hw
  | close => cases hw

/-- A command accepted in ABORTED leaves it only if it is an INIT or CLOSE (60_exceptions.md R280). -/
theorem exec_of_aborted (hm : s.regs.mode = .aborted) (h : exec i s = .next t) (hu : t.undefinedTable = false) :
    t.regs.mode = .aborted ∨ (∃ w, i = .initEnc w ∨ i = .initDec w) ∨ i = .close := by
  have henc : s.regs.mode ≠ .enc := by rw [hm]; decide
  have hdec : s.regs.mode ≠ .dec := by rw [hm]; decide
  rcases modeMovesOnlyAsTabled i s t h hu with hsame | ⟨w, rfl, -⟩ | ⟨w, rfl, -⟩ | ⟨rfl, -⟩ | ⟨-, h, -⟩ | ⟨-, h, -⟩
    | ⟨-, h, -⟩
  · exact .inl (hsame.trans hm)
  · exact .inr (.inl ⟨w, .inl rfl⟩)
  · exact .inr (.inl ⟨w, .inr rfl⟩)
  · exact .inr (.inr rfl)
  · exact absurd h henc
  · exact absurd h henc
  · exact absurd h hdec

theorem takeResponse_mode (s : State) : (takeResponse s).regs.mode = s.regs.mode := by
  cases hr : s.response with
  | none => rw [takeResponse_none hr]
  | some r => rw [takeResponse_some hr]; rfl

theorem changeTable_mode (table : Table) (hu : (changeTable table s).undefinedTable = false) :
    (changeTable table s).regs.mode = s.regs.mode := by
  rcases changeTable_cases table s with h | ⟨h, -⟩
  · rw [h]
    rfl
  · rw [h] at hu
    cases hu

/-- A command presented in ABORTED. -/
theorem presentCommand_of_aborted (hm : s.regs.mode = .aborted) (h : presentCommand s = .next t)
    (hu : t.undefinedTable = false) : t.regs.mode = .aborted ∨ ∃ c rest i, s.commands = c :: rest
      ∧ decode c.cmd c.arg = .ok i ∧ ((∃ w, i = .initEnc w ∨ i = .initDec w) ∨ i = .close) := by
  rcases presentCommand_cases s with ⟨hp, -⟩ | ⟨c, rest, hc, -, hp⟩ <;> rw [hp] at h
  · cases h
    exact .inl hm
  · rcases runTransfer_cases c (acceptTransfer c rest s) with ⟨i, hd, hr⟩ | ⟨e, -, hr⟩ <;> rw [hr] at h
    · exact (exec_of_aborted (s := acceptTransfer c rest s) hm h hu).imp_right fun hi => ⟨c, rest, i, hc, hd, hi⟩
    · cases h
      exact .inl hm

/-- Settles O33: no agent's move but the reset, and no command but INIT and CLOSE, writes MODE in ABORTED. -/
theorem abortedIsLeftOnlyByInitCloseOrReset : Obligations.AbortedIsLeftOnlyByInitCloseOrReset := by
  intro s t hi hstep hu hm
  have hrecord : s.undefinedTable = false := by
    by_contra hrecorded
    rw [step_recorded ((Bool.not_eq_false _).mp hrecorded)] at hstep
    cases hstep
    cases hu
  obtain ⟨-, -, hprogress⟩ := of_invariantHolds hi hrecord
  rw [step_eq_takeTurn hrecord] at hstep
  generalize s.nextTurn = turn at hstep ⊢
  cases turn with
  | present =>
    refine (presentCommand_of_aborted (s := s.afterTurn) hm hstep hu).imp_right fun ⟨c, rest, i, hc, hd, hi⟩ => ?_
    exact .inr (.inl ⟨c, rest, i, rfl, hc, hd, hi⟩)
  | take =>
    cases hstep
    exact .inl ((takeResponse_mode s.afterTurn).trans hm)
  | reset asserted =>
    cases hstep
    cases asserted with
    | true => exact .inr (.inl rfl)
    | false => exact .inl hm
  | table table =>
    cases hstep
    exact .inl ((changeTable_mode (s := s.afterTurn) table hu).trans hm)
  | observe index => cases hstep; exact .inl hm
  | source items => cases hstep; exact .inl hm
  | sink held => cases hstep; exact .inl hm
  | partners limit =>
    cases hc : s.current with
    | none =>
      have hstay : resumeCommand (s.afterTurn.withLimit limit) = .next t := hstep
      rw [resumeCommand_none (by exact hc)] at hstay
      cases hstay
      exact .inl hm
    | some i =>
      obtain ⟨w, rfl⟩ := initDec_of_aborted hm ((progressOk_some hc).symm.trans hprogress)
      exact .inr (.inr (.inr ⟨w, limit, rfl, rfl⟩))

/-! ## O39: a command that waits -/

theorem transfer_stalled (h : s.partnerLimit = some 0) (k : State → Flow) : transfer s k = .wait s := by
  rw [transfer, h]

/-- With partners that complete nothing the stage that waits waits again at once, and nothing but the hidden state is
touched. -/
def Stalls (stages : List Stage) (s : State) : Prop :=
  ∃ g rest h, stagesFrom s.hidden.phase.stage stages = g :: rest ∧ g.run s = .wait (s.withHidden h)

theorem stalls_of_phase {stages rest : List Stage} {p : Phase} {g : Stage} {h : Hidden} (hp : s.hidden.phase = p)
    (hfrom : stagesFrom p.stage stages = g :: rest) (hrun : g.run s = .wait (s.withHidden h)) : Stalls stages s :=
  ⟨g, rest, h, hp ▸ hfrom, hrun⟩

theorem Stalls.append {stages : List Stage} (h : Stalls stages s) (more : List Stage) : Stalls (stages ++ more) s := by
  obtain ⟨g, rest, hidden, hfrom, hrun⟩ := h
  exact ⟨g, rest ++ more, hidden, stagesFrom_append hfrom more, hrun⟩

theorem Stalls.after {stages before : List Stage} (h : Stalls stages s)
    (hnodup : ((before ++ stages).map Stage.phase).Nodup) : Stalls (before ++ stages) s := by
  obtain ⟨g, rest, hidden, hfrom, hrun⟩ := h
  exact ⟨g, rest, hidden, stagesFrom_append_right hnodup hfrom, hrun⟩

theorem Stalls.resume {stages : List Stage} (h : Stalls stages s) :
    ∃ h, resumeStages stages s = .wait (s.withHidden h) := by
  obtain ⟨g, rest, hidden, hfrom, hrun⟩ := h
  exact ⟨hidden, by rw [resumeStages_eq hfrom, hrun, Flow.andThen_wait]⟩

theorem stalls_of_query {stages rest : List Stage} {p : Phase} {g : Stage} {q : Query} {k : Word → State → Flow}
    (h : s.partnerLimit = some 0) (hp : s.hidden.phase = p) (hfrom : stagesFrom p.stage stages = g :: rest)
    (hrun : g.run s = tableQuery q s k) : Stalls stages s :=
  stalls_of_phase (h := s.hidden) hp hfrom (hrun.trans (transfer_stalled h _))

theorem bitOut_stalled (h : s.partnerLimit = some 0) (b : Bit) : bitOut b s = .wait (s.withHidden s.hidden) :=
  transfer_stalled h _

theorem readCodeBit_stalled (h : s.partnerLimit = some 0) (k : Bit → State → Flow) :
    readCodeBit s k = .wait (s.withHidden s.hidden) := transfer_stalled h _

theorem shiftHook_stalled (h : s.partnerLimit = some 0) (hm : s.regs.mode = .enc ∨ s.regs.mode = .dec) :
    shiftHook s = .wait (s.withHidden s.hidden) := by
  unfold shiftHook
  rcases hm with hm | hm <;> rw [hm]
  · exact congrArg (Flow.andThen · _) (bitOut_stalled h _)
  · exact readCodeBit_stalled h _

theorem updateRenorm_stalled (h : s.partnerLimit = some 0) (hm : s.regs.mode = .enc ∨ s.regs.mode = .dec)
    (hp : s.hidden.phase = .renorm) (hdue : renormDue s.w s.interval = true) :
    updateRenorm s = .wait (s.withHidden s.hidden) := by
  rw [updateRenorm, if_neg (by rw [hp]; decide), loopBound, renormLoop, if_pos hdue, shiftHook_stalled h hm,
    Flow.andThen_wait]

theorem encEmission_stalled (h : s.partnerLimit = some 0) {n : Nat} (hn : 1 ≤ n) :
    ∃ hidden, encEmission n s = .wait (s.withHidden hidden) := by
  obtain ⟨n, rfl⟩ := Nat.exists_eq_succ_of_ne_zero (Nat.ne_of_gt hn)
  let v := s.enterPhase .pendingEmission
  let u := v.withHidden { v.hidden with pendingLeft := n + 1 }
  have hbit := bitOut_stalled (s := u) h (!topBit s.w s.interval.low)
  refine ⟨u.hidden, ?_⟩
  show ((bitOut _ u).andThen _).andThen _ = _
  exact congrArg (fun f => (Flow.andThen f _).andThen _) hbit

theorem updateUnderflow_stalled (h : s.partnerLimit = some 0) (hm : s.regs.mode = .dec)
    (hdue : underflowDue s.w s.interval = true) : updateUnderflow s = .wait (s.withHidden s.hidden) := by
  have hhook : underflowHook s = .wait (s.withHidden s.hidden) := by
    rw [underflowHook, hm]
    exact readCodeBit_stalled h _
  rw [updateUnderflow, loopBound, underflowLoop, if_pos hdue, hhook, Flow.andThen_wait]

/-- The stage at which UPDATE waits starts with the transfer it waits at. -/
theorem updateWaits_stalls {symbol : State → Word} (h : s.partnerLimit = some 0)
    (hm : s.regs.mode = .enc ∨ s.regs.mode = .dec) (hw : updateWaits (symbol s) s = true) :
    Stalls (updateStages symbol) s := by
  rw [updateWaits, Bool.and_eq_true, Bool.and_eq_true] at hw
  obtain ⟨-, hphase⟩ := hw
  split at hphase
  · next hp => exact stalls_of_query h hp rfl (updateQueryTotal.eq_1 ..)
  · next hp => exact stalls_of_query h hp rfl (updateQueryLow.eq_1 ..)
  · next hp => exact stalls_of_query h hp rfl (updateQueryHigh.eq_1 ..)
  · next hp =>
    simp only [Bool.and_eq_true, decide_eq_true_eq] at hphase
    obtain ⟨⟨-, hdue⟩, -⟩ := hphase
    exact stalls_of_phase hp rfl (updateRenorm_stalled h hm hp hdue)
  · next hp =>
    simp only [Bool.and_eq_true, decide_eq_true_eq, beq_iff_eq] at hphase
    obtain ⟨⟨-, hpos⟩, -⟩ := hphase
    obtain ⟨hidden, hemission⟩ := encEmission_stalled h hpos
    refine stalls_of_phase (h := hidden) hp rfl ?_
    show updateRenorm s = _
    rw [updateRenorm, if_pos hp, hemission, Flow.andThen_wait]
  · next hp =>
    simp only [Bool.and_eq_true, Bool.not_eq_true', decide_eq_true_eq, beq_iff_eq] at hphase
    obtain ⟨⟨⟨-, hdue⟩, hdec⟩, -⟩ := hphase
    exact stalls_of_phase hp rfl (updateUnderflow_stalled h hdec hdue)
  · cases hphase

theorem decSearch_stalled (h : s.partnerLimit = some 0) (hmore : searchGoesOn s.hidden.start s.hidden.stop = true) :
    ∃ hidden, decSearch s = .wait (s.withHidden hidden) := by
  let u := s.withHidden { s.hidden with mid := midpoint s.hidden.start s.hidden.stop }
  have hquery (q : Query) (k : Word → State → Flow) : tableQuery q u k = .wait u := transfer_stalled (s := u) h _
  refine ⟨u.hidden, ?_⟩
  rw [decSearch, searchBound, searchLoop, if_pos hmore]
  exact congrArg (Flow.andThen · _) (hquery _ _)

theorem decWaits_stalls (h : s.partnerLimit = some 0) (hw : decWaits s = true) : Stalls searchStages s := by
  rw [decWaits, Bool.and_eq_true] at hw
  obtain ⟨-, hphase⟩ := hw
  split at hphase
  · next hp => exact stalls_of_query h hp rfl (decTotal.eq_1 ..)
  · next hp => exact stalls_of_query h hp rfl (decLimit.eq_1 ..)
  · next hp =>
    simp only [Bool.and_eq_true] at hphase
    obtain ⟨⟨⟨⟨-, hmore⟩, -⟩, -⟩, -⟩ := hphase
    obtain ⟨hidden, hsearch⟩ := decSearch_stalled h hmore
    exact stalls_of_phase (h := hidden) hp rfl hsearch
  · next hp => exact stalls_of_query h hp rfl (decContainLow.eq_1 ..)
  · next hp => exact stalls_of_query h hp rfl (decContainHigh.eq_1 ..)
  · cases hphase

/-- Every command that waits is at a transfer. -/
theorem waitsOk_stalls (h : s.partnerLimit = some 0) (hw : waitsOk i s = true) : Stalls (stagesOf i) s := by
  cases i with
  | initDec w =>
    obtain ⟨-, hp, hmore⟩ := Filling.of_waits hw
    obtain ⟨n, hn⟩ := Nat.exists_eq_succ_of_ne_zero (Nat.sub_ne_zero_of_lt hmore)
    refine stalls_of_phase (h := s.hidden) hp rfl ?_
    show initDecRead w s = _
    rw [initDecRead, hn]
    exact readCodeBit_stalled h _
  | enc symbol =>
    rw [waitsOk, Bool.and_eq_true, Bool.and_eq_true, beq_iff_eq] at hw
    obtain ⟨⟨hm, -⟩, hupdate⟩ := hw
    exact Stalls.after (before := [⟨.checking, requireMode .enc⟩])
      (updateWaits_stalls (symbol := fun _ => symbolIndex symbol) h (.inl hm) hupdate) (stagesOf_nodup (.enc symbol))
  | dec =>
    rw [waitsOk, Bool.and_eq_true, Bool.and_eq_true, Bool.or_eq_true, beq_iff_eq] at hw
    obtain ⟨⟨hm, -⟩, hsearch | hupdate⟩ := hw
    · exact Stalls.after (before := [⟨.checking, decCheck⟩]) ((decWaits_stalls h hsearch).append _)
        (stagesOf_nodup .dec)
    · exact Stalls.after (before := ⟨.checking, decCheck⟩ :: searchStages)
        ((updateWaits_stalls (symbol := decodedIndex) h (.inr hm) hupdate).append _) (stagesOf_nodup .dec)
  | fin =>
    rw [waitsOk, Bool.and_eq_true, Bool.and_eq_true, beq_iff_eq] at hw
    exact stalls_of_phase hw.1.1 rfl (bitOut_stalled h _)
  | nop => cases hw
  | initEnc w => cases hw
  | close => cases hw

/-! ## A command that waits, once its partner moves -/

/-- The stages of ENC and DEC, each in its phase and mode. -/
theorem stagesOf_performs {m : Mode} (hi : CodesIn i m) : ∀ g ∈ stagesOf i, StagePerforms i True g := by
  cases hi with
  | enc symbol =>
    refine List.forall_mem_cons.mpr ⟨fun _ _ _ => ?_, updateStages_performs _ trivial⟩
    exact requireMode_performs (by simp [errorsOf]) (by simp [errorsOf])
  | dec =>
    rw [stagesOf, decStages_eq]
    refine List.forall_mem_cons.mpr ⟨fun _ _ _ => ?_, List.forall_mem_append.mpr ⟨searchStages_performs,
      List.forall_mem_append.mpr ⟨updateStages_performs _ trivial,
        List.forall_mem_singleton.mpr decPostCheck_performs⟩⟩⟩
    exact (requireMode_performs (by decide) (by decide)).andThen fun _ _ =>
      (check_performs (by decide)).andThen fun _ _ => judgeContract_performs fun _ => trivial

/-- An ENC or a DEC goes on in one of its stages, or in the pending bits of an ENC. -/
theorem resumeStages_coding_performs {rest : List Stage} {g : Stage} (hi : CodesIn i s.regs.mode)
    (hp : s.hidden.phase = .pendingEmission → s.regs.mode = .enc)
    (hfrom : stagesFrom s.hidden.phase.stage (stagesOf i) = g :: rest) :
    Performs i True s (resumeStages (stagesOf i) s) := by
  have hall : ∀ g' ∈ g :: rest, StagePerforms i True g' := fun g' hmem =>
    stagesOf_performs hi g' ((stagesFrom_suffix _ _).subset (hfrom ▸ hmem))
  obtain ⟨hg, hrest⟩ := List.forall_mem_cons.mp hall
  rw [resumeStages_eq hfrom]
  refine Performs.andThen ?_ fun u hu => runStages_performs hrest (hi.acts hu)
  by_cases hphase : s.hidden.phase = .pendingEmission
  · have hrun : g.run = updateRenorm := by
      rw [hphase] at hfrom
      cases hi' : i with
      | enc symbol => rw [hi'] at hfrom; cases hfrom; rfl
      | dec => rw [hi'] at hfrom; cases hfrom; rfl
      | _ => rw [hi'] at hi; cases hi
    rw [hrun]
    exact updateRenorm_performs hi hp
  · exact hg s hi ((stagesFrom_phase hfrom).trans (if_neg hphase)).symm

/-- A command that waits goes on by actions of its own: it waits again only at a transfer that its partner does not
complete (70_reset_and_hazards.md R321). -/
theorem resumeStages_performs (hw : waitsOk i s = true) : Performs i True s (resumeStages (stagesOf i) s) := by
  have hfrom : ∃ g rest, stagesFrom s.hidden.phase.stage (stagesOf i) = g :: rest := by
    obtain ⟨g, rest, -, hfrom, -⟩ := waitsOk_stalls (s := s.withLimit (some 0)) rfl hw
    exact ⟨g, rest, hfrom⟩
  obtain ⟨g, rest, hfrom⟩ := hfrom
  cases i with
  | initDec w =>
    obtain ⟨hfilling, hp, -⟩ := Filling.of_waits hw
    rw [resumeStages_eq (g := ⟨.initialRead, initDecRead w⟩) (rest := [⟨.responding, initDecClose⟩]) (by rw [hp]; rfl)]
    exact (readInitial_performs w _ s).andThen fun u _ => .go (.trans (.enterPhase _ u .responding)
      (Act.mode (.initDec (legalWidth_iff.mpr hfilling.legal))).acts)
  | enc symbol =>
    rw [waitsOk, Bool.and_eq_true, Bool.and_eq_true, beq_iff_eq] at hw
    obtain ⟨⟨hm, -⟩, -⟩ := hw
    exact resumeStages_coding_performs (hm ▸ .enc symbol) (fun _ => hm) hfrom
  | dec =>
    rw [waitsOk, Bool.and_eq_true, Bool.and_eq_true, Bool.or_eq_true, beq_iff_eq] at hw
    obtain ⟨⟨hm, -⟩, hwaits⟩ := hw
    refine resumeStages_coding_performs (hm ▸ .dec) (fun hp => ?_) hfrom
    simp [decWaits, updateWaits, hp, hm] at hwaits
  | fin =>
    rw [waitsOk, Bool.and_eq_true, Bool.and_eq_true, beq_iff_eq] at hw
    rw [resumeStages_eq (g := ⟨.finalBit, bitOut true⟩) (rest := [⟨.responding, finClose⟩]) (by rw [hw.1.1]; rfl)]
    exact (bitOut_performs rfl true).andThen fun u _ => .go (.trans (.enterPhase _ u .responding) (Act.mode .fin).acts)
  | nop => cases hw
  | initEnc w => cases hw
  | close => cases hw

/-- With partners that complete every transfer a command that waits responds. -/
theorem resumeCommand_responded (hruns : Runs i s) (hp : s.partnerLimit = none) (hfit : regsFit s.build s.regs = true)
    (hw : waitsOk i s = true) : ∃ t status result, resumeCommand s = .next t ∧ Responded status result t
      ∧ SameSurroundings s t := by
  have hsat := resumeStages_stagesOf_sat hfit hw
  have hwithin := resumeStages_within (stagesOf_within i) s
  have hperforms := resumeStages_performs hw
  rw [resumeCommand_some hruns.current]
  cases hf : resumeStages (stagesOf i) s with
  | go u =>
    rw [hf] at hwithin
    have hk : Continues s u := hwithin
    exact ⟨_, _, _, rfl, respond_responded _ _ (hruns.continues hk).busy,
      ⟨hk.build, hk.resetAsserted, hk.table, hk.commands, hk.schedule, hk.undefinedTable⟩⟩
  | raise e u =>
    rw [hf] at hwithin
    have hk : Continues s u := hwithin
    exact ⟨_, _, _, rfl, raiseError_responded (hruns.continues hk).busy,
      ⟨hk.build, hk.resetAsserted, hk.table, hk.commands, hk.schedule, hk.undefinedTable⟩⟩
  | wait u =>
    rw [hf] at hperforms
    obtain ⟨hacts, hlimit⟩ : Acts i s u ∧ u.partnerLimit = some 0 := hperforms
    rw [hacts.partnerLimit_none hp] at hlimit
    cases hlimit
  | broken u => rw [hf] at hsat; exact hsat.elim
  | endless u => rw [hf] at hsat; exact hsat.elim

/-- Settles O39: the stage a command waits in starts with the transfer it waits at, and once all complete, it ends. -/
theorem waitingCoreNeedsItsPartner : Obligations.WaitingCoreNeedsItsPartner := by
  intro i s hi hu hc
  obtain ⟨hfit, hports, hprogress⟩ := of_invariantHolds hi hu
  have hw : waitsOk i s = true := (progressOk_some hc).symm.trans hprogress
  have hruns : Runs i s := by
    rcases portsOk_iff.mp hports with h | ⟨i', h⟩ | ⟨r, h⟩
    · exact absurd (h.current.symm.trans hc) nofun
    · exact Option.some.inj (h.current.symm.trans hc) ▸ h
    · exact absurd (h.current.symm.trans hc) nofun
  have hresume (limit : Option Nat) (hn : s.nextTurn = .partners limit) :
      step s = resumeCommand (s.afterTurn.withLimit limit) := by rw [step_eq_takeTurn hu, hn, takeTurn]
  refine ⟨fun hn => ?_, fun hn => ?_⟩ <;> rw [hresume _ hn]
  · obtain ⟨hidden, hstall⟩ := (waitsOk_stalls (s := s.afterTurn.withLimit (some 0)) rfl hw).resume
    refine ⟨(s.afterTurn.withLimit (some 0)).withHidden hidden, ?_, ⟨hruns.current, hruns.response, hruns.busy⟩, rfl,
      rfl, rfl, rfl, ⟨rfl, rfl, rfl, rfl, rfl, rfl⟩⟩
    rw [resumeCommand_some (by exact hc), hstall, settle_wait]
  · obtain ⟨t, status, result, hstep, hresponded, hsame⟩ := resumeCommand_responded
      (s := s.afterTurn.withLimit none) ⟨hruns.busy, hruns.current, hruns.response, hruns.released⟩ rfl hfit hw
    exact ⟨t, status, result, hstep, hresponded,
      ⟨hsame.build, hsame.resetAsserted, hsame.table, hsame.commands, hsame.schedule, hsame.undefinedTable⟩⟩

/-! ## O49: when UNDEFINED_TABLE is recorded -/

/-- A DEC that passes its checks on a table that breaks the contract. -/
theorem exec_dec_of_broken_contract (hm : s.regs.mode = .dec) (hok : intervalOk s.w s.interval = true)
    (hcode : codeOk s.interval s.code = true) (hbroken : s.table.conforming = false) :
    exec .dec s = .next ((accept (some .dec) s).enterPhase .checking).forget := by
  let u := (accept (some .dec) s).enterPhase .checking
  have hchecks : (intervalOk u.w u.interval && codeOk u.interval u.code) = true := Bool.and_eq_true_iff.mpr ⟨hok, hcode⟩
  have hcheck : decCheck u = .broken u := by
    rw [decCheck, requireMode_go (by exact hm) (by decide), Flow.andThen_go, hchecks, check_true, Flow.andThen_go,
      show u.table.conforming = false from hbroken]
    rfl
  rw [exec_eq, stagesOf, decStages_eq, runStages_of_broken hcheck, settle_broken]

/-- UPDATE of a symbol in a conforming table finds the contract honoured. -/
theorem runStages_updateStages_performs {symbol : State → Word} (hi : CodesIn i s.regs.mode)
    (hconforming : s.table.conforming = true)
    (hsymbol : (symbol (s.enterPhase .updateEntry)).toNat < s.table.symbolLimit.toNat) (more : List Stage)
    (hmore : ∀ g ∈ more, StagePerforms i False g) :
    Performs i False s (runStages (updateStages symbol ++ more) s) := by
  have hentry : Performs i False (s.enterPhase .updateEntry) (updateEntry symbol (s.enterPhase .updateEntry)) := by
    cases hok : intervalOk s.w s.interval with
    | false =>
      rw [updateEntry_raise (by exact hok)]
      exact ⟨.refl i _, hi.mem_errorsOf (by decide)⟩
    | true =>
      rw [updateEntry_go (by exact hok) (by exact hconforming) hsymbol]
      exact .refl i _
  exact (Performs.after (.enterPhase i s .updateEntry) hentry).andThen fun u hu =>
    runStages_performs (List.forall_mem_append.mpr ⟨updateStages_tail_performs symbol, hmore⟩) (hi.acts hu)

/-- An ENC of a symbol in a conforming table never finds it broken. -/
theorem runStages_enc_performs {symbol : Nat} (hconforming : s.table.conforming = true)
    (hsymbol : symbol < s.table.symbolLimit.toNat) :
    Performs (.enc symbol) False s (runStages (stagesOf (.enc symbol)) s) := by
  refine .after (.enterPhase _ s .checking) (requireMode_andThen_performs (.enc symbol) fun hm => ?_)
  refine runStages_updateStages_performs (s := s.enterPhase .checking) (symbol := fun _ => symbolIndex symbol)
    (hm ▸ .enc symbol) hconforming ?_ [] nofun
  rwa [symbolIndex_toNat (hsymbol.trans s.table.symbolLimit.isLt)]

/-- The symbol that a DEC has searched is one of the table. -/
theorem HoldsSymbol.decodedIndex_lt (h : HoldsSymbol s) :
    (decodedIndex s).toNat < s.table.symbolLimit.toNat := by
  have hlt : s.hidden.symbol < s.table.symbolLimit.toNat := of_decide_eq_true h.hasSymbol
  rwa [decodedIndex, BitVec.toNat_ofNat, Nat.mod_eq_of_lt (hlt.trans s.table.symbolLimit.isLt)]

/-- A DEC whose checks have passed on a conforming table. -/
theorem runStages_dec_tail_performs (hm : s.regs.mode = .dec) (hconforming : s.table.conforming = true)
    (hok : intervalOk s.w s.interval = true) (hcode : codeOk s.interval s.code = true) :
    Performs .dec False s
      (runStages (searchStages ++ (updateStages decodedIndex ++ [⟨.responding, decPostCheck⟩])) s) := by
  have hsearch : (runStages searchStages s).Sat (searchPost s HoldsSymbol) :=
    runStages_searchStages_sat ⟨rfl, rfl, rfl, hconforming, hok, hcode⟩
  have hperforms : Performs .dec False s (runStages searchStages s) :=
    runStages_performs searchStages_performs (hm ▸ .dec)
  rw [runStages_append]
  cases hf : runStages searchStages s with
  | go u =>
    rw [hf] at hsearch hperforms
    obtain ⟨hsearches, hholds⟩ : Searches s u ∧ HoldsSymbol u := hsearch
    have hacts : Acts .dec s u := hperforms
    exact .after hacts (runStages_updateStages_performs (CodesIn.acts (hm ▸ .dec) hacts) hsearches.conforming
      hholds.decodedIndex_lt _ (List.forall_mem_singleton.mpr decPostCheck_performs))
  | _ =>
    rw [hf] at hperforms
    exact hperforms

/-- A DEC on a conforming table never finds it broken. -/
theorem runStages_dec_performs (hconforming : s.table.conforming = true) :
    Performs .dec False s (runStages (stagesOf .dec) s) := by
  let u := s.enterPhase .checking
  refine .after (.enterPhase _ s .checking) ?_
  rcases requireMode_cases .dec u with ⟨-, h⟩ | ⟨-, hm, -⟩ | ⟨-, -, h⟩
  · exact (show Performs _ _ _ (((requireMode .dec u).andThen _).andThen _) by rw [h]; exact ⟨.refl _ _, by decide⟩)
  · show Performs _ _ _ ((decCheck u).andThen
      (runStages (searchStages ++ (updateStages decodedIndex ++ [⟨.responding, decPostCheck⟩]))))
    cases hok : intervalOk u.w u.interval && codeOk u.interval u.code with
    | false =>
      rw [decCheck_raise hm hok]
      exact ⟨.refl _ _, by decide⟩
    | true =>
      obtain ⟨hinterval, hcode⟩ := Bool.and_eq_true_iff.mp hok
      rw [decCheck_go hm hinterval hcode hconforming]
      exact runStages_dec_tail_performs hm hconforming hinterval hcode
  · exact (show Performs _ _ _ (((requireMode .dec u).andThen _).andThen _) by rw [h]; exact ⟨.refl _ _, by decide⟩)

/-- A command on a conforming table, with a symbol inside it, never finds the contract broken. -/
theorem runStages_stagesOf_performs_of_conforming (hconforming : s.table.conforming = true)
    (hsymbol : ∀ symbol, i = .enc symbol → symbol < s.table.symbolLimit.toNat) :
    Performs i False s (runStages (stagesOf i) s) := by
  cases i with
  | enc symbol => exact runStages_enc_performs hconforming (hsymbol symbol rfl)
  | dec => exact runStages_dec_performs hconforming
  | _ => exact runStages_stagesOf_performs _ s nofun

/-- Settles O49: the contract is judged by `updateEntry` and `decCheck` alone. -/
theorem brokenContractIsRecorded : Obligations.BrokenContractIsRecorded := by
  refine ⟨fun symbol s hm hok hsymbol hbroken => ?_, fun s hm hok hcode hbroken => ?_,
    fun i s t hu hconforming hsymbol h => ?_⟩
  · have hcontract : (s.table.conforming && s.table.hasSymbol (symbolIndex symbol).toNat) = false := by
      rw [symbolIndex_toNat hsymbol, Bool.and_eq_false_iff]
      exact hbroken.imp_right fun hle => decide_eq_false (Nat.not_lt.mpr hle)
    exact ⟨_, exec_enc_of_broken_contract hm hok hcontract, rfl⟩
  · exact ⟨_, exec_dec_of_broken_contract hm hok hcode hbroken, rfl⟩
  · have hperforms := runStages_stagesOf_performs_of_conforming (s := accept (some i) s) hconforming hsymbol
    rcases exec_next h with ⟨u, hk, -, rfl⟩ | ⟨e, u, hk, -, rfl⟩ | ⟨hk, -⟩ | ⟨u, -, hf, -⟩
    · exact hk.undefinedTable.trans hu
    · exact hk.undefinedTable.trans hu
    · exact hk.undefinedTable.trans hu
    · rw [hf] at hperforms
      exact hperforms.2.elim

end

end Sys2Proof.Machine

/-! # Waits change nothing: O38 (70_reset_and_hazards.md R320, R321) -/

namespace Sys2Proof.Machine

/-! ## A run with waits beside the run without -/

/-- The part ends: its loops stay within their bounds. -/
def Flow.Ends (f : Flow) : Prop := ∀ u, f ≠ .endless u

/-- `f` is `full`, unless a loop of `full` has not had the fuel to end. -/
def Flow.Covers (f full : Flow) : Prop := full.Ends → f = full

/-- `full` is what `f` is when every transfer is completed at once: the same but for the partners' limit, and where `f`
waits, what it `resumes` with leads to `full`. What is `done` and what is `inside` says where `f` can be. -/
def Cut (done inside : State → Prop) (resume : State → Flow) (f full : Flow) : Prop :=
  match f with
  | .go t => done t ∧ full = .go (t.withLimit none)
  | .raise e t => full = .raise e (t.withLimit none)
  | .wait t => inside t ∧ (resume (t.withLimit none)).Covers full
  | .broken t => full = .broken (t.withLimit none)
  | .endless t => full = .endless (t.withLimit none)

section
variable {done done' inside inside' : State → Prop} {resume resume' : State → Flow} {f full : Flow}
  {k k' : State → Flow} {s : State}

theorem Flow.Covers.refl (f : Flow) : f.Covers f := fun _ => rfl

theorem Flow.Ends.of_andThen (h : (f.andThen k).Ends) : f.Ends := by
  intro u hu
  rw [hu] at h
  exact h u rfl

/-- What resumes `f` resumes `f` and what follows it. -/
theorem Flow.Covers.andThen {g : Flow} (h : f.Covers full) (hg : g.Covers (f.andThen k)) :
    g.Covers (full.andThen k) := by
  intro hends
  rw [h hends.of_andThen] at hg
  exact hg hends

theorem Flow.Covers.andThen_right (h : ∀ u, (k' u).Covers (k u)) : (f.andThen k').Covers (f.andThen k) := by
  cases f with
  | go u => exact h u
  | _ => exact .refl _

theorem Cut.andThen (h : Cut done inside resume f full)
    (hwait : ∀ t, inside t → inside' t ∧ (resume' (t.withLimit none)).Covers ((resume (t.withLimit none)).andThen k))
    (hgo : ∀ t, done t → Cut done' inside' resume' (k t) (k (t.withLimit none))) :
    Cut done' inside' resume' (f.andThen k) (full.andThen k) := by
  cases f with
  | go t =>
    obtain ⟨hdone, rfl⟩ := h
    exact hgo t hdone
  | raise e t => exact h ▸ rfl
  | wait t =>
    obtain ⟨hinside, hcovers⟩ := h
    obtain ⟨hinside', hcovers'⟩ := hwait t hinside
    exact ⟨hinside', hcovers.andThen hcovers'⟩
  | broken t => exact h ▸ rfl
  | endless t => exact h ▸ rfl

theorem Cut.mono (h : Cut done inside resume f full) (hdone : ∀ t, done t → done' t)
    (hwait : ∀ t, inside t → inside' t ∧ (resume' (t.withLimit none)).Covers (resume (t.withLimit none))) :
    Cut done' inside' resume' f full := by
  have hcut : Cut done' inside' resume' (f.andThen .go) (full.andThen .go) :=
    h.andThen (fun t ht => by rw [Flow.andThen_id]; exact hwait t ht) fun t ht => ⟨hdone t ht, rfl⟩
  rwa [Flow.andThen_id, Flow.andThen_id] at hcut

/-! ## The shared operations -/

theorem cut_check {b : Bool} {e : Status} (hdone : done s) :
    Cut done inside resume (check b e s) (check b e (s.withLimit none)) := by
  cases b
  · rfl
  · exact ⟨hdone, rfl⟩

theorem cut_judgeContract {b : Bool} (hdone : done s) :
    Cut done inside resume (judgeContract b s) (judgeContract b (s.withLimit none)) := by
  cases b
  · rfl
  · exact ⟨hdone, rfl⟩

theorem cut_requireMode {m : Mode} (hdone : done s) :
    Cut done inside resume (requireMode m s) (requireMode m (s.withLimit none)) := by
  unfold requireMode
  show Cut done inside resume _ (if s.regs.mode = .aborted then _ else if s.regs.mode = m then _ else _)
  split
  · rfl
  · split
    · exact ⟨hdone, rfl⟩
    · rfl

/-- A transfer waits, to be resumed from its start, or goes on the same way but for the limit. -/
theorem cut_transfer (hwait : inside s ∧ (resume (s.withLimit none)).Covers (k (s.withLimit none)))
    (hgo : ∀ l, Cut done inside resume (k (s.withLimit l)) (k (s.withLimit none))) :
    Cut done inside resume (transfer s k) (transfer (s.withLimit none) k) := by
  rw [transfer_none (s := s.withLimit none) rfl]
  rcases transfer_cases s k with ⟨-, h⟩ | ⟨-, h⟩ | ⟨n, -, h⟩ <;> rw [h]
  · exact hwait
  · exact hgo s.partnerLimit
  · exact hgo (some n)

theorem cut_tableQuery {q : Query} {k : Word → State → Flow}
    (hwait : inside s ∧ (resume (s.withLimit none)).Covers (tableQuery q (s.withLimit none) k))
    (hgo : ∀ a e l, Cut done inside resume (k a ((s.withLimit l).log e)) (k a ((s.withLimit none).log e))) :
    Cut done inside resume (tableQuery q s k) (tableQuery q (s.withLimit none) k) :=
  cut_transfer (by rwa [tableQuery, transfer_none (s := s.withLimit none) rfl] at hwait) fun l => hgo _ _ l

theorem transfer_andThen (s : State) (k : State → Flow) (next : State → Flow) :
    (transfer s k).andThen next = transfer s fun u => (k u).andThen next := by
  rcases hp : s.partnerLimit with _ | _ | n <;> simp [transfer, hp]

theorem tableQuery_andThen (q : Query) (s : State) (k : Word → State → Flow) (next : State → Flow) :
    (tableQuery q s k).andThen next = tableQuery q s fun a u => (k a u).andThen next := transfer_andThen ..

/-- The bit of a `BitOut` is handed over, and what follows it runs. -/
theorem cut_bitOut {b : Bit}
    (hwait : inside s ∧ (resume (s.withLimit none)).Covers ((bitOut b (s.withLimit none)).andThen k))
    (hgo : ∀ held e l, Cut done inside resume (k (((s.withLimit l).withSink held).log e))
      (k (((s.withLimit none).withSink held).log e))) :
    Cut done inside resume ((bitOut b s).andThen k) ((bitOut b (s.withLimit none)).andThen k) := by
  rw [bitOut, bitOut, transfer_andThen, transfer_andThen] at *
  exact cut_transfer hwait fun l => hgo _ _ l

theorem readCodeBit_andThen (s : State) (k : Bit → State → Flow) (next : State → Flow) :
    (readCodeBit s k).andThen next = readCodeBit s fun b u => (k b u).andThen next := transfer_andThen ..

theorem cut_readCodeBit {k : Bit → State → Flow}
    (hwait : inside s ∧ (resume (s.withLimit none)).Covers (readCodeBit (s.withLimit none) k))
    (hgo : ∀ b items e l, Cut done inside resume (k b (((s.withLimit l).withSource items).log e))
      (k b (((s.withLimit none).withSource items).log e))) :
    Cut done inside resume (readCodeBit s k) (readCodeBit (s.withLimit none) k) :=
  cut_transfer (by rwa [readCodeBit, transfer_none (s := s.withLimit none) rfl] at hwait) fun l => hgo _ _ _ l

end

/-! ## The loops, as one -/

theorem Flow.Covers.trans {f g h : Flow} (hfg : f.Covers g) (hgh : g.Covers h) : f.Covers h := by
  intro hends
  have heq := hgh hends
  exact (hfg (heq ▸ hends)).trans heq

/-- The form of the three loops: `body` while it is `due`, at most `n` times (log 12). -/
def whileDue (due : State → Bool) (body : State → Flow) : Nat → State → Flow
  | 0, s => if due s then .endless s else .go s
  | n + 1, s => if due s then (body s).andThen (whileDue due body n) else .go s

section
variable {due : State → Bool} {body : State → Flow} {s : State}

theorem whileDue_done (h : due s = false) (n : Nat) : whileDue due body n s = .go s := by
  cases n <;> exact if_neg (Bool.eq_false_iff.mp h)

theorem whileDue_succ (h : due s = true) (n : Nat) :
    whileDue due body (n + 1) s = (body s).andThen (whileDue due body n) := if_pos h

/-- More fuel than was enough changes nothing. -/
theorem whileDue_covers : ∀ {n m : Nat} (s : State), n ≤ m →
    (whileDue due body m s).Covers (whileDue due body n s) := by
  intro n
  induction n with
  | zero =>
    intro m s _ hends
    cases hdue : due s with
    | false => rw [whileDue_done hdue, whileDue_done hdue]
    | true => exact absurd (if_pos hdue) (hends s)
  | succ n ih =>
    intro m s hm
    obtain ⟨m, rfl⟩ := Nat.exists_eq_succ_of_ne_zero (Nat.ne_of_gt (Nat.lt_of_lt_of_le n.succ_pos hm))
    cases hdue : due s with
    | false => rw [whileDue_done hdue, whileDue_done hdue]; exact .refl _
    | true =>
      rw [Nat.succ_eq_add_one, whileDue_succ hdue, whileDue_succ hdue]
      exact .andThen_right fun u => ih u (Nat.le_of_succ_le_succ hm)

/-- A loop that waits in its body is resumed by what resumes the body and then loops on. -/
theorem cut_whileDue {here inside inside' : State → Prop} {resume resume' : State → Flow} {bound : Nat}
    (hlimit : ∀ s : State, due (s.withLimit none) = due s)
    (hbody : ∀ s, here s → due s = true → Cut here inside resume (body s) (body (s.withLimit none)))
    (hwait : ∀ t, inside t → inside' t
      ∧ (resume' (t.withLimit none)).Covers ((resume (t.withLimit none)).andThen (whileDue due body bound))) :
    ∀ {n : Nat} {s : State}, n ≤ bound + 1 → here s →
      Cut here inside' resume' (whileDue due body n s) (whileDue due body n (s.withLimit none)) := by
  intro n
  induction n with
  | zero =>
    intro s _ hs
    cases hdue : due s with
    | false => rw [whileDue_done hdue, whileDue_done ((hlimit s).trans hdue)]; exact ⟨hs, rfl⟩
    | true =>
      rw [whileDue, whileDue, if_pos hdue, if_pos ((hlimit s).trans hdue)]
      rfl
  | succ n ih =>
    intro s hn hs
    cases hdue : due s with
    | false => rw [whileDue_done hdue, whileDue_done ((hlimit s).trans hdue)]; exact ⟨hs, rfl⟩
    | true =>
      rw [whileDue_succ hdue, whileDue_succ ((hlimit s).trans hdue)]
      refine (hbody s hs hdue).andThen (fun t ht => ?_) fun t ht => ih (Nat.le_of_succ_le hn) ht
      obtain ⟨hinside, hcovers⟩ := hwait t ht
      exact ⟨hinside, hcovers.trans (.andThen_right fun u => whileDue_covers u (Nat.le_of_succ_le_succ hn))⟩

end

/-! ## The loops of UPDATE and of the search, in that form -/

/-- One E1/E2 step (40_coder_state_machine.md R147). -/
def renormStep (s : State) : Flow := (shiftHook s).andThen fun u => .go (renormShift u)

/-- One E3 step (R150). -/
def underflowStep (s : State) : Flow := (underflowHook s).andThen fun u => .go (underflowShift u)

/-- One iteration of the search (42_decoder.md R215). -/
def searchStep (s : State) : Flow :=
  tableQuery (.low (BitVec.ofNat 64 (midpoint s.hidden.start s.hidden.stop)))
    (s.withHidden { s.hidden with mid := midpoint s.hidden.start s.hidden.stop })
    fun a s => .go (s.withHidden (s.hidden.narrowSearch a))

theorem renormLoop_eq (n : Nat) (s : State) :
    renormLoop n s = whileDue (fun s => renormDue s.w s.interval) renormStep n s := by
  induction n generalizing s with
  | zero => rfl
  | succ n ih =>
    rw [renormLoop, whileDue, renormStep, Flow.andThen_assoc]
    simp only [Flow.andThen_go, ← ih]

theorem underflowLoop_eq (n : Nat) (s : State) :
    underflowLoop n s = whileDue (fun s => underflowDue s.w s.interval) underflowStep n s := by
  induction n generalizing s with
  | zero => rfl
  | succ n ih =>
    rw [underflowLoop, whileDue, underflowStep, Flow.andThen_assoc]
    simp only [Flow.andThen_go, ← ih]

theorem searchLoop_eq (n : Nat) (s : State) :
    searchLoop n s = whileDue (fun s => searchGoesOn s.hidden.start s.hidden.stop) searchStep n s := by
  induction n generalizing s with
  | zero => rfl
  | succ n ih =>
    rw [searchLoop, whileDue, searchStep, tableQuery_andThen]
    simp only [Flow.andThen_go, ← ih]

/-! ## The encoder's emission (41_encoder.md R182) -/

section
variable {s : State}

/-- The pending bits at whatever of them they wait: the count still to emit is kept up. -/
theorem cut_emitPending : ∀ {n : Nat} {s : State}, s.hidden.phase = .pendingEmission →
    Cut (fun _ => True) (fun t => t.hidden.phase = .pendingEmission)
      (fun t => emitPending t.hidden.pendingLeft (!topBit t.w t.interval.low) t)
      (emitPending n (!topBit s.w s.interval.low) s)
      (emitPending n (!topBit s.w s.interval.low) (s.withLimit none)) := by
  intro n
  induction n with
  | zero => exact fun _ => ⟨trivial, rfl⟩
  | succ n ih =>
    intro s hp
    let u := s.withHidden { s.hidden with pendingLeft := n + 1 }
    exact cut_bitOut (s := u) ⟨hp, .refl _⟩ fun held e l => ih (s := ((u.withLimit l).withSink held).log e) hp

theorem cut_encEmission (n : Nat) (s : State) :
    Cut (fun t => t.hidden.phase = .renorm) (fun t => t.hidden.phase = .pendingEmission)
      (fun t => encEmission t.hidden.pendingLeft t) (encEmission n s) (encEmission n (s.withLimit none)) := by
  refine (cut_emitPending (s := s.enterPhase .pendingEmission) rfl).andThen (fun t ht => ⟨ht, ?_⟩)
    fun t _ => ⟨rfl, rfl⟩
  show Flow.Covers ((emitPending t.hidden.pendingLeft (!topBit t.w t.interval.low)
    ((t.withLimit none).enterPhase .pendingEmission)).andThen _) _
  rw [State.enterPhase_self (s := t.withLimit none) ht]
  exact .refl _

/-! ## The E1/E2 loop (40_coder_state_machine.md R146, R147) -/

/-- Where an E1/E2 step can wait: at its first transfer, or in its pending bits. -/
def InRenorm (t : State) : Prop :=
  t.hidden.phase = .renorm ∧ renormDue t.w t.interval = true ∨ t.hidden.phase = .pendingEmission

/-- What is left of an E1/E2 step that waited. -/
def renormStepRest (t : State) : Flow :=
  if t.hidden.phase = .pendingEmission then
    (encEmission t.hidden.pendingLeft t).andThen fun u => .go (renormShift u)
  else renormStep t

theorem renormStepRest_of_renorm (h : s.hidden.phase = .renorm) : renormStepRest s = renormStep s :=
  if_neg (by rw [h]; decide)

theorem shiftHook_enc (h : s.regs.mode = .enc) : shiftHook s = encShiftHook s := by rw [shiftHook, h]

theorem shiftHook_dec (h : s.regs.mode = .dec) : shiftHook s = decShiftHook s := by rw [shiftHook, h]

theorem shiftHook_other (henc : s.regs.mode ≠ .enc) (hdec : s.regs.mode ≠ .dec) : shiftHook s = .go s := by
  unfold shiftHook
  split
  · next h => exact absurd h henc
  · next h => exact absurd h hdec
  · rfl
  · rfl
  · rfl

theorem cut_renormStep (hp : s.hidden.phase = .renorm) (hdue : renormDue s.w s.interval = true) :
    Cut (fun t => t.hidden.phase = .renorm) InRenorm renormStepRest (renormStep s) (renormStep (s.withLimit none)) := by
  have hwait : InRenorm s ∧ (renormStepRest (s.withLimit none)).Covers (renormStep (s.withLimit none)) :=
    ⟨.inl ⟨hp, hdue⟩, by rw [renormStepRest_of_renorm (by exact hp)]; exact .refl _⟩
  by_cases henc : s.regs.mode = .enc
  · have hstep (t : State) (ht : t.regs.mode = .enc) : renormStep t
        = (bitOut (topBit t.w t.interval.low) t).andThen fun u =>
          (encEmission u.regs.pending u).andThen fun v => .go (renormShift v) := by
      rw [renormStep, shiftHook_enc ht, encShiftHook, Flow.andThen_assoc]
    rw [hstep s henc, hstep (s.withLimit none) henc] at *
    refine cut_bitOut hwait fun held e l =>
      (cut_encEmission _ _).andThen (fun t ht => ⟨.inr ht, ?_⟩) fun t ht => ⟨ht, rfl⟩
    rw [renormStepRest, if_pos (by exact ht)]
    exact .refl _
  · by_cases hdec : s.regs.mode = .dec
    · have hstep (t : State) (ht : t.regs.mode = .dec) : renormStep t
          = readCodeBit t fun b u => .go (renormShift (u.writeCode (codeShift u.w u.code b))) := by
        rw [renormStep, shiftHook_dec ht, decShiftHook, readCodeBit_andThen]
        rfl
      rw [hstep s hdec, hstep (s.withLimit none) hdec] at *
      exact cut_readCodeBit hwait fun b items e l => ⟨hp, rfl⟩
    · have hstep (t : State) (ht : t.regs.mode = s.regs.mode) : renormStep t = .go (renormShift t) := by
        rw [renormStep, shiftHook_other (ht ▸ henc) (ht ▸ hdec), Flow.andThen_go]
      rw [hstep s rfl, hstep (s.withLimit none) rfl]
      exact ⟨hp, rfl⟩

theorem cut_renormLoop {n : Nat} (hn : n ≤ loopBound) (hp : s.hidden.phase = .renorm) :
    Cut (fun _ => True) (fun t => t.hidden.phase.stage = .renorm) updateRenorm (renormLoop n s)
      (renormLoop n (s.withLimit none)) := by
  rw [renormLoop_eq, renormLoop_eq]
  refine (cut_whileDue (bound := 63) (here := fun t => t.hidden.phase = .renorm) (fun _ => rfl)
    (fun s hp hdue => cut_renormStep hp hdue) (fun t ht => ?_) hn hp).mono (fun _ _ => trivial)
    fun t ht => ⟨ht, .refl _⟩
  rcases ht with ⟨hp, hdue⟩ | hp
  · refine ⟨by rw [hp]; rfl, ?_⟩
    rw [renormStepRest_of_renorm (by exact hp), updateRenorm, if_neg (by show ¬t.hidden.phase = _; rw [hp]; decide),
      renormLoop_eq, loopBound, whileDue_succ (by exact hdue)]
    exact .refl _
  · refine ⟨by rw [hp]; rfl, ?_⟩
    rw [renormStepRest, if_pos (by exact hp), updateRenorm, if_pos (by exact hp), Flow.andThen_assoc]
    refine .andThen_right fun u => ?_
    rw [Flow.andThen_go, renormLoop_eq]
    exact whileDue_covers _ (by decide)

/-! ## The E3 loop (R149, R150) -/

theorem underflowHook_enc (h : s.regs.mode = .enc) : underflowHook s = encUnderflowHook s := by rw [underflowHook, h]

theorem underflowHook_dec (h : s.regs.mode = .dec) : underflowHook s = decUnderflowHook s := by rw [underflowHook, h]

theorem underflowHook_other (henc : s.regs.mode ≠ .enc) (hdec : s.regs.mode ≠ .dec) : underflowHook s = .go s := by
  unfold underflowHook
  split
  · next h => exact absurd h henc
  · next h => exact absurd h hdec
  · rfl
  · rfl
  · rfl

theorem cut_underflowStep (hp : s.hidden.phase = .underflow) (hdue : underflowDue s.w s.interval = true) :
    Cut (fun t => t.hidden.phase = .underflow)
      (fun t => t.hidden.phase = .underflow ∧ underflowDue t.w t.interval = true) underflowStep (underflowStep s)
      (underflowStep (s.withLimit none)) := by
  unfold underflowStep
  by_cases henc : s.regs.mode = .enc
  · rw [underflowHook_enc henc, underflowHook_enc (s := s.withLimit none) henc, encUnderflowHook, encUnderflowHook,
      Flow.andThen_assoc, Flow.andThen_assoc]
    exact (cut_check (done := fun t => t.hidden.phase = .underflow) (inside := fun _ => False) (resume := .go)
      hp).andThen (fun _ => False.elim) fun t ht => ⟨ht, rfl⟩
  · by_cases hdec : s.regs.mode = .dec
    · rw [underflowHook_dec hdec, underflowHook_dec (s := s.withLimit none) hdec, decUnderflowHook, decUnderflowHook,
        readCodeBit_andThen, readCodeBit_andThen]
      refine cut_readCodeBit ⟨⟨hp, hdue⟩, ?_⟩ fun b items e l => ⟨hp, rfl⟩
      rw [underflowHook_dec (s := s.withLimit none) hdec, decUnderflowHook, readCodeBit_andThen]
      exact .refl _
    · rw [underflowHook_other henc hdec, underflowHook_other (s := s.withLimit none) henc hdec]
      exact ⟨hp, rfl⟩

theorem cut_updateUnderflow (hp : s.hidden.phase = .underflow) :
    Cut (fun _ => True) (fun t => t.hidden.phase.stage = .underflow) updateUnderflow (updateUnderflow s)
      (updateUnderflow (s.withLimit none)) := by
  rw [updateUnderflow, updateUnderflow, underflowLoop_eq, underflowLoop_eq]
  refine (cut_whileDue (bound := 63) (here := fun t => t.hidden.phase = .underflow) (fun _ => rfl)
    (fun s hp hdue => cut_underflowStep hp hdue) (fun t ht => ?_) le_rfl hp).mono (fun _ _ => trivial)
    fun t ht => ⟨ht, .refl _⟩
  obtain ⟨hp, hdue⟩ := ht
  refine ⟨by rw [hp]; rfl, ?_⟩
  rw [updateUnderflow, underflowLoop_eq, loopBound, whileDue_succ (by exact hdue)]
  exact .refl _

/-! ## The search (42_decoder.md R215) -/

theorem Hidden.narrowSearch_phase (h : Hidden) (a : Word) : (h.narrowSearch a).phase = h.phase := by
  unfold Hidden.narrowSearch
  split <;> rfl

theorem cut_searchStep (hp : s.hidden.phase = .search) (hdue : searchGoesOn s.hidden.start s.hidden.stop = true) :
    Cut (fun t => t.hidden.phase = .search)
      (fun t => t.hidden.phase = .search ∧ searchGoesOn t.hidden.start t.hidden.stop = true) searchStep (searchStep s)
      (searchStep (s.withLimit none)) :=
  cut_tableQuery (s := s.withHidden { s.hidden with mid := midpoint s.hidden.start s.hidden.stop })
    ⟨⟨hp, hdue⟩, .refl _⟩ fun a _ _ => ⟨(Hidden.narrowSearch_phase _ a).trans hp, rfl⟩

theorem cut_decSearch (hp : s.hidden.phase = .search) :
    Cut (fun _ => True) (fun t => t.hidden.phase.stage = .search) decSearch (decSearch s)
      (decSearch (s.withLimit none)) := by
  rw [decSearch, decSearch, searchLoop_eq, searchLoop_eq]
  refine (cut_whileDue (bound := 63) (inside' := fun t => t.hidden.phase.stage = .search)
    (resume' := fun t => searchLoop searchBound t) (here := fun t => t.hidden.phase = .search) (fun _ => rfl)
    (fun s hp hdue => cut_searchStep hp hdue) (fun t ht => ?_) le_rfl hp).andThen (fun t ht => ⟨ht, .refl _⟩)
    fun t _ => ?_
  · obtain ⟨hp, hdue⟩ := ht
    refine ⟨by rw [hp]; rfl, ?_⟩
    rw [searchLoop_eq, searchBound, whileDue_succ (by exact hdue)]
    exact .refl _
  · exact (cut_check (done := fun _ => True) (inside := fun _ => False) (resume := .go) trivial).andThen
      (fun _ => False.elim) fun t _ => ⟨trivial, rfl⟩

end

/-! ## The stages of every command -/

/-- A stage that waits is resumed by running it again where it waits. -/
def StageCuts (g : Stage) : Prop :=
  ∀ s : State, s.hidden.phase = g.phase → Cut (fun _ => True) (fun t => t.hidden.phase.stage = g.phase) g.run (g.run s)
    (g.run (s.withLimit none))

section
variable {g : Stage} {p : Phase} {s : State}

/-- A stage that is one table query. -/
theorem stageCuts_query {run : State → Flow} {q : State → Query} {k : State → Word → State → Flow} (hp : p.stage = p)
    (hrun : ∀ s, run s = tableQuery (q s) s (k s)) (hq : ∀ s : State, q (s.withLimit none) = q s)
    (hk : ∀ s : State, k (s.withLimit none) = k s)
    (hgo : ∀ s a u, Cut (fun _ => True) (fun _ => False) .go (k s a u) (k s a (u.withLimit none))) :
    StageCuts ⟨p, run⟩ := by
  intro s hs
  show Cut _ _ run (run s) (run (s.withLimit none))
  rw [hrun s, hrun (s.withLimit none), hq, hk]
  refine cut_tableQuery ⟨by rw [hs]; exact hp, ?_⟩ fun a e l => ?_
  · rw [hrun (s.withLimit none), hq, hk]
    exact .refl _
  · exact (hgo s a ((s.withLimit l).log e)).mono (fun _ => id) fun _ => False.elim

/-- A stage that starts no transfer. -/
theorem stageCuts_quiet {run : State → Flow}
    (h : ∀ s, Cut (fun _ => True) (fun _ => False) .go (run s) (run (s.withLimit none))) : StageCuts ⟨p, run⟩ :=
  fun s _ => (h s).mono (fun _ => id) fun _ => False.elim

/-- Parts that start no transfer, one after the other. -/
theorem cut_quiet_andThen {f full : Flow} {k : State → Flow}
    (h : Cut (fun _ => True) (fun _ => False) .go f full)
    (hk : ∀ t, Cut (fun _ => True) (fun _ => False) .go (k t) (k (t.withLimit none))) :
    Cut (fun _ => True) (fun _ => False) .go (f.andThen k) (full.andThen k) :=
  h.andThen (fun _ => False.elim) fun t _ => hk t

theorem updateStages_cuts {symbol : State → Word} (hsym : FixedSymbol symbol) :
    ∀ g ∈ updateStages symbol, StageCuts g := by
  have hindex (s : State) : symbol (s.withLimit none) = symbol s := hsym _ _ rfl
  intro g hg
  simp only [updateStages, List.mem_cons, List.not_mem_nil, or_false] at hg
  rcases hg with rfl | rfl | rfl | rfl | rfl | rfl
  · refine stageCuts_quiet fun s => cut_quiet_andThen (cut_check trivial) fun t => ?_
    rw [hindex]
    exact cut_judgeContract trivial
  · exact stageCuts_query rfl (fun _ => rfl) (fun _ => rfl) (fun _ => rfl) fun _ _ _ => ⟨trivial, rfl⟩
  · exact stageCuts_query (q := fun s => .low (symbol s)) rfl (fun _ => rfl) (fun s => congrArg _ (hindex s))
      (fun _ => rfl) fun _ _ _ => ⟨trivial, rfl⟩
  · refine stageCuts_query (q := fun s => .high (symbol s)) rfl (fun _ => rfl) (fun s => congrArg _ (hindex s))
      (fun _ => rfl) fun _ _ _ => ?_
    exact cut_quiet_andThen (cut_quiet_andThen (cut_check trivial) fun _ => cut_check trivial) fun _ => ⟨trivial, rfl⟩
  · intro s hs
    have hphase : ¬ s.hidden.phase = .pendingEmission := by rw [hs]; decide
    show Cut _ _ _ (updateRenorm s) (updateRenorm (s.withLimit none))
    rw [updateRenorm, updateRenorm, if_neg hphase, if_neg (by exact hphase)]
    exact cut_renormLoop le_rfl hs
  · exact fun s hs => cut_updateUnderflow hs

theorem searchStages_cuts : ∀ g ∈ searchStages, StageCuts g := by
  intro g hg
  simp only [searchStages, List.mem_cons, List.not_mem_nil, or_false] at hg
  rcases hg with rfl | rfl | rfl | rfl | rfl
  · refine stageCuts_query rfl (fun _ => rfl) (fun _ => rfl) (fun _ => rfl) fun _ _ _ => ?_
    exact cut_quiet_andThen (cut_quiet_andThen (cut_check trivial) fun _ => cut_check trivial)
      fun _ => cut_check trivial
  · exact stageCuts_query rfl (fun _ => rfl) (fun _ => rfl) (fun _ => rfl) fun _ _ _ => ⟨trivial, rfl⟩
  · exact fun s hs => cut_decSearch hs
  · exact stageCuts_query (q := fun s => .low (decodedIndex s)) rfl (fun _ => rfl) (fun _ => rfl) (fun _ => rfl)
      fun _ _ _ => ⟨trivial, rfl⟩
  · exact stageCuts_query (q := fun s => .high (decodedIndex s)) rfl (fun _ => rfl) (fun _ => rfl) (fun _ => rfl)
      fun _ _ _ => cut_check trivial

/-- The reads of INIT.DEC: how many are left is kept up. -/
theorem cut_readInitial {w : Nat} : ∀ {n : Nat} {s : State}, s.hidden.phase = .initialRead → n = w - s.hidden.initBits →
    Cut (fun _ => True) (fun t => t.hidden.phase.stage = .initialRead) (initDecRead w) (readInitial n s)
      (readInitial n (s.withLimit none)) := by
  intro n
  induction n with
  | zero => exact fun _ _ => ⟨trivial, rfl⟩
  | succ n ih =>
    intro s hp hn
    refine cut_readCodeBit ⟨by rw [hp]; rfl, ?_⟩ fun b items e l => ih hp ?_
    · rw [initDecRead, show (s.withLimit none).hidden.initBits = s.hidden.initBits from rfl, ← hn]
      exact .refl _
    · show n = w - (s.hidden.initBits + 1)
      omega

theorem stagesOf_cuts (i : Instr) : ∀ g ∈ stagesOf i, StageCuts g := by
  cases i with
  | nop => nofun
  | initEnc w =>
    exact List.forall_mem_singleton.mpr (stageCuts_quiet fun _ =>
      cut_quiet_andThen (cut_check trivial) fun _ => ⟨trivial, rfl⟩)
  | initDec w =>
    refine List.forall_mem_cons.mpr ⟨stageCuts_quiet fun _ =>
        cut_quiet_andThen (cut_check trivial) fun _ => ⟨trivial, rfl⟩,
      List.forall_mem_cons.mpr ⟨fun s hs => cut_readInitial hs rfl, List.forall_mem_singleton.mpr ?_⟩⟩
    exact stageCuts_quiet fun _ => ⟨trivial, rfl⟩
  | enc symbol =>
    exact List.forall_mem_cons.mpr ⟨stageCuts_quiet fun _ => cut_requireMode trivial,
      updateStages_cuts (fixedSymbol_operand symbol)⟩
  | dec =>
    rw [stagesOf, decStages_eq]
    refine List.forall_mem_cons.mpr ⟨stageCuts_quiet fun _ => ?_, List.forall_mem_append.mpr ⟨searchStages_cuts,
      List.forall_mem_append.mpr ⟨updateStages_cuts fixedSymbol_decoded, List.forall_mem_singleton.mpr ?_⟩⟩⟩
    · exact cut_quiet_andThen (cut_requireMode trivial) fun _ =>
        cut_quiet_andThen (cut_check trivial) fun _ => cut_judgeContract trivial
    · exact stageCuts_quiet fun _ => cut_check trivial
  | fin =>
    refine List.forall_mem_cons.mpr ⟨stageCuts_quiet fun _ => cut_requireMode trivial,
      List.forall_mem_cons.mpr ⟨fun s hs => ?_, List.forall_mem_singleton.mpr ?_⟩⟩
    · have hcut : Cut (fun _ => True) (fun t => t.hidden.phase.stage = .finalBit) (bitOut true)
          ((bitOut true s).andThen .go) ((bitOut true (s.withLimit none)).andThen .go) :=
        cut_bitOut ⟨by rw [hs]; rfl, by rw [Flow.andThen_id]; exact .refl _⟩ fun _ _ _ => ⟨trivial, rfl⟩
      rwa [Flow.andThen_id, Flow.andThen_id] at hcut
    · exact stageCuts_quiet fun _ => ⟨trivial, rfl⟩
  | close => exact List.forall_mem_singleton.mpr (stageCuts_quiet fun _ => ⟨trivial, rfl⟩)

/-- The stages in order: whichever waits, the command is resumed in it. -/
theorem cut_runStages : ∀ {stages : List Stage}, (∀ g ∈ stages, StageCuts g) → (stages.map Stage.phase).Nodup →
    ∀ s : State, Cut (fun _ => True) (fun t => t.hidden.phase.stage ∈ stages.map Stage.phase) (resumeStages stages)
      (runStages stages s) (runStages stages (s.withLimit none)) := by
  intro stages
  induction stages with
  | nil => exact fun _ _ s => ⟨trivial, rfl⟩
  | cons g rest ih =>
    intro hstages hnodup s
    obtain ⟨hg, hrest⟩ := List.forall_mem_cons.mp hstages
    obtain ⟨hnot, hnodup'⟩ := List.nodup_cons.mp hnodup
    refine (hg (s.enterPhase g.phase) rfl).andThen (fun t ht => ⟨ht ▸ List.mem_cons_self, ?_⟩) fun t _ =>
      (ih hrest hnodup' t).mono (fun _ => id) fun u hu => ⟨List.mem_cons_of_mem _ hu, ?_⟩
    · rw [resumeStages_eq (s := t.withLimit none) (g := g) (rest := rest) (by rw [stagesFrom]; exact if_pos ht.symm)]
      exact .refl _
    · have hne : g.phase ≠ u.hidden.phase.stage := fun heq => hnot (heq ▸ hu)
      rw [resumeStages, resumeStages, stagesFrom,
        if_neg (show g.phase ≠ (u.withLimit none).hidden.phase.stage from hne)]
      exact .refl _

end

/-- Settles O38: the stage that waited is run again where it waits, and a command on a state that meets the invariant
ends. -/
theorem waitingChangesNothing : Obligations.WaitingChangesNothing := by
  intro i s t n hi hu hc h
  obtain ⟨hfit, -, hprogress⟩ := of_invariantHolds hi hu
  have hs : sessionOk s = true := (progressOk_none hc).symm.trans hprogress
  let a := accept (some i) (s.withLimit (some n))
  let full := runStages (stagesOf i) (a.withLimit none)
  have hcut : Cut _ _ _ (runStages (stagesOf i) a) full := cut_runStages (stagesOf_cuts i) (stagesOf_nodup i) a
  have hends : full.Ends := by
    have hsat : full.Sat (commandPost i True) := runStages_stagesOf_sat i hfit hs
    intro u hendless
    rw [hendless] at hsat
    exact hsat
  have hfull : exec i (s.withLimit none) = settle (resultOf i) full := exec_eq i (s.withLimit none)
  rw [hfull]
  rcases exec_next h with ⟨u, -, hf, rfl⟩ | ⟨e, u, -, hf, rfl⟩ | ⟨hk, hf⟩ | ⟨u, -, hf, rfl⟩ <;>
    rw [show runStages (stagesOf i) a = _ from hf] at hcut
  · obtain ⟨-, hgo⟩ := hcut
    have hresult : resultOf i (u.withLimit none) = resultOf i u := by cases i <;> rfl
    refine ⟨nofun, fun _ => ?_⟩
    rw [hgo, settle_go, hresult]
    rfl
  · refine ⟨nofun, fun _ => ?_⟩
    rw [show full = _ from hcut]
    rfl
  · obtain ⟨-, hcovers⟩ := hcut
    have hcurrent : t.current = some i := hk.current
    refine ⟨fun _ => ?_, fun hnone => absurd (hcurrent.symm.trans hnone) nofun⟩
    rw [resumeCommand_some (s := t.withLimit none) hcurrent, hcovers hends]
  · refine ⟨nofun, fun _ => ?_⟩
    rw [show full = _ from hcut]
    rfl

end Sys2Proof.Machine

/-! # The hidden state is never read before it is written: O37 (10_state.md R44, R59) -/

namespace Sys2Proof.Machine

/-! ## Two runs that differ in their hidden state -/

/-- `g` is `f` but for the hidden state, and where they go on, their hidden states are related by `known`. -/
def SameBut (known : Hidden → Hidden → Prop) (f g : Flow) : Prop :=
  match f with
  | .go s => ∃ h, known s.hidden h ∧ g = .go (s.withHidden h)
  | .raise e s => ∃ h, g = .raise e (s.withHidden h)
  | .wait s => ∃ h, g = .wait (s.withHidden h)
  | .broken s => ∃ h, g = .broken (s.withHidden h)
  | .endless s => ∃ h, g = .endless (s.withHidden h)

section
variable {known known' : Hidden → Hidden → Prop} {f g : Flow} {k k' : State → Flow} {s : State} {h : Hidden}

theorem SameBut.go (hknown : known s.hidden h) : SameBut known (.go s) (.go (s.withHidden h)) := ⟨h, hknown, rfl⟩

theorem SameBut.andThen (hf : SameBut known f g)
    (hk : ∀ s h, known s.hidden h → SameBut known' (k s) (k (s.withHidden h))) :
    SameBut known' (f.andThen k) (g.andThen k) := by
  cases f with
  | go s =>
    obtain ⟨h, hknown, rfl⟩ := hf
    exact hk s h hknown
  | _ =>
    obtain ⟨h, rfl⟩ := hf
    exact ⟨h, rfl⟩

theorem SameBut.mono (hf : SameBut known f g) (hknown : ∀ h h', known h h' → known' h h') : SameBut known' f g := by
  have hcopy : SameBut known' (f.andThen .go) (g.andThen .go) := hf.andThen fun s h hs => .go (hknown _ _ hs)
  rwa [Flow.andThen_id, Flow.andThen_id] at hcopy

/-- A stage, then the rest of them. -/
theorem SameBut.runStages {p : Phase} {run : State → Flow} {rest : List Stage}
    (hrun : SameBut known (run (s.enterPhase p)) (run ((s.withHidden h).enterPhase p)))
    (hrest : ∀ s h, known s.hidden h → SameBut known' (runStages rest s) (runStages rest (s.withHidden h))) :
    SameBut known' (Machine.runStages (⟨p, run⟩ :: rest) s) (Machine.runStages (⟨p, run⟩ :: rest) (s.withHidden h)) :=
  hrun.andThen hrest

/-! ## The shared operations -/

theorem sameBut_check {b b' : Bool} {e : Status} (hb : b' = b) (hknown : known s.hidden h) :
    SameBut known (check b e s) (check b' e (s.withHidden h)) := by
  subst hb
  cases b'
  · exact ⟨h, rfl⟩
  · exact .go hknown

theorem sameBut_judgeContract {b b' : Bool} (hb : b' = b) (hknown : known s.hidden h) :
    SameBut known (judgeContract b s) (judgeContract b' (s.withHidden h)) := by
  subst hb
  cases b'
  · exact ⟨h, rfl⟩
  · exact .go hknown

theorem sameBut_requireMode {m : Mode} (hknown : known s.hidden h) :
    SameBut known (requireMode m s) (requireMode m (s.withHidden h)) := by
  unfold requireMode
  show SameBut known _ (if s.regs.mode = .aborted then _ else if s.regs.mode = m then _ else _)
  split
  · exact ⟨h, rfl⟩
  · split
    · exact .go hknown
    · exact ⟨h, rfl⟩

theorem sameBut_transfer (hgo : ∀ l, SameBut known (k (s.withLimit l)) (k' ((s.withLimit l).withHidden h))) :
    SameBut known (transfer s k) (transfer (s.withHidden h) k') := by
  rcases hp : s.partnerLimit with _ | _ | n
  · rw [transfer_none hp, transfer_none (by exact hp)]
    exact hgo s.partnerLimit
  · rw [transfer_stalled hp, transfer_stalled (by exact hp)]
    exact ⟨h, rfl⟩
  · rw [transfer, transfer, hp, show (s.withHidden h).partnerLimit = some (n + 1) from hp]
    exact hgo (some n)

theorem sameBut_tableQuery {q q' : Query} {k k' : Word → State → Flow} (hq : q' = q)
    (hgo : ∀ e l, SameBut known (k (tableAgentStep s.table q.kind q.index) ((s.withLimit l).log e))
      (k' (tableAgentStep s.table q.kind q.index) (((s.withLimit l).log e).withHidden h))) :
    SameBut known (tableQuery q s k) (tableQuery q' (s.withHidden h) k') := by
  subst hq
  exact sameBut_transfer fun l => hgo _ l

theorem sameBut_bitOut {b : Bit} (hknown : known s.hidden h) :
    SameBut known (bitOut b s) (bitOut b (s.withHidden h)) :=
  sameBut_transfer fun _ => .go hknown

theorem sameBut_readCodeBit {k : Bit → State → Flow}
    (hgo : ∀ b items e l, SameBut known (k b (((s.withLimit l).withSource items).log e))
      (k b ((((s.withLimit l).withSource items).log e).withHidden h))) :
    SameBut known (readCodeBit s k) (readCodeBit (s.withHidden h) k) :=
  sameBut_transfer fun l => hgo _ _ _ l

theorem sameBut_whileDue {due : State → Bool} {body : State → Flow}
    (hdue : ∀ s h, known s.hidden h → due (s.withHidden h) = due s)
    (hbody : ∀ s h, known s.hidden h → SameBut known (body s) (body (s.withHidden h))) :
    ∀ {n : Nat} {s : State} {h : Hidden}, known s.hidden h →
      SameBut known (whileDue due body n s) (whileDue due body n (s.withHidden h)) := by
  intro n
  induction n with
  | zero =>
    intro s h hknown
    rw [whileDue, whileDue, hdue s h hknown]
    split
    · exact ⟨h, rfl⟩
    · exact .go hknown
  | succ n ih =>
    intro s h hknown
    rw [whileDue, whileDue, hdue s h hknown]
    split
    · exact (hbody s h hknown).andThen fun _ _ => ih
    · exact .go hknown

end

/-! ## UPDATE: of the hidden state it reads its symbol, and what it has latched itself -/

/-- The symbol is the same whichever of the two is the hidden state. -/
def SameSymbol (symbol : State → Word) (h h' : Hidden) : Prop :=
  ∀ s : State, symbol (s.withHidden h') = symbol (s.withHidden h)

section
variable {symbol : State → Word} {s : State} {h h' : Hidden}

/-- A write to another field than the symbol's. -/
theorem SameSymbol.write (hsym : FixedSymbol symbol) (hs : SameSymbol symbol h h') {g g' : Hidden}
    (hg : g.symbol = h.symbol) (hg' : g'.symbol = h'.symbol) : SameSymbol symbol g g' := by
  intro s
  rw [hsym (s.withHidden h') (s.withHidden g') hg', hsym (s.withHidden h) (s.withHidden g) hg]
  exact hs s

theorem SameSymbol.eq (hs : SameSymbol symbol s.hidden h) : symbol (s.withHidden h) = symbol s := hs s

theorem sameBut_emitPending (hsym : FixedSymbol symbol) {b : Bit} : ∀ {n : Nat} {s : State} {h : Hidden},
    SameSymbol symbol s.hidden h →
    SameBut (SameSymbol symbol) (emitPending n b s) (emitPending n b (s.withHidden h)) := by
  intro n
  induction n with
  | zero => exact fun hs => .go hs
  | succ n ih =>
    intro s h hs
    have hs' : SameSymbol symbol { s.hidden with pendingLeft := n + 1 } { h with pendingLeft := n + 1 } :=
      hs.write hsym rfl rfl
    exact (sameBut_bitOut (s := s.withHidden { s.hidden with pendingLeft := n + 1 }) hs').andThen fun _ _ => ih

theorem sameBut_encEmission (hsym : FixedSymbol symbol) {n : Nat} (hs : SameSymbol symbol s.hidden h) :
    SameBut (SameSymbol symbol) (encEmission n s) (encEmission n (s.withHidden h)) :=
  (sameBut_emitPending hsym (s := s.enterPhase .pendingEmission) (h := { h with phase := .pendingEmission })
    (hs.write hsym rfl rfl)).andThen fun u h' hu => SameBut.go (s := (u.writePending 0).enterPhase .renorm)
      (h := { h' with phase := .renorm }) (hu.write hsym rfl rfl)

theorem sameBut_renormStep (hsym : FixedSymbol symbol) (s : State) (h : Hidden) (hs : SameSymbol symbol s.hidden h) :
    SameBut (SameSymbol symbol) (renormStep s) (renormStep (s.withHidden h)) := by
  have hhook : SameBut (SameSymbol symbol) (shiftHook s) (shiftHook (s.withHidden h)) := by
    by_cases henc : s.regs.mode = .enc
    · rw [shiftHook_enc henc, shiftHook_enc (s := s.withHidden h) henc]
      exact (sameBut_bitOut hs).andThen fun _ _ hu => sameBut_encEmission hsym hu
    · by_cases hdec : s.regs.mode = .dec
      · rw [shiftHook_dec hdec, shiftHook_dec (s := s.withHidden h) hdec]
        exact sameBut_readCodeBit fun b items e l => .go hs
      · rw [shiftHook_other henc hdec, shiftHook_other (s := s.withHidden h) henc hdec]
        exact .go hs
  exact hhook.andThen fun u h' hu => .go hu

theorem sameBut_underflowStep (s : State) (h : Hidden) (hs : SameSymbol symbol s.hidden h) :
    SameBut (SameSymbol symbol) (underflowStep s) (underflowStep (s.withHidden h)) := by
  have hhook : SameBut (SameSymbol symbol) (underflowHook s) (underflowHook (s.withHidden h)) := by
    by_cases henc : s.regs.mode = .enc
    · rw [underflowHook_enc henc, underflowHook_enc (s := s.withHidden h) henc]
      exact (sameBut_check rfl hs).andThen fun u h' hu => .go hu
    · by_cases hdec : s.regs.mode = .dec
      · rw [underflowHook_dec hdec, underflowHook_dec (s := s.withHidden h) hdec]
        exact sameBut_readCodeBit fun b items e l => .go hs
      · rw [underflowHook_other henc hdec, underflowHook_other (s := s.withHidden h) henc hdec]
        exact .go hs
  exact hhook.andThen fun u h' hu => .go hu

theorem sameBut_loopStages (hsym : FixedSymbol symbol) (hs : SameSymbol symbol s.hidden h) :
    SameBut (SameSymbol symbol) (runStages loopStages s) (runStages loopStages (s.withHidden h)) := by
  have hrenorm : SameBut (SameSymbol symbol) (updateRenorm (s.enterPhase .renorm))
      (updateRenorm ((s.withHidden h).enterPhase .renorm)) := by
    rw [updateRenorm_enterPhase, updateRenorm_enterPhase, renormLoop_eq, renormLoop_eq]
    exact sameBut_whileDue (fun _ _ _ => rfl) (sameBut_renormStep hsym) (s := s.enterPhase .renorm)
      (h := { h with phase := .renorm }) (hs.write hsym rfl rfl)
  refine hrenorm.runStages fun u h' hu => SameBut.runStages (known := SameSymbol symbol) ?_ fun _ _ => .go
  rw [updateUnderflow, updateUnderflow, underflowLoop_eq, underflowLoop_eq]
  exact sameBut_whileDue (fun _ _ _ => rfl) sameBut_underflowStep (s := u.enterPhase .underflow)
    (h := { h' with phase := .underflow }) (hu.write hsym rfl rfl)

/-- What UPDATE has latched is the same in both. -/
structure SameLatched (symbol : State → Word) (h h' : Hidden) : Prop where
  symbol : SameSymbol symbol h h'
  total : h'.total = h.total
  low : h'.low = h.low
  high : h'.high = h.high

theorem sameBut_updateArguments (hl : SameLatched symbol s.hidden h) :
    SameBut (SameLatched symbol) (updateArguments s) (updateArguments (s.withHidden h)) := by
  refine (sameBut_check (known := SameLatched symbol) ?_ hl).andThen fun u h' hu => sameBut_check ?_ hu
  · rw [show (s.withHidden h).hidden.total = s.hidden.total from hl.total]
    rfl
  · rw [show (u.withHidden h').hidden = h' from rfl, hu.total, hu.low, hu.high]

theorem sameBut_updateQueryHigh (hsym : FixedSymbol symbol) (hs : SameSymbol symbol s.hidden h)
    (htotal : h.total = s.hidden.total) (hlow : h.low = s.hidden.low) :
    SameBut (SameSymbol symbol) (updateQueryHigh symbol s) (updateQueryHigh symbol (s.withHidden h)) := by
  refine sameBut_tableQuery (congrArg Query.high hs.eq) fun e l => ?_
  let v := (s.withLimit l).log e
  let a := s.table.high (symbol s)
  refine (sameBut_updateArguments (symbol := symbol) (s := v.withHidden { v.hidden with high := a })
    (h := { h with high := a }) ⟨hs.write hsym rfl rfl, htotal, hlow, rfl⟩).andThen fun u h' hu => ?_
  have hnarrow : updateNarrow (u.withHidden h') = (updateNarrow u).withHidden h' := by
    rw [updateNarrow, show (u.withHidden h').hidden = h' from rfl, hu.total, hu.low, hu.high]
    rfl
  rw [hnarrow]
  exact .go hu.symbol

/-- UPDATE after its entry check. -/
theorem sameBut_updateStages_tail (hsym : FixedSymbol symbol) (hs : SameSymbol symbol s.hidden h) :
    SameBut (SameSymbol symbol) (runStages (updateStages symbol).tail s)
      (runStages (updateStages symbol).tail (s.withHidden h)) := by
  refine SameBut.runStages (known := fun h h' => SameSymbol symbol h h' ∧ h'.total = h.total)
    (sameBut_tableQuery rfl fun e l => .go ⟨hs.write hsym rfl rfl, rfl⟩) fun s h ⟨hs, htotal⟩ => ?_
  refine SameBut.runStages
    (known := fun h h' => SameSymbol symbol h h' ∧ h'.total = h.total ∧ h'.low = h.low) ?_
    fun s h ⟨hs, htotal, hlow⟩ => ?_
  · have hentry : SameSymbol symbol (s.enterPhase .queryLow).hidden { h with phase := .queryLow } :=
      hs.write hsym rfl rfl
    exact sameBut_tableQuery (s := s.enterPhase .queryLow) (h := { h with phase := .queryLow })
      (congrArg Query.low hentry.eq) fun e l => .go ⟨hs.write hsym rfl rfl, htotal, rfl⟩
  · exact SameBut.runStages (known := SameSymbol symbol)
      (sameBut_updateQueryHigh hsym (s := s.enterPhase .queryHigh) (h := { h with phase := .queryHigh })
        (hs.write hsym rfl rfl) htotal hlow) fun _ _ hu => sameBut_loopStages hsym hu

theorem sameBut_updateStages (hsym : FixedSymbol symbol) (hs : SameSymbol symbol s.hidden h) :
    SameBut (SameSymbol symbol) (runStages (updateStages symbol) s)
      (runStages (updateStages symbol) (s.withHidden h)) := by
  have hentry : SameSymbol symbol (s.enterPhase .updateEntry).hidden { h with phase := .updateEntry } :=
    hs.write hsym rfl rfl
  refine SameBut.runStages (known := SameSymbol symbol) ?_ fun _ _ hu => sameBut_updateStages_tail hsym hu
  refine (sameBut_check (known := SameSymbol symbol) (s := s.enterPhase .updateEntry)
    (h := { h with phase := .updateEntry }) rfl hentry).andThen fun u h' hu => sameBut_judgeContract ?_ hu
  rw [hu.eq]
  rfl

end

/-! ## The search of DEC (42_decoder.md R213 to R217) -/

/-- T, offset and value are the same in both. -/
structure SameInverse (h h' : Hidden) : Prop where
  total : h'.total = h.total
  offset : h'.offset = h.offset
  value : h'.value = h.value

/-- So are the bounds of the search. -/
structure SameBounds (h h' : Hidden) : Prop extends SameInverse h h' where
  start : h'.start = h.start
  stop : h'.stop = h.stop

/-- So is the symbol found. -/
structure SameFound (h h' : Hidden) : Prop extends SameInverse h h' where
  symbol : h'.symbol = h.symbol

section
variable {s : State} {h : Hidden}

theorem sameBut_decTotal : SameBut SameInverse (decTotal s) (decTotal (s.withHidden h)) := by
  refine sameBut_tableQuery rfl fun e l => ?_
  let v := (s.withLimit l).log e
  refine SameBut.andThen (known := fun h h' => h'.total = h.total) ?_ fun u h' hu => ?_
  · refine (sameBut_check (known := fun h h' => h'.total = h.total)
      (s := v.withHidden { v.hidden with total := s.table.total }) (h := { h with total := s.table.total })
      rfl rfl).andThen fun u h' hu => sameBut_check ?_ hu
    rw [show (u.withHidden h').hidden.total = u.hidden.total from hu]
  · have hvalue : inverseValue (codeOffset u.interval u.code) h'.total.toNat u.interval.range
        = inverseValue (codeOffset u.interval u.code) u.hidden.total.toNat u.interval.range := by rw [hu]
    refine sameBut_check (s := u.withHidden { u.hidden with
        offset := codeOffset u.interval u.code
        value := inverseValue (codeOffset u.interval u.code) u.hidden.total.toNat u.interval.range })
      (h := { h' with
        offset := codeOffset u.interval u.code
        value := inverseValue (codeOffset u.interval u.code) h'.total.toNat u.interval.range }) ?_ ⟨hu, rfl, hvalue⟩
    show decide (inverseValue (codeOffset u.interval u.code) h'.total.toNat u.interval.range < h'.total.toNat)
      = decide (inverseValue _ _ _ < u.hidden.total.toNat)
    rw [hu]

theorem SameBounds.narrowSearch {h h' : Hidden} (hb : SameBounds h h') (hmid : h'.mid = h.mid) (a : Word) :
    SameBounds (h.narrowSearch a) (h'.narrowSearch a) := by
  rcases Nat.lt_or_ge h.value a.toNat with hbelow | habove
  · rw [Hidden.narrowSearch_below hbelow, Hidden.narrowSearch_below (hb.value ▸ hbelow)]
    exact ⟨⟨hb.total, hb.offset, hb.value⟩, hb.start, hmid⟩
  · rw [Hidden.narrowSearch_above habove, Hidden.narrowSearch_above (hb.value ▸ habove)]
    exact ⟨⟨hb.total, hb.offset, hb.value⟩, hmid, hb.stop⟩

theorem sameBut_searchStep (s : State) (h : Hidden) (hb : SameBounds s.hidden h) :
    SameBut SameBounds (searchStep s) (searchStep (s.withHidden h)) := by
  have hmid : midpoint h.start h.stop = midpoint s.hidden.start s.hidden.stop := by rw [hb.start, hb.stop]
  refine sameBut_tableQuery (s := s.withHidden { s.hidden with mid := midpoint s.hidden.start s.hidden.stop })
    (h := { h with mid := midpoint h.start h.stop }) (congrArg (fun mid => Query.low (BitVec.ofNat 64 mid)) hmid)
    fun e l => .go ?_
  exact SameBounds.narrowSearch (h := { s.hidden with mid := midpoint s.hidden.start s.hidden.stop })
    (h' := { h with mid := midpoint h.start h.stop }) ⟨⟨hb.total, hb.offset, hb.value⟩, hb.start, hb.stop⟩ hmid _

theorem sameBut_decSearch (hb : SameBounds s.hidden h) :
    SameBut SameFound (decSearch s) (decSearch (s.withHidden h)) := by
  have hloop : SameBut SameBounds (searchLoop searchBound s) (searchLoop searchBound (s.withHidden h)) := by
    rw [searchLoop_eq, searchLoop_eq]
    refine sameBut_whileDue (fun s h hb => ?_) sameBut_searchStep hb
    rw [show (s.withHidden h).hidden = h from rfl, hb.start, hb.stop]
  refine hloop.andThen fun u h' hu => ?_
  refine (sameBut_check (known := SameBounds) ?_ hu).andThen fun v g hv => ?_
  · rw [show (u.withHidden h').hidden = h' from rfl, hu.start, hu.stop]
  · exact SameBut.go (s := v.withHidden { v.hidden with symbol := v.hidden.start }) (h := { g with symbol := g.start })
      ⟨⟨hv.total, hv.offset, hv.value⟩, hv.start⟩

theorem SameFound.sameSymbol {h h' : Hidden} (hf : SameFound h h') : SameSymbol decodedIndex h h' :=
  fun _ => congrArg (BitVec.ofNat 64) hf.symbol

theorem sameBut_decContainHigh (hf : SameFound s.hidden h) (hlow : h.low = s.hidden.low) :
    SameBut (SameSymbol decodedIndex) (decContainHigh s) (decContainHigh (s.withHidden h)) := by
  refine sameBut_tableQuery (congrArg Query.high hf.sameSymbol.eq) fun e l => ?_
  let v := (s.withLimit l).log e
  refine sameBut_check (s := v.withHidden { v.hidden with high := s.table.high (decodedIndex s) })
    (h := { h with high := s.table.high (decodedIndex s) }) ?_ (hf.sameSymbol.write fixedSymbol_decoded rfl rfl)
  show codeContained _ h.total.toNat h.low.toNat _ h.offset = codeContained _ s.hidden.total.toNat s.hidden.low.toNat _
    s.hidden.offset
  rw [hf.total, hf.offset, hlow]
  rfl

theorem sameBut_searchStages :
    SameBut (SameSymbol decodedIndex) (runStages searchStages s) (runStages searchStages (s.withHidden h)) := by
  refine SameBut.runStages sameBut_decTotal fun s h hi => ?_
  refine SameBut.runStages (known := SameBounds)
    (sameBut_tableQuery rfl fun e l => .go ⟨⟨hi.total, hi.offset, hi.value⟩, rfl, rfl⟩) fun s h hb => ?_
  refine SameBut.runStages (sameBut_decSearch (s := s.enterPhase .search) (h := { h with phase := .search })
    ⟨⟨hb.total, hb.offset, hb.value⟩, hb.start, hb.stop⟩) fun s h hf => ?_
  refine SameBut.runStages (known := fun h h' => SameFound h h' ∧ h'.low = h.low)
    (sameBut_tableQuery (s := s.enterPhase .containLow) (h := { h with phase := .containLow })
      (congrArg Query.low (hf.sameSymbol.write fixedSymbol_decoded rfl rfl).eq)
      fun e l => .go ⟨⟨⟨hf.total, hf.offset, hf.value⟩, hf.symbol⟩, ?_⟩) fun s h ⟨hf, hlow⟩ => ?_
  · rfl
  · exact SameBut.runStages (sameBut_decContainHigh (s := s.enterPhase .containHigh)
      (h := { h with phase := .containHigh }) ⟨⟨hf.total, hf.offset, hf.value⟩, hf.symbol⟩ hlow) fun _ _ => .go

/-! ## Every command -/

theorem sameBut_readInitial {n : Nat} : ∀ {s : State} {h : Hidden},
    SameBut (fun _ _ => True) (readInitial n s) (readInitial n (s.withHidden h)) := by
  induction n with
  | zero => exact .go trivial
  | succ n ih => exact sameBut_readCodeBit fun b items e l => ih

/-- A command whose RESULT is 0 tells nothing of its hidden state. -/
theorem sameSymbol_noResult (h h' : Hidden) : SameSymbol noResult h h' := fun _ => rfl

theorem sameBut_stagesOf (i : Instr) (s : State) (h : Hidden) :
    SameBut (SameSymbol (resultOf i)) (runStages (stagesOf i) s) (runStages (stagesOf i) (s.withHidden h)) := by
  cases i with
  | nop => exact .go (sameSymbol_noResult _ _)
  | initEnc w =>
    refine SameBut.runStages (known := fun _ _ => True) ?_ fun _ _ _ => .go (sameSymbol_noResult _ _)
    exact (sameBut_check (known := fun _ _ => True) rfl trivial).andThen fun _ _ _ => .go trivial
  | initDec w =>
    refine SameBut.runStages (known := fun h h' => h'.initBits = h.initBits) ?_ fun s h hbits => ?_
    · exact (sameBut_check (known := fun _ _ => True) rfl trivial).andThen fun _ _ _ => .go rfl
    · refine SameBut.runStages (known := fun _ _ => True) ?_ fun s h _ =>
        SameBut.runStages (known := fun _ _ => True) (.go trivial) fun _ _ _ => .go (sameSymbol_noResult _ _)
      show SameBut _ (readInitial (w - s.hidden.initBits) _) (readInitial (w - h.initBits) _)
      rw [hbits]
      exact sameBut_readInitial
  | enc symbol =>
    refine SameBut.runStages (known := fun _ _ => True) (sameBut_requireMode trivial) fun s h _ => ?_
    exact (sameBut_updateStages (fixedSymbol_operand symbol) fun _ => rfl).mono fun _ _ _ => sameSymbol_noResult _ _
  | dec =>
    rw [stagesOf, decStages_eq]
    refine SameBut.runStages (known := fun _ _ => True) ?_ fun s h _ => ?_
    · exact (sameBut_requireMode (known := fun _ _ => True) trivial).andThen fun _ _ _ =>
        (sameBut_check (known := fun _ _ => True) rfl trivial).andThen fun _ _ _ => sameBut_judgeContract rfl trivial
    · rw [runStages_append, runStages_append]
      refine sameBut_searchStages.andThen fun s h hs => ?_
      rw [runStages_append, runStages_append]
      refine (sameBut_updateStages fixedSymbol_decoded hs).andThen fun s h hs => ?_
      exact SameBut.runStages (known := SameSymbol decodedIndex)
        (sameBut_check rfl (hs.write fixedSymbol_decoded rfl rfl)) fun _ _ => .go
  | fin =>
    refine SameBut.runStages (known := fun _ _ => True) (sameBut_requireMode trivial) fun s h _ => ?_
    refine SameBut.runStages (known := fun _ _ => True) (sameBut_bitOut trivial) fun s h _ => ?_
    exact SameBut.runStages (known := fun _ _ => True) (.go trivial) fun _ _ _ => .go (sameSymbol_noResult _ _)
  | close => exact SameBut.runStages (known := fun _ _ => True) (.go trivial) fun _ _ _ => .go (sameSymbol_noResult _ _)

end

/-- Settles O37: what a command reads of its hidden state it has written, and no outcome shows the rest. -/
theorem hiddenStateIsNeverReadFirst : Obligations.HiddenStateIsNeverReadFirst := by
  intro i s h visible
  have hsame := sameBut_stagesOf i (accept (some i) s) h
  rw [exec_eq]
  generalize runStages (stagesOf i) (accept (some i) s) = f at hsame ⊢
  generalize runStages (stagesOf i) ((accept (some i) s).withHidden h) = g at hsame ⊢
  cases f with
  | go u =>
    obtain ⟨h', hknown, rfl⟩ := hsame
    rw [settle_go, settle_go, hknown.eq]
    rfl
  | _ =>
    obtain ⟨h', rfl⟩ := hsame
    rfl

end Sys2Proof.Machine

/-! # The bounds on a command's port events: O36 (70_reset_and_hazards.md R320) -/

namespace Sys2Proof.Machine

/-! ## Counting port events -/

/-- Among the events there are at most so many queries, bits out and items in. -/
structure Counts (es : List PortEvent) (queries bits items : Nat) : Prop where
  queries : (queriesIn es).length ≤ queries
  bits : (bitsOutIn es).length ≤ bits
  items : (itemsIn es).length ≤ items

section
variable {es es' : List PortEvent} {q q' b b' n n' : Nat}

theorem counts_nil : Counts [] 0 0 0 := ⟨le_rfl, le_rfl, le_rfl⟩

theorem Counts.append (h : Counts es q b n) (h' : Counts es' q' b' n') :
    Counts (es ++ es') (q + q') (b + b') (n + n') := by
  refine ⟨?_, ?_, ?_⟩
  · rw [queriesIn_append, List.length_append]
    exact Nat.add_le_add h.queries h'.queries
  · rw [bitsOutIn, List.filterMap_append, List.length_append]
    exact Nat.add_le_add h.bits h'.bits
  · rw [itemsIn, List.filterMap_append, List.length_append]
    exact Nat.add_le_add h.items h'.items

theorem Counts.mono (h : Counts es q b n) (hq : q ≤ q') (hb : b ≤ b') (hn : n ≤ n') : Counts es q' b' n' :=
  ⟨h.queries.trans hq, h.bits.trans hb, h.items.trans hn⟩

/-- Of fewer events there are at most as many. -/
theorem Counts.of_prefix (h : Counts es' q b n) (hp : es <+: es') : Counts es q b n := by
  obtain ⟨more, rfl⟩ := hp
  refine ⟨?_, ?_, ?_⟩
  · have hle := h.queries
    rw [queriesIn_append, List.length_append] at hle
    exact (Nat.le_add_right _ _).trans hle
  · have hle := h.bits
    rw [bitsOutIn, List.filterMap_append, List.length_append] at hle
    exact (Nat.le_add_right _ _).trans hle
  · have hle := h.items
    rw [itemsIn, List.filterMap_append, List.length_append] at hle
    exact (Nat.le_add_right _ _).trans hle

theorem Counts.query (h : Counts es q b n) (kind : BitVec 2) (index answer : Word) :
    Counts (.query kind index answer :: es) (q + 1) b n :=
  ⟨Nat.succ_le_succ h.queries, h.bits, h.items⟩

theorem counts_queries {α : Type} (xs : List α) (kind : α → BitVec 2) (index answer : α → Word) :
    Counts (xs.map fun x => .query (kind x) (index x) (answer x)) xs.length 0 0 := by
  induction xs with
  | nil => exact counts_nil
  | cons x xs ih => exact ih.query _ _ _

theorem counts_bitsOut (bits : List Bit) : Counts (bits.map .bitOut) 0 bits.length 0 := by
  induction bits with
  | nil => exact counts_nil
  | cons x xs ih => exact ⟨ih.queries, Nat.succ_le_succ ih.bits, ih.items⟩

theorem counts_bitsIn (items : List (BitVec 2)) : Counts (items.map .bitIn) 0 0 items.length := by
  induction items with
  | nil => exact counts_nil
  | cons x xs ih => exact ⟨ih.queries, ih.bits, Nat.succ_le_succ ih.items⟩

theorem counts_updateQueries (t : Table) (x : Word) : Counts (updateQueries t x) 3 0 0 :=
  ((counts_nil.query _ _ _).query _ _ _).query _ _ _

end

/-! ## The search (42_decoder.md R215) -/

/-- The search halves its bounds with each query. -/
theorem SearchRuns.length_le {t : Table} {value start stop found : Nat} {mids : List Nat}
    (h : SearchRuns t value start stop mids found) : mids.length ≤ Nat.clog 2 (stop - start) := by
  have halved {start stop d : Nat} (hmore : start + 1 < stop) (hd : d ≤ (stop - start + 1) / 2) {n : Nat}
      (hn : n ≤ Nat.clog 2 d) : n + 1 ≤ Nat.clog 2 (stop - start) := by
    rw [Nat.clog_of_two_le one_lt_two (by omega)]
    exact Nat.succ_le_succ (hn.trans (Nat.clog_mono_right 2 hd))
  induction h with
  | done => exact Nat.zero_le _
  | lowerHalf more above rest ih => exact halved more (by omega) ih
  | upperHalf more below rest ih => exact halved more (by omega) ih

/-! ## Every command whose partners complete every transfer -/

/-- What R320 allows the command `i` from the state `s`. -/
def Bounded (i : Instr) (s : State) (es : List PortEvent) : Prop :=
  match i with
  | .nop => Counts es 0 0 0
  | .initEnc _ => Counts es 0 0 0
  | .initDec w => Counts es 0 0 w
  | .enc _ => Counts es 3 (s.w + s.regs.pending) 0
  | .dec => Counts es (7 + Nat.clog 2 s.table.symbolLimit.toNat) 0 s.w
  | .fin => Counts es 0 1 0
  | .close => Counts es 0 0 0

section
variable {i : Instr} {s t : State}

theorem bounded_nil (i : Instr) (s : State) : Bounded i s [] := by
  cases i <;> exact counts_nil.mono (Nat.zero_le _) (Nat.zero_le _) (Nat.zero_le _)

theorem Bounded.of_prefix {es es' : List PortEvent} (h : Bounded i s es') (hp : es <+: es') : Bounded i s es := by
  cases i <;> exact Counts.of_prefix h hp

/-- The trace of the end of a command whose events are bounded. -/
def Logs (i : Instr) (s t : State) : Prop := ∃ es, t.trace = s.trace ++ es ∧ Bounded i s es

theorem logs_of_trace_eq (h : t.trace = s.trace) : Logs i s t := ⟨[], h.trans (List.append_nil _).symm, bounded_nil i s⟩

/-- A coding command that its mode refuses makes no port event (60_exceptions.md R277, R278). -/
theorem NeedsMode.logs_of_refused {m : Mode} (hi : NeedsMode i m) (hm : s.regs.mode ≠ m) (h : exec i s = .next t) :
    Logs i s t := by
  refine logs_of_trace_eq ?_
  by_cases ha : s.regs.mode = .aborted
  · rw [hi.exec_of_raise s _ (requireMode_sessionAborted (by exact ha))] at h
    cases h
    rfl
  · rw [hi.exec_of_raise s _ (requireMode_sequenceError (by exact ha) (by exact hm))] at h
    cases h
    rfl

theorem length_itemsRead (n : Nat) (items : List Bit) : (itemsRead n items).length = n := by
  rw [itemsRead, List.length_map, List.length_range]

theorem exec_initDec_logs {w : Nat} (hp : s.partnerLimit = none) (h : exec (.initDec w) s = .next t) :
    Logs (.initDec w) s t := by
  cases hw : legalWidth w with
  | false =>
    rw [exec_initDec_of_illegal hw] at h
    cases h
    exact logs_of_trace_eq rfl
  | true =>
    obtain ⟨hidden, hexec⟩ := exec_initDec_of_legal (legalWidth_iff.mp hw) hp
    rw [hexec] at h
    cases h
    exact ⟨_, rfl, (counts_bitsIn _).mono le_rfl le_rfl (length_itemsRead w s.source).le⟩

theorem exec_fin_logs (hp : s.partnerLimit = none) (h : exec .fin s = .next t) : Logs .fin s t := by
  by_cases hm : s.regs.mode = .enc
  · rw [exec_fin_of_mode hm (by rw [hp]; nofun)] at h
    cases h
    exact ⟨[.bitOut true], rfl, counts_bitsOut [true]⟩
  · exact NeedsMode.fin.logs_of_refused hm h

theorem exec_enc_logs {symbol : Nat} (hfit : regsFit s.build s.regs = true) (hs : sessionOk s = true)
    (hp : s.partnerLimit = none) (h : exec (.enc symbol) s = .next t) (hu : t.undefinedTable = false) :
    Logs (.enc symbol) s t := by
  by_cases hm : s.regs.mode = .enc
  · obtain ⟨hcoding, -⟩ := coding_enc hm hfit hs
    have hw : 1 ≤ s.w ∧ s.w ≤ 63 := hcoding.width
    rcases exec_enc_cases (symbol := symbol) hm hp with hexec | ⟨u, hexec⟩ | ⟨e, -, hexec⟩ | ⟨hok, hn⟩
    · rw [hexec] at h
      cases h
      exact logs_of_trace_eq rfl
    · rw [hexec] at h
      cases h
      cases hu
    · rw [hexec] at h
      cases h
      exact ⟨_, rfl, (counts_updateQueries s.table (symbolIndex symbol)).mono le_rfl (Nat.zero_le _) le_rfl⟩
    · obtain ⟨k1, j1, k3, j3, hrun⟩ := updateRuns_of_codable hw hok hn
      have hindex := symbolIndex_toNat_self (symbolIndex symbol)
      obtain ⟨hidden, hexec⟩ := exec_enc_of_codable_index hindex.symm hm hp hw hok hn
        hcoding.fits.pending hrun
      have hsteps := hrun.steps
      have hlength := length_emittedBits s.w k1 (s.interval.select s.table (symbolIndex symbol).toNat) s.regs.pending
      have hcounts := (counts_updateQueries s.table (symbolIndex (symbolIndex symbol).toNat)).append (counts_bitsOut
        (emittedBits s.w k1 (s.interval.select s.table (symbolIndex symbol).toNat) s.regs.pending))
      have hbits : 0 + (emittedBits s.w k1 (s.interval.select s.table (symbolIndex symbol).toNat)
          s.regs.pending).length ≤ s.w + s.regs.pending := by
        rw [hlength]
        split <;> omega
      have hbounded := hcounts.mono le_rfl hbits le_rfl
      rw [hexec] at h
      by_cases hroom : (if k1 = 0 then s.regs.pending else 0) + k3 ≤ s.build.pendingMax
      · rw [if_pos hroom] at h
        cases h
        exact ⟨_, rfl, hbounded⟩
      · rw [if_neg hroom] at h
        cases h
        exact ⟨_, rfl, hbounded⟩
  · exact (NeedsMode.enc symbol).logs_of_refused hm h

theorem exec_dec_logs (hfit : regsFit s.build s.regs = true) (hs : sessionOk s = true) (hp : s.partnerLimit = none)
    (h : exec .dec s = .next t) (hu : t.undefinedTable = false) : Logs .dec s t := by
  by_cases hm : s.regs.mode = .dec
  · obtain ⟨hcoding, hok, hcode⟩ := coding_dec hm hfit hs
    cases hc : s.table.conforming with
    | false =>
      rw [exec_dec_of_broken_contract hm hok hcode hc] at h
      cases h
      cases hu
    | true =>
      by_cases hbad : maxTotal s.build s.w < s.table.total.toNat ∨ s.table.total.toNat = 0
      · obtain ⟨e, he⟩ : ∃ e, (e = Status.totalTooLarge ∧ maxTotal s.build s.w < s.table.total.toNat)
            ∨ (e = .zeroFrequency ∧ s.table.total.toNat = 0) :=
          hbad.elim (fun hlarge => ⟨_, .inl ⟨rfl, hlarge⟩⟩) fun hzero => ⟨_, .inr ⟨rfl, hzero⟩⟩
        obtain ⟨u, hexec, -, -, -, -, -, htrace⟩ := decodeRejectsBadTotals s e hm hok hcode hp hc he
        rw [hexec] at h
        cases h
        exact ⟨_, htrace, (counts_nil.query _ _ _).mono (Nat.succ_le_of_lt (by omega)) le_rfl (Nat.zero_le _)⟩
      · rw [not_or, Nat.not_lt] at hbad
        obtain ⟨u, symbol, k1, k3, j1, j3, mids, hfinds⟩ :=
          decodeFindsTheSymbol s hm hcoding.width.2 hok hcode hp hc hbad.1 hbad.2
        obtain ⟨hexec, -, -, -, -, -, -, -, -, hsteps, -, -, -, -, -, -, -, -, -, hsearch, -, htrace⟩ := hfinds
        rw [hexec] at h
        cases h
        have hmids := hsearch.length_le
        rw [Nat.sub_zero] at hmids
        have hitems := length_itemsRead (k1 + k3) s.source
        refine ⟨_, by rw [htrace, List.append_assoc, List.append_assoc, List.append_assoc], ?_⟩
        have htwo := (counts_nil.query 3 0 s.table.symbolLimit).query 0 0 s.table.total
        have hlast := (counts_updateQueries s.table (symbolIndex symbol)).append
          (counts_bitsIn (itemsRead (k1 + k3) s.source))
        refine Counts.mono (htwo.append ((counts_queries mids (fun _ => 1) _ _).append
          ((hlast.query _ _ _).query _ _ _))) ?_ le_rfl ?_ <;> omega
  · exact NeedsMode.dec.logs_of_refused hm h

theorem exec_logs (hfit : regsFit s.build s.regs = true) (hs : sessionOk s = true) (hp : s.partnerLimit = none)
    (h : exec i s = .next t) (hu : t.undefinedTable = false) : Logs i s t := by
  have hquiet (hi : i = .nop ∨ i = .close ∨ ∃ w, i = .initEnc w) : Logs i s t := by
    obtain ⟨-, -, -, -, -, -, -, -, -, -, -, hnone⟩ := commandsLeaveTheRestAlone i s t h hu
    exact logs_of_trace_eq (hnone hi).trace
  cases i with
  | nop => exact hquiet (.inl rfl)
  | initEnc w => exact hquiet (.inr (.inr ⟨w, rfl⟩))
  | initDec w => exact exec_initDec_logs hp h
  | enc symbol => exact exec_enc_logs hfit hs hp h hu
  | dec => exact exec_dec_logs hfit hs hp h hu
  | fin => exact exec_fin_logs hp h
  | close => exact hquiet (.inr (.inl rfl))

/-! ## Waits add no event (R321) -/

theorem exec_current (h : exec i s = .next t) : t.current = none ∨ t.current = some i := by
  rcases exec_next h with ⟨u, -, -, rfl⟩ | ⟨e, u, -, -, rfl⟩ | ⟨hk, -⟩ | ⟨u, -, -, rfl⟩
  · exact .inl rfl
  · exact .inl rfl
  · exact .inr hk.current
  · exact .inl rfl

/-- A command that waits never finds the contract broken when it goes on: it has been judged. -/
theorem resumeCommand_unrecorded (hc : s.current = some i) (hfit : regsFit s.build s.regs = true)
    (hw : waitsOk i s = true) (hu : s.undefinedTable = false) :
    ∃ t, resumeCommand s = .next t ∧ t.undefinedTable = false := by
  have hsat := resumeStages_stagesOf_sat hfit hw
  have hwithin := resumeStages_within (stagesOf_within i) s
  rw [resumeCommand_some hc]
  cases hf : resumeStages (stagesOf i) s with
  | go u => rw [hf] at hwithin; exact ⟨_, rfl, (Continues.undefinedTable hwithin).trans hu⟩
  | raise e u => rw [hf] at hwithin; exact ⟨_, rfl, (Continues.undefinedTable hwithin).trans hu⟩
  | wait u => rw [hf] at hwithin; exact ⟨_, rfl, (Continues.undefinedTable hwithin).trans hu⟩
  | broken u => rw [hf] at hsat; exact hsat.elim
  | endless u => rw [hf] at hsat; exact hsat.elim

/-- Where a command waits, its registers fit and its phase has what it needs. -/
theorem exec_waits (hfit : regsFit s.build s.regs = true) (hs : sessionOk s = true) (h : exec i s = .next t)
    (hc : t.current = some i) : regsFit t.build t.regs = true ∧ waitsOk i t = true := by
  have hsat := runStages_stagesOf_sat (s := accept (some i) s) i hfit hs
  rcases exec_next h with ⟨u, -, -, rfl⟩ | ⟨e, u, -, -, rfl⟩ | ⟨-, hf⟩ | ⟨u, -, -, rfl⟩
  · cases hc
  · cases hc
  · rw [hf] at hsat
    exact hsat
  · cases hc

/-- Whatever the partners complete, the command has logged no more than it would if they completed every transfer. -/
theorem exec_trace_prefix (hi : invariantHolds s = true) (hu : s.undefinedTable = false) (hc : s.current = none)
    (h : exec i s = .next t) (ht : t.undefinedTable = false) :
    ∃ t', exec i (s.withLimit none) = .next t' ∧ t'.undefinedTable = false ∧ t.trace <+: t'.trace := by
  cases hp : s.partnerLimit with
  | none =>
    have hsame : s.withLimit none = s := by rw [← hp]; rfl
    exact ⟨t, hsame.symm ▸ h, ht, List.prefix_rfl⟩
  | some n =>
    have hsame : s.withLimit (some n) = s := by rw [← hp]; rfl
    obtain ⟨hwait, hend⟩ := waitingChangesNothing i s t n hi hu hc (hsame.symm ▸ h)
    rcases exec_current h with hnone | hsome
    · exact ⟨_, hend hnone, ht, List.prefix_rfl⟩
    · obtain ⟨hfit, -, hprogress⟩ := of_invariantHolds hi hu
      obtain ⟨hfit', hw⟩ := exec_waits hfit ((progressOk_none hc).symm.trans hprogress) h hsome
      obtain ⟨t', hresume, ht'⟩ := resumeCommand_unrecorded (s := t.withLimit none) hsome hfit' hw ht
      exact ⟨t', (hwait hsome).symm.trans hresume, ht', (resumeCommand_follows hresume).trace⟩

end

/-- Settles O36: the bounds hold when no transfer waits, by the commands' own statements, and a wait adds no event. -/
theorem portEventsAreBounded : Obligations.PortEventsAreBounded := by
  intro i s t hi hc h ht
  have hu : s.undefinedTable = false := by
    obtain ⟨hsame, -⟩ := exec_surroundings h ht
    exact hsame.undefinedTable.symm.trans ht
  obtain ⟨hfit, -, hprogress⟩ := of_invariantHolds hi hu
  have hs : sessionOk s = true := (progressOk_none hc).symm.trans hprogress
  obtain ⟨t', hexec, ht', hprefix⟩ := exec_trace_prefix hi hu hc h ht
  obtain ⟨es', hes', hbounded⟩ := exec_logs (s := s.withLimit none) hfit hs rfl hexec ht'
  obtain ⟨-, -, -, es, hes⟩ := exec_surroundings h ht
  have hevents : es <+: es' := by
    rw [hes', ← hes] at hprefix
    exact (List.prefix_append_right_inj _).mp hprefix
  have hcounts : Bounded i s es := Bounded.of_prefix (i := i) (s := s) hbounded hevents
  refine ⟨es, hes.symm, ?_⟩
  cases i with
  | _ => exact ⟨hcounts.queries, hcounts.bits, hcounts.items⟩

end Sys2Proof.Machine
